-- ==== Sys2Proof/Word.lean ====
section
/-! DEFINITION. The words of the hardware: the widths the spec gives its values (R7, R9, R80).
All values are unsigned bit vectors and bit 0 is the least significant bit (R9). -/

namespace Sys2Proof

/-- An 8-bit value: a payload byte, a register of the partner, a byte on the wire. -/
abbrev Byte := BitVec 8

/-- The 32-bit command word of R80. -/
abbrev Word := BitVec 32

/-- A 7-bit device address (`ADDR_BITS` of R7). -/
abbrev DevAddr := BitVec 7

/-- An 8-bit register address (`REG_BITS` of R7). -/
abbrev RegAddr := BitVec 8

end Sys2Proof
end

