-- ==== Sys2Proof/Config.lean ====
section
/-! DEFINITION. The configuration of R7 and the free values. Configuration is no state (R8): no operation writes it.
An OPEN parameter of R7 is an opaque constant, so a theorem holds for every value of it; a free value is an opaque
function of the draw counter that State holds, so a theorem holds whatever the bus or an unspecified byte gives. -/

namespace Sys2Proof

/-- Exactly one bit of the byte is set: R164 on `NEWFREQ_WORD`. -/
def oneBitSet (w : Byte) : Bool := ((List.range 8).filter fun i => w.getLsbD i).length == 1

/-- `REG_BASE .. REG_BASE+5`, the six contiguous control registers (R58, R164). DESIGN CHOICE (log 8): no rule says
whether `REG_BASE` may exceed 250, nor whether the range then wraps at 255; every `REG_BASE` is admitted and the range is
taken as natural numbers, without wrap. -/
def inBlock (base r : RegAddr) : Bool := decide (base.toNat ≤ r.toNat) && decide (r.toNat ≤ base.toNat + 5)

/-- The chip-specific numbers of R7, with the constraints R164 takes from the document's wording as proof fields.
The default values are the Si570's (R7, G2, from general knowledge): they only show that the constraints can be met. -/
structure OscParams where
  /-- `OSC_ADDR`, 7-bit device address of the oscillator. -/
  addr : DevAddr := 0x55#7
  /-- `REG_BASE`, first of the six contiguous control registers. -/
  regBase : RegAddr := 7#8
  /-- `REG_FREEZE`, the freeze-DCO register. -/
  regFreeze : RegAddr := 137#8
  /-- `FREEZE_WORD`, not further constrained (R164). -/
  freezeWord : Byte := 0x10#8
  /-- `REG_CTRL`, the register that holds the new-frequency flag. -/
  regCtrl : RegAddr := 135#8
  /-- `NEWFREQ_WORD`, the byte that commits. -/
  newFreqWord : Byte := 0x40#8
  /-- R164: "a non-range register address". -/
  freeze_outside : inBlock regBase regFreeze = false := by decide
  /-- R164: "a separate control register". -/
  ctrl_separate : regCtrl ≠ regFreeze := by decide
  /-- R164: `a one-bit "new frequency" flag`. -/
  newFreq_oneBit : oneBitSet newFreqWord = true := by decide
  deriving DecidableEq, Repr, Inhabited

/-- The six OPEN chip numbers of R7 (N1): any values that meet R164. Log 8. -/
opaque Config.osc : OscParams

/-- `T_SETTLE` of R7 in time-units: OPEN within R222 ("default 1 time-unit", "at least 0"); no rule reads it. That it is a
natural number, so never a part of a time-unit, is the model's (DESIGN CHOICE, log 17). -/
opaque Config.tSettle : Nat

/-- `TIME_UNIT` of R7: OPEN, no default (N4); no rule reads it. That it is a natural number, a count of some unit of time
that the spec does not name, is the model's (DESIGN CHOICE, log 17). -/
opaque Config.timeUnit : Nat

/-- `BOOT_AUTOLOAD` of R7 (R214, N12): whether the host pushes the stored block at boot; host behaviour. Log 10. -/
opaque Config.bootAutoload : Bool

/-- FREE VALUE (R52, U3): `P_SDA` of the oracle partner at the draw with this number. Nothing constrains it. Log 5. -/
opaque Config.partnerLevel : Nat → Bool

/-- FREE VALUE (R52, R88): `P_SDA` of the oracle partner between two primitives, by the number of draws and of recorded
events before (R52: it may change at any time). It shows only where a claim reads the line (`symbols`); no command sees it. Nothing constrains it.
Log 16. -/
opaque Config.levelAtDrive : Nat → Nat → Bool

/-- FREE VALUE (R146, U1): a byte a failed read leaves in its destination, at the draw with this number.
Nothing constrains it. Log 6. -/
opaque Config.failedReadByte : Nat → Byte

end Sys2Proof
end

