-- ==== Sys2Proof/Syntax.lean ====
section
/-! DEFINITION. The commands: one constructor per row of spec/opcode_table.json, with the operands of the row's
format (R81). A command is one operation of the document under the mnemonic of R11. -/

namespace Sys2Proof

/-- The 15 commands of R82. `a` is the device address, `r` the register address, `n` the byte count, `d` a data byte,
`k` the acknowledge flag `sendAck`, `b` the byte to send. -/
inductive Instr where
  | sdahi
  | sdalo
  | sclhi
  | scllo
  | sdard
  | start
  | stop
  | txb (b : Byte)
  | rxb (k : Bool)
  | wrregs (a : DevAddr) (r : RegAddr) (n : Byte)
  | rdregs (a : DevAddr) (r : RegAddr) (n : Byte)
  | wrreg (a : DevAddr) (r : RegAddr) (d : Byte)
  | rdreg (a : DevAddr) (r : RegAddr)
  | oscwr
  | oscrd
  deriving DecidableEq, Repr

end Sys2Proof
end

