-- ==== Sys2Proof/WellFormed.lean ====
section
/-! DEFINITION. Which commands are well formed. The operand widths are in the types, so one check is left: a read of
zero bytes matches its row and is refused (R89, R141, R221). -/

namespace Sys2Proof

/-- R141: `RDREGS` "requires n >= 1"; every other command takes every value of its operands (R55, R140). -/
def Instr.wf : Instr → Bool
  | .rdregs _ _ n => n != 0#8
  | .sdahi => true
  | .sdalo => true
  | .sclhi => true
  | .scllo => true
  | .sdard => true
  | .start => true
  | .stop => true
  | .txb _ => true
  | .rxb _ => true
  | .wrregs _ _ _ => true
  | .wrreg _ _ _ => true
  | .rdreg _ _ => true
  | .oscwr => true
  | .oscrd => true

end Sys2Proof
end

