-- ==== Sys2Proof/Decode.lean ====
section
/-! DEFINITION. The command word of R80: decoding, total on all 32-bit words, and the encoder, both written from the
fields of R80, the formats of R81 and the opcode map of R82. -/

namespace Sys2Proof

/-- Why a word is no command (R89): its `op` is in no row, or a must-be-zero bit of its row's format is set. -/
inductive DecodeReject where
  | unassignedOp (op : Byte)
  | mustBeZero (op : Byte)
  deriving DecidableEq, Repr

/-- R80, bits 31:24. -/
def fieldOp (w : Word) : Byte := w.extractLsb' 24 8

/-- R80, bit 23. -/
def fieldK (w : Word) : Bool := w.getLsbD 23

/-- R80, bits 22:16. -/
def fieldA (w : Word) : DevAddr := w.extractLsb' 16 7

/-- R80, bits 15:8. -/
def fieldR (w : Word) : RegAddr := w.extractLsb' 8 8

/-- R80, bits 7:0. -/
def fieldN (w : Word) : Byte := w.extractLsb' 0 8

/-- The command if the must-be-zero bits of its format are zero, else the rejection (R81, R89). -/
def ifZero (mbz : Bool) (w : Word) (i : Instr) : Except DecodeReject Instr :=
  if mbz then .ok i else .error (.mustBeZero (fieldOp w))

/-- Format Z of R81: bits 23:0 zero. -/
def formatZ (w : Word) (i : Instr) : Except DecodeReject Instr :=
  ifZero (fieldK w == false && fieldA w == 0#7 && fieldR w == 0#8 && fieldN w == 0#8) w i

/-- Format X of R81: the byte in `r`; bits 23:16 and 7:0 zero. -/
def formatX (w : Word) (mk : Byte → Instr) : Except DecodeReject Instr :=
  ifZero (fieldK w == false && fieldA w == 0#7 && fieldN w == 0#8) w (mk (fieldR w))

/-- Format K of R81: `k`; bits 22:0 zero. -/
def formatK (w : Word) (mk : Bool → Instr) : Except DecodeReject Instr :=
  ifZero (fieldA w == 0#7 && fieldR w == 0#8 && fieldN w == 0#8) w (mk (fieldK w))

/-- Format T of R81: `a`, `r`, `n`; bit 23 zero. -/
def formatT (w : Word) (mk : DevAddr → RegAddr → Byte → Instr) : Except DecodeReject Instr :=
  ifZero (fieldK w == false) w (mk (fieldA w) (fieldR w) (fieldN w))

/-- Format S of R81: `a`, `r`; bit 23 and bits 7:0 zero. -/
def formatS (w : Word) (mk : DevAddr → RegAddr → Instr) : Except DecodeReject Instr :=
  ifZero (fieldK w == false && fieldN w == 0#8) w (mk (fieldA w) (fieldR w))

/-- The opcode map of R82; any other `op` is illegal (R89). -/
def decode (w : Word) : Except DecodeReject Instr :=
  match fieldOp w with
  | 0x01#8 => formatZ w .sdahi
  | 0x02#8 => formatZ w .sdalo
  | 0x03#8 => formatZ w .sclhi
  | 0x04#8 => formatZ w .scllo
  | 0x05#8 => formatZ w .sdard
  | 0x10#8 => formatZ w .start
  | 0x11#8 => formatZ w .stop
  | 0x12#8 => formatX w .txb
  | 0x13#8 => formatK w .rxb
  | 0x20#8 => formatT w .wrregs
  | 0x21#8 => formatT w .rdregs
  | 0x22#8 => formatT w .wrreg
  | 0x23#8 => formatS w .rdreg
  | 0x30#8 => formatZ w .oscwr
  | 0x31#8 => formatZ w .oscrd
  | op => .error (.unassignedOp op)

/-- The five fields of R80 packed in their places. -/
def packWord (op : Byte) (k : Bool) (a : DevAddr) (r : RegAddr) (n : Byte) : Word :=
  op ++ BitVec.ofBool k ++ a ++ r ++ n

/-- The word of a command (R80 to R82). -/
def encode : Instr → Word
  | .sdahi => packWord 0x01#8 false 0#7 0#8 0#8
  | .sdalo => packWord 0x02#8 false 0#7 0#8 0#8
  | .sclhi => packWord 0x03#8 false 0#7 0#8 0#8
  | .scllo => packWord 0x04#8 false 0#7 0#8 0#8
  | .sdard => packWord 0x05#8 false 0#7 0#8 0#8
  | .start => packWord 0x10#8 false 0#7 0#8 0#8
  | .stop => packWord 0x11#8 false 0#7 0#8 0#8
  | .txb b => packWord 0x12#8 false 0#7 b 0#8
  | .rxb k => packWord 0x13#8 k 0#7 0#8 0#8
  | .wrregs a r n => packWord 0x20#8 false a r n
  | .rdregs a r n => packWord 0x21#8 false a r n
  | .wrreg a r d => packWord 0x22#8 false a r d
  | .rdreg a r => packWord 0x23#8 false a r 0#8
  | .oscwr => packWord 0x30#8 false 0#7 0#8 0#8
  | .oscrd => packWord 0x31#8 false 0#7 0#8 0#8

/-- `match` and `mask` of a command's row of R82: a word `w` is that command iff `w &&& mask = match`. -/
structure TableRow where
  code : Word
  mask : Word
  deriving DecidableEq, Repr

/-- The row of R82 that a command belongs to. -/
def Instr.row : Instr → TableRow
  | .sdahi => ⟨0x01000000#32, 0xFFFFFFFF#32⟩
  | .sdalo => ⟨0x02000000#32, 0xFFFFFFFF#32⟩
  | .sclhi => ⟨0x03000000#32, 0xFFFFFFFF#32⟩
  | .scllo => ⟨0x04000000#32, 0xFFFFFFFF#32⟩
  | .sdard => ⟨0x05000000#32, 0xFFFFFFFF#32⟩
  | .start => ⟨0x10000000#32, 0xFFFFFFFF#32⟩
  | .stop => ⟨0x11000000#32, 0xFFFFFFFF#32⟩
  | .txb _ => ⟨0x12000000#32, 0xFFFF00FF#32⟩
  | .rxb _ => ⟨0x13000000#32, 0xFF7FFFFF#32⟩
  | .wrregs _ _ _ => ⟨0x20000000#32, 0xFF800000#32⟩
  | .rdregs _ _ _ => ⟨0x21000000#32, 0xFF800000#32⟩
  | .wrreg _ _ _ => ⟨0x22000000#32, 0xFF800000#32⟩
  | .rdreg _ _ => ⟨0x23000000#32, 0xFF8000FF#32⟩
  | .oscwr => ⟨0x30000000#32, 0xFFFFFFFF#32⟩
  | .oscrd => ⟨0x31000000#32, 0xFFFFFFFF#32⟩

/-- The rows of R82, in the table's order. -/
def opcodeMap : List TableRow :=
  [Instr.row .sdahi, Instr.row .sdalo, Instr.row .sclhi, Instr.row .scllo, Instr.row .sdard] ++
  [Instr.row .start, Instr.row .stop, Instr.row (.txb 0#8), Instr.row (.rxb false)] ++
  [Instr.row (.wrregs 0#7 0#8 0#8), Instr.row (.rdregs 0#7 0#8 0#8), Instr.row (.wrreg 0#7 0#8 0#8)] ++
  [Instr.row (.rdreg 0#7 0#8), Instr.row .oscwr, Instr.row .oscrd]

/-- The command word whose table bits are `w` (all 32 bits of R80 are table bits; CMD is written whole). -/
def tableWord (nbits w : Nat) : Word := BitVec.ofNat 32 (w % 2 ^ nbits)

/-- What the decoder reads from an instruction whose bits are `w`, numbered as spec/opcode_table.json numbers them. -/
def decodeTableWord (nbits w : Nat) : Option Instr :=
  match decode (tableWord nbits w) with
  | .ok i => some i
  | .error _ => none

end Sys2Proof
end

