-- ==== Sys2Proof/Machine/State.lean ====
section
/-! DEFINITION. The state: the controller of R20 (pins, results, buffer, snapshot, command register, sequencer), the
bus partner and the host as the two other agents (R52, R190), and the trace of R33. Plain data throughout. -/

namespace Sys2Proof.Machine

/-- An event of the trace (R33): `sda true` is A1, `sda false` A0, `scl true` C1, `scl false` C0, `rd v` is r1 or r0. -/
inductive Event where
  | sda (level : Bool)
  | scl (level : Bool)
  | rd (level : Bool)
  deriving DecidableEq, Repr

/-- The position of the sequencer (R30): idle, or inside the expansion of the command in CMD. -/
inductive Phase where
  | idle
  | running
  deriving DecidableEq, Repr

/-- The hidden sequencer state of R30. -/
structure Sequencer where
  phase : Phase
  /-- ACC, the running success flag. -/
  acc : Bool
  /-- SHIFT, the byte being shifted. -/
  shift : Byte
  /-- BITCNT, 0 to 8. -/
  bitCnt : Nat
  /-- IDX, the byte index. -/
  idx : Byte
  deriving DecidableEq, Repr

/-- R30: "When the controller is idle the sequencer state is a single value". DESIGN CHOICE which one: log 3. -/
def Sequencer.idle : Sequencer := { phase := .idle, acc := true, shift := 0#8, bitCnt := 0, idx := 0#8 }

/-- The phases of the reference partner (R63). -/
inductive DevPhase where
  | idle
  | addr
  | wptr
  | wdata
  | rdata
  | wait
  deriving DecidableEq, Repr

/-- The reference partner of R63 and, with a non-empty `nackAt`, the fault-injecting partner of R72. -/
structure Device where
  /-- `PA`, the device's address. -/
  pa : DevAddr
  regs : Vector Byte 256
  ptr : Byte
  phase : DevPhase
  /-- `bit`, 0 to 9. -/
  bit : Nat
  sh : Byte
  rw : Bool
  mack : Bool
  /-- `P_SDA`, the device's own output: false pulls the line low. -/
  pSda : Bool
  /-- The last line levels it saw. -/
  pscl : Bool
  psda : Bool
  /-- The set `K` of R72: byte counts that are not acknowledged; empty for the reference partner. DESIGN CHOICE
  (log 21): a finite list; an infinite `K` (a partner that never acknowledges) is no value of this type. -/
  nackAt : List Nat
  /-- Bytes received so far in ADDR (matching), WPTR and WDATA (R72). -/
  count : Nat
  deriving DecidableEq, Repr

/-- The bus partner, an agent of its own (R34, R52). -/
inductive Partner where
  /-- R52: every sample with the line released is a free bit. The partner of claims about every run. -/
  | oracle
  /-- R71 `NoPartner`: `P_SDA = 1` always. -/
  | absent
  /-- R216: a partner that holds the data line low. -/
  | heldLow
  /-- R63, R72: the deterministic reference device. -/
  | device (d : Device)
  deriving DecidableEq, Repr

/-- What the pin primitives touch: the two output pins (R21, R22), the sequencer that drives them (R30), the partner
that watches them (R52), the trace (R33), and the number of the next free value. -/
structure Engine where
  /-- `SDA_OUT`: true is released. -/
  sdaOut : Bool
  /-- `SCL_OUT`. -/
  sclOut : Bool
  seq : Sequencer
  partner : Partner
  /-- `TRACE` since reset, oldest event first. -/
  trace : List Event
  /-- The MODEL's own field: how many free values have been drawn (log 4). -/
  draws : Nat
  deriving DecidableEq, Repr

/-- The results the host may read (R190), each of at most 8 bits. -/
inductive HostReg where
  | busy
  | ok
  | rdata
  | buf (i : Byte)
  | snapshot (i : Fin 6)
  deriving DecidableEq, Repr

/-- One action of the outside world on an idle controller: the host's of R190, and the reset input of R24. -/
inductive Input where
  | writeBuf (i : Byte) (v : Byte)
  | writeCmd (w : Word)
  | read (x : HostReg)
  | reset
  deriving DecidableEq, Repr

/-- BUF as (index, byte) pairs, indexes strictly rising; an index that is not listed holds no value (log 1). -/
abbrev Memory := List Host.Cell

/-- The whole state. -/
structure State where
  eng : Engine
  /-- `OK` (R25). -/
  ok : Bool
  /-- `RDATA` (R26). -/
  rdata : Byte
  /-- `BUF` (R27). -/
  buf : Memory
  /-- `SNAPSHOT` (R28). -/
  snapshot : Vector Byte 6
  /-- `CMD` (R29). -/
  cmd : Word
  /-- `BUSY` (R29). -/
  busy : Bool
  /-- The host's actions still to come, first one first (R190, log 10). -/
  inputs : List Input
  deriving DecidableEq, Repr

/-- Why a step stops with a fault. -/
inductive Fault where
  /-- Raised by `WRREGS` and `OSCWR` when their payload names a BUF entry nothing has written (R140, R160, C7, U9).
  Safe: the spec itself has the model stop there. -/
  | unwrittenBuf
  deriving DecidableEq, Repr

/-- Why a word is refused. R89: no primitive runs and no state changes but that BUSY returns to 0; `left` is that
state (log 20). -/
inductive Refusal where
  /-- An arm of exec that has no meaning yet; no arm is left so. Safe. -/
  | notModelled (mnemonic : String)
  /-- Raised by the step on a CMD word that matches no row (R89, U8). Safe: the spec refuses it. -/
  | illegalCommand (why : DecodeReject) (left : State)
  /-- Raised by `RDREGS` with `n = 0` (R89, R141, D8). Safe: the spec refuses it. -/
  | zeroCountRead (left : State)
  deriving DecidableEq, Repr

/-- The engine after reset: R35's pins and idle sequencer, the oracle partner, nothing recorded yet. -/
def Engine.reset : Engine :=
  { sdaOut := true, sclOut := true, seq := Sequencer.idle, partner := .oracle, trace := [], draws := 0 }

/-- The machine right after reset, before the boot read (R35, R210). SNAPSHOT is "unspecified until the boot read":
DESIGN CHOICE zeros (log 2). `busy` with an idle sequencer means that the boot read is still to come (log 7). -/
def State.reset : State :=
  { eng := Engine.reset, ok := true, rdata := 0x00#8, buf := [], snapshot := Vector.replicate 6 0x00#8,
    cmd := 0x00000000#32, busy := true, inputs := [] }

end Sys2Proof.Machine
end

