-- ==== Sys2Proof/Machine/Partner.lean ====
section
/-! DEFINITION. The bus partner as an agent (R52) and the line model (R51): what it puts on the data line, and how the
reference device of R63 to R67 and R72 reacts to each drive of the master. -/

namespace Sys2Proof.Machine

/-- R51: the data line is the wired AND of the master's and the partner's output. -/
def wiredAnd (master partner : Bool) : Bool := master && partner

/-- `RefPartner(PA, regs)` as R63 creates it; `FaultPartner(PA, regs, K)` of R72 with `K = nackAt`. R63 gives initial
values for `ptr`, `phase`, `P_SDA`, `pscl` and `psda`, R72 for the count; `bit` 0, `sh` 0x00, `rw` 0 and `mack` 0 are the
model's (DESIGN CHOICE, log 21), each written before a rule reads it. -/
def Device.create (pa : DevAddr) (regs : Vector Byte 256) (nackAt : List Nat) : Device :=
  { pa := pa, regs := regs, ptr := 0#8, phase := .idle, bit := 0, sh := 0#8, rw := false, mack := false,
    pSda := true, pscl := true, psda := true, nackAt := nackAt, count := 0 }

/-- `regs[i]`. -/
def Device.reg (d : Device) (i : Byte) : Byte := d.regs[i.toNat]'(i.isLt)

/-- `regs[i] <- v`. -/
def Device.setReg (d : Device) (i v : Byte) : Device := { d with regs := d.regs.set i.toNat v i.isLt }

/-- A received byte is acknowledged, except where its count is in `K` (R67, R72). -/
def Device.acknowledge (d : Device) : Device :=
  { d with pSda := d.nackAt.contains d.count, count := d.count + 1 }

/-- R67's reading side: the byte at the pointer is loaded and its first bit put on the line. -/
def Device.loadRead (d : Device) : Device :=
  { d with sh := d.reg d.ptr, pSda := (d.reg d.ptr).getLsbD 7 }

/-- R64. -/
def Device.onStart (d : Device) : Device := { d with phase := .addr, bit := 0, sh := 0#8, pSda := true }

/-- R65. -/
def Device.onStop (d : Device) : Device := { d with phase := .idle, pSda := true }

/-- The receiving half of R66: `sh <- {sh[6:0], sda}`. -/
def Device.shiftIn (d : Device) (sda : Bool) : Device :=
  if d.bit < 8 then { d with sh := d.sh.extractLsb' 0 7 ++ BitVec.ofBool sda, bit := d.bit + 1 }
  else if d.bit = 8 then { d with bit := 9 } else d

/-- R66, the clock rising. -/
def Device.onRise (d : Device) (sda : Bool) : Device :=
  match d.phase with
  | .addr => d.shiftIn sda
  | .wptr => d.shiftIn sda
  | .wdata => d.shiftIn sda
  | .rdata =>
    if d.bit < 8 then { d with bit := d.bit + 1 }
    else if d.bit = 8 then { d with mack := !sda, bit := 9 } else d
  | .idle => d
  | .wait => d

/-- R67, the clock falling. -/
def Device.onFall (d : Device) : Device :=
  match d.phase with
  | .addr =>
    if d.bit = 8 then
      if d.sh.extractLsb' 1 7 = d.pa then { d with rw := d.sh.getLsbD 0 }.acknowledge
      else { d with phase := .wait, pSda := true }
    else if d.bit = 9 then
      if d.rw = false then { d with pSda := true, bit := 0, phase := .wptr }
      else { d with bit := 0, phase := .rdata }.loadRead
    else d
  | .wptr =>
    if d.bit = 8 then { d with ptr := d.sh }.acknowledge
    else if d.bit = 9 then { d with pSda := true, bit := 0, phase := .wdata }
    else d
  | .wdata =>
    if d.bit = 8 then { d.setReg d.ptr d.sh with ptr := d.ptr + 1#8 }.acknowledge
    else if d.bit = 9 then { d with pSda := true, bit := 0 }
    else d
  | .rdata =>
    if 1 ≤ d.bit ∧ d.bit ≤ 7 then { d with pSda := d.sh.getLsbD (7 - d.bit) }
    else if d.bit = 8 then { d with pSda := true }
    else if d.bit = 9 then
      if d.mack then { d with ptr := d.ptr + 1#8, bit := 0 }.loadRead
      else { d with ptr := d.ptr + 1#8, phase := .wait, pSda := true }
    else d
  | .idle => d
  | .wait => d

/-- Which of R64 to R67 applies, in that order; any other drive event changes nothing. -/
def Device.edge (d : Device) (scl sda : Bool) : Device :=
  if d.pscl && scl && d.psda && !sda then d.onStart
  else if d.pscl && scl && !d.psda && sda then d.onStop
  else if !d.pscl && scl then d.onRise sda
  else if d.pscl && !scl then d.onFall
  else d

/-- R63: the reaction to one drive of the master, after which the line levels seen are remembered, the data line with
the device's new output. -/
def Device.react (d : Device) (sdaOut sclOut : Bool) : Device :=
  let d1 := d.edge sclOut (wiredAnd sdaOut d.pSda)
  { d1 with pscl := sclOut, psda := wiredAnd sdaOut d1.pSda }

/-- The partner after one drive of the master (R52). -/
def Partner.react (p : Partner) (sdaOut sclOut : Bool) : Partner :=
  match p with
  | .oracle => .oracle
  | .absent => .absent
  | .heldLow => .heldLow
  | .device d => .device (d.react sdaOut sclOut)

/-- `P_SDA` at the sample that is draw number `n` (R52, R63, R71, R216). -/
def Partner.level (p : Partner) (n : Nat) : Bool :=
  match p with
  | .oracle => Config.partnerLevel n
  | .absent => true
  | .heldLow => false
  | .device d => d.pSda

end Sys2Proof.Machine
end

