-- ==== Sys2Proof/Machine/Ops.lean ====
section
/-! DEFINITION. The named operations: the buffer's reads and writes (R27), the pin primitives `Drive`, `Settle` and
`Sample` (R10, R110 to R115), the sequencer's registers (R30), the launch and the completion of a command (R29), and
the host's port (R190). -/

namespace Sys2Proof.Machine

/-! ### BUF -/

/-- What an entry of BUF that nothing has written reads as: no value (R140, U9; log 1). -/
def unlistedByte : Option Byte := none

/-- `BUF[i]`. -/
def Memory.read (m : Memory) (i : Nat) : Option Byte :=
  match m with
  | [] => unlistedByte
  | (j, v) :: rest => if i = j then some v else Memory.read rest i

/-- `BUF[i] <- v`, keeping the indexes strictly rising. -/
def Memory.write (m : Memory) (i : Nat) (v : Byte) : Memory :=
  match m with
  | [] => [(i, v)]
  | (j, w) :: rest =>
    if i < j then (i, v) :: (j, w) :: rest
    else if i = j then (i, v) :: rest
    else (j, w) :: Memory.write rest i v

/-- `BUF[i], BUF[i+1], ... <- bs`. -/
def Memory.fill (m : Memory) (i : Nat) (bs : List Byte) : Memory :=
  match bs with
  | [] => m
  | b :: rest => Memory.fill (m.write i b) (i + 1) rest

/-- `BUF[i], ..., BUF[i+n-1]`, or no value if one of them has none. -/
def Memory.slice (m : Memory) (i n : Nat) : Option (List Byte) :=
  match n with
  | 0 => some []
  | k + 1 =>
    match m.read i, m.slice (i + 1) k with
    | some b, some bs => some (b :: bs)
    | _, _ => none

/-- The indexes rise strictly from at least `lo` and stay below 256 (R27). -/
def Memory.wfFrom (lo : Nat) (m : Memory) : Bool :=
  match m with
  | [] => true
  | (j, _) :: rest => decide (lo ≤ j) && decide (j < 256) && Memory.wfFrom (j + 1) rest

/-- The canonical form of BUF. No entry equals what an unlisted one reads as, since that is no value. -/
def Memory.wf (m : Memory) : Bool := Memory.wfFrom 0 m

/-! ### Pins -/

/-- `Settle()` (R115): blocks for at least `T_SETTLE` and "changes no state"; "a model takes it as a no-op". -/
def Engine.settle (e : Engine) : Engine := e

/-- `Drive(SDA, v)` (R10): set the output, record the event, let the partner react (R52). -/
def Engine.driveSda (e : Engine) (v : Bool) : Engine :=
  { e with sdaOut := v, trace := e.trace ++ [.sda v], partner := e.partner.react v e.sclOut }

/-- `Drive(SCL, v)` (R10). -/
def Engine.driveScl (e : Engine) (v : Bool) : Engine :=
  { e with sclOut := v, trace := e.trace ++ [.scl v], partner := e.partner.react e.sdaOut v }

/-- R110. -/
def Engine.sdahi (e : Engine) : Engine := (e.driveSda true).settle

/-- R111. -/
def Engine.sdalo (e : Engine) : Engine := (e.driveSda false).settle

/-- R112. -/
def Engine.sclhi (e : Engine) : Engine := (e.driveScl true).settle

/-- R113. -/
def Engine.scllo (e : Engine) : Engine := (e.driveScl false).settle

/-- R122: `if b[i] = 1 then SDAHI() else SDALO()`. -/
def Engine.sdaBit (e : Engine) (v : Bool) : Engine := if v then e.sdahi else e.sdalo

/-- `SDA_IN` (R23): the level of the data line now (R51). -/
def Engine.sdaLine (e : Engine) : Bool := wiredAnd e.sdaOut (e.partner.level e.draws)

/-- `SCL_LINE = SCL_OUT`, assumed by every rule (R51, D7; log 11). -/
def Engine.sclLine (e : Engine) : Bool := e.sclOut

/-- `SDARD() -> bit` (R114): the line level, the event recorded, no settling delay, no pin changed. -/
def Engine.sdard (e : Engine) : Bool × Engine :=
  (e.sdaLine, { e with trace := e.trace ++ [.rd e.sdaLine], draws := e.draws + 1 })

/-! ### The sequencer's registers (R30) -/

/-- `d[i] <- v` on a byte (R123, R148). -/
def setBit (d : Byte) (i : Nat) (v : Bool) : Byte :=
  if v then d ||| (1#8 <<< i) else d &&& ~~~(1#8 <<< i)

/-- SHIFT takes a byte and BITCNT its eight bits. -/
def Engine.loadShift (e : Engine) (b : Byte) : Engine :=
  { e with seq := { e.seq with shift := b, bitCnt := 8 } }

/-- BITCNT takes a value. -/
def Engine.setBitCnt (e : Engine) (n : Nat) : Engine := { e with seq := { e.seq with bitCnt := n } }

/-- Bit `i` of SHIFT takes a sampled level. -/
def Engine.setShiftBit (e : Engine) (i : Nat) (v : Bool) : Engine :=
  { e with seq := { e.seq with shift := setBit e.seq.shift i v } }

/-- `ACC <- 1`, IDX at the first byte: the start of a transaction (R140, R141). -/
def Engine.openTransaction (e : Engine) : Engine := { e with seq := { e.seq with acc := true, idx := 0#8 } }

/-- IDX moves to the next byte. -/
def Engine.nextIdx (e : Engine) : Engine := { e with seq := { e.seq with idx := e.seq.idx + 1#8 } }

/-! ### Commands and the host's port -/

/-- R29: a write to CMD launches the command. -/
def State.launch (s : State) (w : Word) : State :=
  { s with cmd := w, busy := true, eng := { s.eng with seq := { Sequencer.idle with phase := .running } } }

/-- R29: the results are written, then `BUSY <- 0`; the sequencer is idle again (R30). -/
def State.complete (s : State) : State :=
  { s with busy := false, eng := { s.eng with seq := Sequencer.idle } }

/-- The command word that is executed: the controller fetches nothing, it holds CMD (R29, R31). -/
def State.command (s : State) : Word := s.cmd

/-- After a reset the boot read comes first: BUSY is 1 and the sequencer idle (R35, R210; log 7). -/
def State.bootPending (s : State) : Bool := s.busy && (s.eng.seq.phase == .idle)

/-- The reset input (R24, R210): the controller as `State.reset` has it; the partner is not reset, the numbering of
the free values goes on, and the host's later actions stay (log 14). -/
def State.resetInput (s : State) : State :=
  { State.reset with
    eng := { Engine.reset with partner := s.eng.partner, draws := s.eng.draws }
    inputs := s.inputs }

/-- What a host read of a result answers (R190): BUSY at any time, the rest only while `BUSY = 0` (R191);
an entry of BUF that nothing has written answers no value. -/
def State.hostRead (s : State) (x : HostReg) : Option Byte :=
  match x with
  | .busy => some (BitVec.setWidth 8 (BitVec.ofBool s.busy))
  | .ok => if s.busy then none else some (BitVec.setWidth 8 (BitVec.ofBool s.ok))
  | .rdata => if s.busy then none else some s.rdata
  | .buf i => if s.busy then none else s.buf.read i.toNat
  | .snapshot i => if s.busy then none else some (s.snapshot[i.val]'(i.isLt))

/-- One action of the outside world on an idle controller (R190, R210). A read changes nothing. -/
def State.applyInput (s : State) (x : Input) : State :=
  match x with
  | .writeBuf i v => { s with buf := s.buf.write i.toNat v }
  | .writeCmd w => s.launch w
  | .read _ => s
  | .reset => s.resetInput

/-- The host's turn while `BUSY = 0`: its next action, or waiting if it has none (R190, R191). -/
def State.hostTurn (s : State) : State :=
  match s.inputs with
  | [] => s
  | x :: rest => { s with inputs := rest }.applyInput x

end Sys2Proof.Machine
end

