-- ==== Sys2Proof/Machine/Flags.lean ====
section
/-! DEFINITION. The one flag, OK, and its accumulator ACC (R25, R30, R144): how a sample becomes an acknowledgment, how
acknowledgments are folded, and how SDARD's level becomes RDATA (R26). -/

namespace Sys2Proof.Machine

/-- R85, R122: `ack <- (v = 0)`; level 0 in the ninth pulse is a positive acknowledgment. -/
def ackOf (v : Bool) : Bool := !v

/-- R144: `ACC <- ACC & ack`. -/
def Engine.foldAck (e : Engine) (ack : Bool) : Engine := { e with seq := { e.seq with acc := e.seq.acc && ack } }

/-- `OK <- v` (R25). -/
def State.setOk (s : State) (v : Bool) : State := { s with ok := v }

/-- `zext_8(level)` (R26, R114). -/
def zextLevel (v : Bool) : Byte := if v then 0x01#8 else 0x00#8

end Sys2Proof.Machine
end

