-- ==== Sys2Proof/Machine/Operands.lean ====
section
/-! DEFINITION. The operand forms: the address byte (R83) and the payload that travels in BUF (R81, R140, R160). -/

namespace Sys2Proof.Machine

/-- `DIR_WRITE = 0` (R7, R83; from general knowledge, G1; log 12). -/
def dirWrite : Bool := false

/-- `DIR_READ = 1` (R7, R83; log 12). -/
def dirRead : Bool := true

/-- `AddrByte(a, dir) = {a[6:0], dir}` (R83, R148). -/
def addrByte (a : DevAddr) (dir : Bool) : Byte := a ++ BitVec.ofBool dir

/-- The payload `BUF[0..n-1]` as it stands at launch (R61, R140); none where an entry holds no value. -/
def State.payload (s : State) (n : Nat) : Option (List Byte) := s.buf.slice 0 n

/-- `BLOCK_LEN` of R7: bytes in a RegisterBlock. -/
def blockLen : Nat := 6

/-- `BUF[i] <- t[i]` if the read succeeded, else each destination byte is a draw (R141, R146; log 6).
`first` is the number of the first draw. -/
def deliver (ok : Bool) (first : Nat) (received : List Byte) : List Byte :=
  received.mapIdx fun i t => if ok then t else Config.failedReadByte (first + i)

end Sys2Proof.Machine
end

