-- ==== Sys2Proof/Machine/SignalDriver.lean ====
section
/-! DEFINITION. Layer 0, the Bus Signal Driver (R110 to R116): the five pin primitives as host commands. None of them
checks anything; any order runs as written (R116). -/

namespace Sys2Proof.Machine

/-- SDAHI (R110). -/
def execSdahi (s : State) : Host.Outcome State Fault Refusal :=
  .next { s with eng := s.eng.sdahi }.complete

/-- SDALO (R111). -/
def execSdalo (s : State) : Host.Outcome State Fault Refusal :=
  .next { s with eng := s.eng.sdalo }.complete

/-- SCLHI (R112). -/
def execSclhi (s : State) : Host.Outcome State Fault Refusal :=
  .next { s with eng := s.eng.sclhi }.complete

/-- SCLLO (R113). -/
def execScllo (s : State) : Host.Outcome State Fault Refusal :=
  .next { s with eng := s.eng.scllo }.complete

/-- SDARD (R114): `RDATA <- zext_8(v)`, OK unchanged. -/
def execSdard (s : State) : Host.Outcome State Fault Refusal :=
  .next { s with eng := s.eng.sdard.2, rdata := zextLevel s.eng.sdard.1 }.complete

end Sys2Proof.Machine
end

