-- ==== Sys2Proof/Machine/ByteEngine.lean ====
section
/-! DEFINITION. Layer 1, start, stop and byte transfer (R120 to R125): the procedures on the engine and the four
commands. -/

namespace Sys2Proof.Machine

/-- `START()` (R120). -/
def Engine.start (e : Engine) : Engine := e.sdahi.sclhi.sdalo.scllo

/-- `STOP()` (R121). -/
def Engine.stop (e : Engine) : Engine := e.sdalo.sclhi.sdahi

/-- One turn of R122's loop: bit `BITCNT - 1` of SHIFT in one clock pulse. -/
def Engine.txBit (e : Engine) : Engine :=
  (e.sdaBit (e.seq.shift.getLsbD (e.seq.bitCnt - 1))).sclhi.scllo.setBitCnt (e.seq.bitCnt - 1)

/-- `n` turns of R122's loop. -/
def Engine.txBits (n : Nat) (e : Engine) : Engine :=
  match n with
  | 0 => e
  | k + 1 => Engine.txBits k e.txBit

/-- The eight data pulses of R122, most significant bit first, then the data line released and the clock high. -/
def Engine.txToAck (e : Engine) (b : Byte) : Engine := (Engine.txBits 8 (e.loadShift b)).sdahi.sclhi

/-- `TXB(b) -> ack` (R122). -/
def Engine.txb (e : Engine) (b : Byte) : Bool × Engine :=
  (ackOf (e.txToAck b).sdard.1, (e.txToAck b).sdard.2.scllo)

/-- One turn of R123's loop: the sample in one clock pulse goes to bit `BITCNT - 1` of SHIFT. -/
def Engine.rxBit (e : Engine) : Engine :=
  ((e.sclhi.sdard.2.setShiftBit (e.seq.bitCnt - 1) e.sclhi.sdard.1).scllo).setBitCnt (e.seq.bitCnt - 1)

/-- `n` turns of R123's loop. -/
def Engine.rxBits (n : Nat) (e : Engine) : Engine :=
  match n with
  | 0 => e
  | k + 1 => Engine.rxBits k e.rxBit

/-- The release and the eight data pulses of R123. -/
def Engine.rxToAck (e : Engine) : Engine := Engine.rxBits 8 (e.sdahi.loadShift 0x00#8)

/-- `RXB(k) -> d` (R123): with `k = 0` no data primitive follows the eighth bit. -/
def Engine.rxb (e : Engine) (k : Bool) : Byte × Engine :=
  (e.rxToAck.seq.shift, (if k then e.rxToAck.sdalo else e.rxToAck).sclhi.scllo)

/-- START (R120). -/
def execStart (s : State) : Host.Outcome State Fault Refusal :=
  .next { s with eng := s.eng.start }.complete

/-- STOP (R121). -/
def execStop (s : State) : Host.Outcome State Fault Refusal :=
  .next { s with eng := s.eng.stop }.complete

/-- TXB (R122): `OK <- ack`. -/
def execTxb (b : Byte) (s : State) : Host.Outcome State Fault Refusal :=
  .next ({ s with eng := (s.eng.txb b).2 }.setOk (s.eng.txb b).1).complete

/-- RXB (R123): `RDATA <- d`, OK unchanged. -/
def execRxb (k : Bool) (s : State) : Host.Outcome State Fault Refusal :=
  .next { s with eng := (s.eng.rxb k).2, rdata := (s.eng.rxb k).1 }.complete

end Sys2Proof.Machine
end

