-- ==== Sys2Proof/Machine/Registers.lean ====
section
/-! DEFINITION. Layer 2, register read and write (R140 to R148). No sample changes the sequence of primitives (R145). -/

namespace Sys2Proof.Machine

/-- `ACC <- ACC & TXB(b)`. -/
def Engine.txbAcc (e : Engine) (b : Byte) : Engine := (e.txb b).2.foldAck (e.txb b).1

/-- R140's payload loop. -/
def Engine.sendBytes (e : Engine) (bs : List Byte) : Engine :=
  match bs with
  | [] => e
  | b :: rest => Engine.sendBytes (e.txbAcc b).nextIdx rest

/-- The bus side of `WRREGS(a, r, n)` with the payload given (R140, R86). -/
def Engine.writeTransaction (e : Engine) (a : DevAddr) (r : RegAddr) (bs : List Byte) : Engine :=
  (((e.openTransaction.start.txbAcc (addrByte a dirWrite)).txbAcc r).sendBytes bs).stop

/-- R141's receive loop with `left` bytes still to come out of `n`: all but byte `n - 1` are acknowledged. -/
def Engine.recvBytes (n left : Nat) (e : Engine) : List Byte × Engine :=
  match left with
  | 0 => ([], e)
  | k + 1 =>
    let got := e.rxb (!(decide (e.seq.idx.toNat = n - 1)))
    let rest := Engine.recvBytes n k got.2.nextIdx
    (got.1 :: rest.1, rest.2)

/-- R141 up to the third transmitted byte: write the register address, repeated start, address for reading. -/
def Engine.readHeader (e : Engine) (a : DevAddr) (r : RegAddr) : Engine :=
  ((e.openTransaction.start.txbAcc (addrByte a dirWrite)).txbAcc r).start.txbAcc (addrByte a dirRead)

/-- The bus side of `RDREGS(a, r, n)` (R141, R87): the received bytes and the engine. -/
def Engine.readTransaction (e : Engine) (a : DevAddr) (r : RegAddr) (n : Nat) : List Byte × Engine :=
  let got := Engine.recvBytes n n (e.readHeader a r)
  (got.1, got.2.stop)

/-- The procedure `WRREGS(a, r, n) -> ok` with the payload given: `OK <- ACC` (R140). -/
def State.wrregs (s : State) (a : DevAddr) (r : RegAddr) (bs : List Byte) : State :=
  { s with eng := s.eng.writeTransaction a r bs }.setOk (s.eng.writeTransaction a r bs).seq.acc

/-- The procedure `WRREG(a, r, d) -> ok`: one payload byte, from the command word (R142). -/
def State.wrreg (s : State) (a : DevAddr) (r : RegAddr) (d : Byte) : State := s.wrregs a r [d]

/-- The procedure `RDREGS(a, r, n) -> (BUF[0..n-1], ok)` (R141, R146). The numbering of the free values moves on by
the `n` it may have drawn. -/
def State.rdregs (s : State) (a : DevAddr) (r : RegAddr) (n : Nat) : State :=
  let got := s.eng.readTransaction a r n
  { s with
    eng := { got.2 with draws := got.2.draws + n }
    buf := s.buf.fill 0 (deliver got.2.seq.acc got.2.draws got.1) }.setOk got.2.seq.acc

/-- WRREGS (R140): the payload is read from BUF; an entry nothing has written faults. -/
def execWrregs (a : DevAddr) (r : RegAddr) (n : Byte) (s : State) : Host.Outcome State Fault Refusal :=
  match s.payload n.toNat with
  | some bs => .next (s.wrregs a r bs).complete
  | none => .fault .unwrittenBuf

/-- RDREGS (R141): `n = 0` is refused, with BUSY back at 0 and the rest as it was (R89). -/
def execRdregs (a : DevAddr) (r : RegAddr) (n : Byte) (s : State) : Host.Outcome State Fault Refusal :=
  if n = 0#8 then .refused (.zeroCountRead s.complete) else .next (s.rdregs a r n.toNat).complete

/-- WRREG (R142): BUF is neither read nor written. -/
def execWrreg (a : DevAddr) (r : RegAddr) (d : Byte) (s : State) : Host.Outcome State Fault Refusal :=
  .next (s.wrreg a r d).complete

/-- RDREG (R143): `RDREGS(a, r, 1)`. -/
def execRdreg (a : DevAddr) (r : RegAddr) (s : State) : Host.Outcome State Fault Refusal :=
  .next (s.rdregs a r 1).complete

end Sys2Proof.Machine
end

