-- ==== Sys2Proof/Machine/Oscillator.lean ====
section
/-! DEFINITION. Layer 3, the Oscillator Register Protocol (R160 to R165), and the boot read of the reset sequence
(R212). -/

namespace Sys2Proof.Machine

/-- `UNFREEZE_WORD` (R7, R160): "write zero to the same freeze register". -/
def unfreezeWord : Byte := 0x00#8

/-- Step 1 of R160: freeze the DCO. -/
def State.oscFreeze (s : State) : State := s.wrreg Config.osc.addr Config.osc.regFreeze Config.osc.freezeWord

/-- Step 2 of R160: bulk-write the block. -/
def State.oscBulk (s : State) (bs : List Byte) : State := s.wrregs Config.osc.addr Config.osc.regBase bs

/-- Step 3 of R160: unfreeze. -/
def State.oscUnfreeze (s : State) : State := s.wrreg Config.osc.addr Config.osc.regFreeze unfreezeWord

/-- Step 4 of R160: commit. -/
def State.oscCommit (s : State) : State := s.wrreg Config.osc.addr Config.osc.regCtrl Config.osc.newFreqWord

/-- `OSCWR() -> ok` with the block given: the four steps always run (R162) and `OK <- s1 & s2 & s3 & s4`. -/
def State.oscwr (s : State) (bs : List Byte) : State :=
  let t1 := s.oscFreeze
  let t2 := t1.oscBulk bs
  let t3 := t2.oscUnfreeze
  let t4 := t3.oscCommit
  t4.setOk (t1.ok && t2.ok && t3.ok && t4.ok)

/-- `OSCRD() -> (BUF[0..5], ok)` (R161). -/
def State.oscrd (s : State) : State := s.rdregs Config.osc.addr Config.osc.regBase blockLen

/-- `SNAPSHOT[i] <- BUF[i]` for `i` in `0..5` (R212). The read before it has written all six entries. -/
def State.takeSnapshot (s : State) : State :=
  { s with snapshot := Vector.ofFn fun i : Fin 6 => (s.buf.read i.val).getD (s.snapshot[i.val]'(i.isLt)) }

/-- The boot read (R212): `OSCRD`, then the snapshot, then `BUSY <- 0` (R210). -/
def State.bootRead (s : State) : State := s.oscrd.takeSnapshot.complete

/-- OSCWR (R160): the block is `BUF[0..5]`; an entry nothing has written faults. -/
def execOscwr (s : State) : Host.Outcome State Fault Refusal :=
  match s.payload blockLen with
  | some bs => .next (s.oscwr bs).complete
  | none => .fault .unwrittenBuf

/-- OSCRD (R161): SNAPSHOT is not written. -/
def execOscrd (s : State) : Host.Outcome State Fault Refusal :=
  .next s.oscrd.complete

/-- The state in which a host command can be launched: after the boot read (R210, R212). -/
def State.afterBoot (s : State) : State := if s.bootPending then s.bootRead else s

end Sys2Proof.Machine
end

