-- ==== Sys2Proof/Machine/Dispatch.lean ====
section
/-! DEFINITION. The one dispatch: each command to its meaning. -/

namespace Sys2Proof.Machine

def exec (i : Instr) (s : State) : Host.Outcome State Fault Refusal :=
  match i with
  | .sdahi => Sys2Proof.Machine.execSdahi s
  | .sdalo => Sys2Proof.Machine.execSdalo s
  | .sclhi => Sys2Proof.Machine.execSclhi s
  | .scllo => Sys2Proof.Machine.execScllo s
  | .sdard => Sys2Proof.Machine.execSdard s
  | .start => Sys2Proof.Machine.execStart s
  | .stop => Sys2Proof.Machine.execStop s
  | .txb b => Sys2Proof.Machine.execTxb b s
  | .rxb k => Sys2Proof.Machine.execRxb k s
  | .wrregs a r n => Sys2Proof.Machine.execWrregs a r n s
  | .rdregs a r n => Sys2Proof.Machine.execRdregs a r n s
  | .wrreg a r d => Sys2Proof.Machine.execWrreg a r d s
  | .rdreg a r => Sys2Proof.Machine.execRdreg a r s
  | .oscwr => Sys2Proof.Machine.execOscwr s
  | .oscrd => Sys2Proof.Machine.execOscrd s

end Sys2Proof.Machine
end

