-- ==== Sys2Proof/Machine/Run.lean ====
section
/-! DEFINITION. Running the launched command: CMD is decoded and executed (R29, R89). -/

namespace Sys2Proof.Machine

/-- The launched command (R29): its meaning, or the refusal of an illegal word, which leaves BUSY at 0 and the rest
as it was (R89). -/
def runCommand (s : State) : Host.Outcome State Fault Refusal :=
  match decode s.command with
  | .ok i => exec i s
  | .error why => .refused (.illegalCommand why s.complete)

end Sys2Proof.Machine
end

