-- ==== Sys2Proof/Machine/Step.lean ====
section
/-! DEFINITION. One step of the whole system: the boot read while it is pending (R210, R212), the launched command
while BUSY is 1 (R29), and the host's turn while BUSY is 0 (R190, R191). -/

namespace Sys2Proof.Machine

/-- One step. -/
def step (s : State) : Host.Outcome State Fault Refusal :=
  if s.bootPending then .next s.bootRead
  else if s.busy then runCommand s
  else .next s.hostTurn

/-- `s` with the instruction whose table bits are `w` as the very next thing `step` runs: the boot read done if it is
still pending, and the word written to CMD, which launches it (R29, R210; log 9). -/
def State.withFetchWord (s : State) (nbits w : Nat) : State := s.afterBoot.launch (tableWord nbits w)

end Sys2Proof.Machine
end

