-- ==== Sys2Proof/Machine/Trace.lean ====
section
/-! DEFINITION. Reading a trace (R33): the waveform, what the master puts on the bus in the symbols of R88 (the line
itself is read in Line.lean), the samples, and the primitive invocations a command is expanded into. -/

namespace Sys2Proof.Machine

/-- Data and clock output levels, `(SDA_OUT, SCL_OUT)`. -/
abbrev Pins := Bool × Bool

/-- The pin levels after a trace that starts at the given levels: only drives change them (R21, R22). -/
def pinsAfter (p : Pins) (tr : List Event) : Pins :=
  match tr with
  | [] => p
  | .sda v :: rest => pinsAfter (v, p.2) rest
  | .scl v :: rest => pinsAfter (p.1, v) rest
  | .rd _ :: rest => pinsAfter p rest

/-- The waveform of R33: the drives that change the level of their pin, from the given levels on. Samples change no
level and are left out, as the waveforms of 95_test_vectors.md have it (log 15). -/
def wave (p : Pins) (tr : List Event) : List Event :=
  match tr with
  | [] => []
  | .sda v :: rest => if v = p.1 then wave p rest else .sda v :: wave (v, p.2) rest
  | .scl v :: rest => if v = p.2 then wave p rest else .scl v :: wave (p.1, v) rest
  | .rd _ :: rest => wave p rest

/-- The framing symbols of R88: a start condition `S` (repeated or not), a stop condition `P`, one bit of one clock
pulse. -/
inductive Symbol where
  | start
  | stop
  | bit (level : Bool)
  deriving DecidableEq, Repr

/-- A clock pulse that is open: the level read in it so far, and whether a sample was taken in it. -/
structure Pulse where
  level : Bool
  sampled : Bool
  deriving DecidableEq, Repr

/-- The first sample taken in a pulse is the pulse's level; a later one changes nothing. -/
def Pulse.hear (q : Pulse) (v : Bool) : Pulse := if q.sampled then q else { level := v, sampled := true }

/-- What the master puts on the bus and hears there, in the symbols of R88, with `pulse` the clock pulse that is open,
if one is: the bit of a pulse is its first sample, else the master's own level, and each change of its data output with the
clock high is `S` or `P`. The line itself, which a partner may pull low, is read by `symbols` (log 16). -/
def masterSymbolsFrom (p : Pins) (pulse : Option Pulse) (tr : List Event) : List Symbol :=
  match tr with
  | [] => []
  | .sda v :: rest =>
    if v = p.1 then masterSymbolsFrom p pulse rest
    else if p.2 then (if v then Symbol.stop else Symbol.start) :: masterSymbolsFrom (v, p.2) none rest
    else masterSymbolsFrom (v, p.2) pulse rest
  | .scl v :: rest =>
    if v = p.2 then masterSymbolsFrom p pulse rest
    else if v then masterSymbolsFrom (p.1, v) (some { level := p.1, sampled := false }) rest
    else
      match pulse with
      | some q => .bit q.level :: masterSymbolsFrom (p.1, v) none rest
      | none => masterSymbolsFrom (p.1, v) none rest
  | .rd v :: rest => masterSymbolsFrom p (pulse.map fun q => q.hear v) rest

/-- What the master puts on the bus and hears there in a trace that starts at the given pin levels, no pulse open. -/
def masterSymbols (p : Pins) (tr : List Event) : List Symbol := masterSymbolsFrom p none tr

/-- The samples of a trace, in order. -/
def samples (tr : List Event) : List Bool :=
  tr.filterMap fun e => match e with
    | .rd v => some v
    | .sda _ => none
    | .scl _ => none

/-- A primitive invocation without what it returned: the unit of R6. -/
inductive Prim where
  | sda (level : Bool)
  | scl (level : Bool)
  | sample
  deriving DecidableEq, Repr

/-- The primitive that made an event. -/
def Event.prim (e : Event) : Prim :=
  match e with
  | .sda v => .sda v
  | .scl v => .scl v
  | .rd _ => .sample

/-- Whether a primitive is a drive: each is followed by one settling delay, a sample by none (R115, R222). -/
def Prim.isDrive (p : Prim) : Bool :=
  match p with
  | .sda _ => true
  | .scl _ => true
  | .sample => false

/-- Drives, which is settling delays (R223). -/
def drives (ps : List Prim) : Nat := ps.countP Prim.isDrive

/-- Samples (R223). -/
def sampleCount (ps : List Prim) : Nat := ps.countP fun p => !p.isDrive

/-- The minimum duration of R222 and R223: one `T_SETTLE` a drive, in `TIME_UNIT`s. -/
def minDuration (ps : List Prim) : Nat := drives ps * Config.tSettle * Config.timeUnit

/-- The eight bits of a byte, most significant first (R53). -/
def bitsOf (b : Byte) : List Bool := [7, 6, 5, 4, 3, 2, 1, 0].map fun i => b.getLsbD i

/-- The byte whose bits arrive in this order, the first in the most significant place (R53). -/
def byteOf (vs : List Bool) : Byte := vs.foldl (fun b v => b.extractLsb' 0 7 ++ BitVec.ofBool v) 0#8

end Sys2Proof.Machine
end

