-- ==== Sys2Proof/Machine/Expansion.lean ====
section
/-! DEFINITION. What a command puts on the bus, said a second time as lists: its expansion into primitives (R30, R145),
its bus frame in symbols (R86, R87, R91), and the host's command sequences (R94). exec does not use this file; claims
compare exec with it. -/

namespace Sys2Proof.Machine

/-- R120. -/
def primsStart : List Prim := [.sda true, .scl true, .sda false, .scl false]

/-- R121. -/
def primsStop : List Prim := [.sda false, .scl true, .sda true]

/-- R122. -/
def primsTxb (b : Byte) : List Prim :=
  ((bitsOf b).flatMap fun v => [.sda v, .scl true, .scl false]) ++ [.sda true, .scl true, .sample, .scl false]

/-- R123. -/
def primsRxb (k : Bool) : List Prim :=
  [.sda true] ++ (List.replicate 8 [Prim.scl true, .sample, .scl false]).flatten ++
  (if k then [.sda false] else []) ++ [.scl true, .scl false]

/-- R140, R86. -/
def primsWrite (a : DevAddr) (r : RegAddr) (bs : List Byte) : List Prim :=
  primsStart ++ (addrByte a dirWrite :: r :: bs).flatMap primsTxb ++ primsStop

/-- R141, R87: `n - 1` acknowledged bytes and a last one that is not. -/
def primsRead (a : DevAddr) (r : RegAddr) (n : Nat) : List Prim :=
  primsStart ++ primsTxb (addrByte a dirWrite) ++ primsTxb r ++ primsStart ++ primsTxb (addrByte a dirRead) ++
  (List.replicate (n - 1) (primsRxb true)).flatten ++ primsRxb false ++ primsStop

/-- R160, R91: the four transactions. -/
def primsOscwr (bs : List Byte) : List Prim :=
  primsWrite Config.osc.addr Config.osc.regFreeze [Config.osc.freezeWord] ++
  primsWrite Config.osc.addr Config.osc.regBase bs ++
  primsWrite Config.osc.addr Config.osc.regFreeze [unfreezeWord] ++
  primsWrite Config.osc.addr Config.osc.regCtrl [Config.osc.newFreqWord]

/-- How many bytes of BUF a command reads: its payload (R27). -/
def payloadLen (i : Instr) : Nat :=
  match i with
  | .wrregs _ _ n => n.toNat
  | .oscwr => blockLen
  | .sdahi => 0
  | .sdalo => 0
  | .sclhi => 0
  | .scllo => 0
  | .sdard => 0
  | .start => 0
  | .stop => 0
  | .txb _ => 0
  | .rxb _ => 0
  | .rdregs _ _ _ => 0
  | .wrreg _ _ _ => 0
  | .rdreg _ _ => 0
  | .oscrd => 0

/-- The fixed expansion of a command, its payload given (R30, R145). -/
def expansion (i : Instr) (payload : List Byte) : List Prim :=
  match i with
  | .sdahi => [.sda true]
  | .sdalo => [.sda false]
  | .sclhi => [.scl true]
  | .scllo => [.scl false]
  | .sdard => [.sample]
  | .start => primsStart
  | .stop => primsStop
  | .txb b => primsTxb b
  | .rxb k => primsRxb k
  | .wrregs a r _ => primsWrite a r payload
  | .rdregs a r n => primsRead a r n.toNat
  | .wrreg a r d => primsWrite a r [d]
  | .rdreg a r => primsRead a r 1
  | .oscwr => primsOscwr payload
  | .oscrd => primsRead Config.osc.addr Config.osc.regBase blockLen

/-- A byte on the wire (R84): eight bits, most significant first, then the level of the ninth pulse. -/
def frameByte (b : Byte) (ninth : Bool) : List Symbol := (bitsOf b).map Symbol.bit ++ [.bit ninth]

/-- A transmitted byte as the line shows it (R88), with `ps` the partner's `P_SDA` in its eight data pulses. -/
def lineByte (b : Byte) (ps : List Bool) (ninth : Bool) : List Symbol :=
  List.zipWith (fun x p => Symbol.bit (x && p)) (bitsOf b) ps ++ [.bit ninth]

/-- Bytes with the levels of their ninth pulses. -/
def frameBytes (bs : List Byte) (ninths : List Bool) : List Symbol :=
  (List.zipWith frameByte bs ninths).flatten

/-- R86: the write frame, with `as` the sampled acknowledgment levels. -/
def writeFrame (a : DevAddr) (r : RegAddr) (bs : List Byte) (as : List Bool) : List Symbol :=
  [.start] ++ frameBytes (addrByte a dirWrite :: r :: bs) as ++ [.stop]

/-- R87: the read frame, with `a1`, `a2`, `a3` the sampled acknowledgment levels and `ds` the received bytes: the
master acknowledges all but the last. -/
def readFrame (a : DevAddr) (r : RegAddr) (a1 a2 a3 : Bool) (ds : List Byte) : List Symbol :=
  [.start] ++ frameByte (addrByte a dirWrite) a1 ++ frameByte r a2 ++ [.start] ++ frameByte (addrByte a dirRead) a3 ++
  frameBytes ds (List.replicate (ds.length - 1) false ++ [true]) ++ [.stop]

/-- The host's writes of a block to `BUF[0..5]` (R94, R165). -/
def writeBlock (block : Vector Byte 6) : List Input :=
  block.toList.mapIdx fun i b => .writeBuf (BitVec.ofNat 8 i) b

/-- R94 `r`: `OSCRD`, then read the flag and the six bytes. -/
def hostShowLive : List Input :=
  [.writeCmd (encode .oscrd), .read .ok] ++ (List.range 6).map fun i => .read (.buf (BitVec.ofNat 8 i))

/-- R94 `w` on a complete parse, after the host's save (R215): the block to BUF, `OSCWR`, read the flag. -/
def hostPush (block : Vector Byte 6) : List Input := writeBlock block ++ [.writeCmd (encode .oscwr), .read .ok]

/-- R94 `i`: read the snapshot, no command. -/
def hostShowSnapshot : List Input := (List.finRange 6).map fun i => .read (.snapshot i)

/-- R214: what the host does at boot with the stored block, after the boot read. -/
def hostAtBoot (stored : Vector Byte 6) : List Input := if Config.bootAutoload then hostPush stored else []

end Sys2Proof.Machine
end

