-- ==== Sys2Proof/Machine/Line.lean ====
section
/-! DEFINITION. Reading a trace as what is on the data line (R88): the trace is carried out again on the engine it began
at, so that the partner's `P_SDA` at every drive is known. Nothing the controller does uses this file. -/

namespace Sys2Proof.Machine

/-- `P_SDA` after `n` draws and `k` events. For the oracle it is a free value of its own, since R52 gives the oracle's level
at samples alone (log 16). -/
def Partner.output (p : Partner) (n k : Nat) : Bool :=
  match p with
  | .oracle => Config.levelAtDrive n k
  | .absent => true
  | .heldLow => false
  | .device d => d.pSda

/-- `P_SDA` now (R51). -/
def Engine.partnerOutput (e : Engine) : Bool := e.partner.output e.draws e.trace.length

/-- The line level now, `SDA_OUT & P_SDA` (R51, R88). -/
def Engine.lineLevel (e : Engine) : Bool := wiredAnd e.sdaOut e.partnerOutput

/-- What a sample in an open pulse adds: nothing, but with the oracle, whose level in a pulse is what the first sample in
it reads (R52; log 16). -/
def Partner.heard (p : Partner) (q : Pulse) (v : Bool) : Pulse :=
  match p with
  | .oracle => q.hear v
  | .absent => q
  | .heldLow => q
  | .device _ => q

/-- The condition that a data drive to `v` with the clock high makes on the line (R88, R110, R111): `S` if the line was high
and is driven low, `P` if it is high once released. Where the partner holds the line low it does not move, and neither
appears (R121, R216). -/
def Engine.condition (e : Engine) (v : Bool) : List Symbol :=
  if v then (if (e.driveSda true).lineLevel then [.stop] else []) else if e.lineLevel then [.start] else []

/-- One recorded primitive carried out again. -/
def Engine.after (e : Engine) (x : Event) : Engine :=
  match x with
  | .sda v => e.driveSda v
  | .scl v => e.driveScl v
  | .rd _ => e.sdard.2

/-- A trace carried out again. -/
def Engine.replay (e : Engine) (tr : List Event) : Engine :=
  match tr with
  | [] => e
  | x :: rest => Engine.replay (e.after x) rest

/-- Every sample of the trace is the level the line had when it was taken (R23, R114). -/
def Engine.hears (e : Engine) (tr : List Event) : Bool :=
  match tr with
  | [] => true
  | .sda v :: rest => Engine.hears (e.driveSda v) rest
  | .scl v :: rest => Engine.hears (e.driveScl v) rest
  | .rd v :: rest => (v == e.sdaLine) && Engine.hears e.sdard.2 rest

/-- R88's scan of the events `tr` from the engine `e`, with `pulse` the clock pulse that is open, if one is: `A0` with
the clock high is `S` and `A1` with the clock high is `P`, where the line moves with the drive (R216, log 16), and a `C1`
followed by a `C0` with no data change between is a bit, the line level at the `C1`. -/
def symbolsFrom (e : Engine) (pulse : Option Pulse) (tr : List Event) : List Symbol :=
  match tr with
  | [] => []
  | .sda v :: rest =>
    if v = e.sdaOut then symbolsFrom (e.driveSda v) pulse rest
    else if e.sclOut then e.condition v ++ symbolsFrom (e.driveSda v) none rest
    else symbolsFrom (e.driveSda v) pulse rest
  | .scl v :: rest =>
    if v = e.sclOut then symbolsFrom (e.driveScl v) pulse rest
    else if v then symbolsFrom (e.driveScl v) (some { level := (e.driveScl v).lineLevel, sampled := false }) rest
    else
      match pulse with
      | some q => .bit q.level :: symbolsFrom (e.driveScl v) none rest
      | none => symbolsFrom (e.driveScl v) none rest
  | .rd v :: rest => symbolsFrom e.sdard.2 (pulse.map fun q => e.partner.heard q v) rest

/-- The symbols on the line (R88) in the events `tr` that the engine `e` went through, no clock pulse open before. -/
def symbols (e : Engine) (tr : List Event) : List Symbol := symbolsFrom e none tr

/-- The line shows the master's symbols, except for what a partner that pulls the line low may change (R51): a bit 1 of the
master may be 0, and a start or stop condition may be missing. -/
def shownOnLine (line master : List Symbol) : Bool :=
  match master with
  | [] => line.isEmpty
  | .bit b :: ms =>
    match line with
    | .bit l :: ls => (!l || b) && shownOnLine ls ms
    | _ => false
  | .start :: ms => shownOnLine line ms || (line.head? == some .start && shownOnLine line.tail ms)
  | .stop :: ms => shownOnLine line ms || (line.head? == some .stop && shownOnLine line.tail ms)

/-- What a data line that is held low shows of the master's symbols (R216): its pulses, each with the bit 0, and no start or
stop condition. -/
def heldLowSymbols (master : List Symbol) : List Symbol :=
  master.filterMap fun x =>
    match x with
    | .bit _ => some (.bit false)
    | .start => none
    | .stop => none

end Sys2Proof.Machine
end

