-- ==== Sys2Proof/Safety.lean ====
section
/-! DEFINITION. The terms claims use: the invariant of the state, the entry states a command expects (R220), the pins it
leaves (R36), and which commands write which result (R25 to R28). -/

namespace Sys2Proof.Machine

/-- `(SDA_OUT, SCL_OUT)`. -/
def Engine.pins (e : Engine) : Pins := (e.sdaOut, e.sclOut)

/-- The idle bus of R35 and R220. -/
def idleBus : Pins := (true, true)

/-- R63: the counter `bit` is in 0..9; an oracle, absent or stuck partner has none. -/
def Partner.bitInRange (p : Partner) : Bool :=
  match p with
  | .device d => decide (d.bit ≤ 9)
  | .oracle => true
  | .absent => true
  | .heldLow => true

/-- What every step keeps: BUF's canonical form below index 256 (R27), an idle sequencer whenever BUSY is 0 and while
the boot read is pending (R30, R35), the pins as the trace since reset left the idle bus (R21, R22, R33), and a device
partner's bit counter in its range (R63). -/
structure State.Inv (s : State) : Prop where
  buf_wf : s.buf.wf = true
  idle_of_not_busy : s.busy = false → s.eng.seq = Sequencer.idle
  idle_of_phase : s.eng.seq.phase = .idle → s.eng.seq = Sequencer.idle
  pins_trace : s.eng.pins = pinsAfter idleBus s.eng.trace
  device_bit : s.eng.partner.bitInRange = true

/-- The entry state a command expects (R220, R122, R123): layers 2 and 3 the idle bus, TXB and RXB the clock low; the
other commands of layers 0 and 1 run from any state (R116, R124). -/
def entryExpected (i : Instr) (p : Pins) : Bool :=
  match i with
  | .txb _ => !p.2
  | .rxb _ => !p.2
  | .wrregs _ _ _ => p == idleBus
  | .rdregs _ _ _ => p == idleBus
  | .wrreg _ _ _ => p == idleBus
  | .rdreg _ _ => p == idleBus
  | .oscwr => p == idleBus
  | .oscrd => p == idleBus
  | .sdahi => true
  | .sdalo => true
  | .sclhi => true
  | .scllo => true
  | .sdard => true
  | .start => true
  | .stop => true

/-- The pins a command leaves (R36). -/
def pinsLeft (i : Instr) (p : Pins) : Pins :=
  match i with
  | .sdahi => (true, p.2)
  | .sdalo => (false, p.2)
  | .sclhi => (p.1, true)
  | .scllo => (p.1, false)
  | .sdard => p
  | .start => (false, false)
  | .stop => (true, true)
  | .txb _ => (true, false)
  | .rxb k => (!k, false)
  | .wrregs _ _ _ => (true, true)
  | .rdregs _ _ _ => (true, true)
  | .wrreg _ _ _ => (true, true)
  | .rdreg _ _ => (true, true)
  | .oscwr => (true, true)
  | .oscrd => (true, true)

/-- The commands that write OK (R25). -/
def writesOk (i : Instr) : Bool :=
  match i with
  | .txb _ => true
  | .wrregs _ _ _ => true
  | .rdregs _ _ _ => true
  | .wrreg _ _ _ => true
  | .rdreg _ _ => true
  | .oscwr => true
  | .oscrd => true
  | .sdahi => false
  | .sdalo => false
  | .sclhi => false
  | .scllo => false
  | .sdard => false
  | .start => false
  | .stop => false
  | .rxb _ => false

/-- The commands that write RDATA (R26). -/
def writesRdata (i : Instr) : Bool :=
  match i with
  | .sdard => true
  | .rxb _ => true
  | .sdahi => false
  | .sdalo => false
  | .sclhi => false
  | .scllo => false
  | .start => false
  | .stop => false
  | .txb _ => false
  | .wrregs _ _ _ => false
  | .rdregs _ _ _ => false
  | .wrreg _ _ _ => false
  | .rdreg _ _ => false
  | .oscwr => false
  | .oscrd => false

/-- How many entries of BUF a command writes, from `BUF[0]` up (R27). -/
def bufWritten (i : Instr) : Nat :=
  match i with
  | .rdregs _ _ n => n.toNat
  | .rdreg _ _ => 1
  | .oscrd => 6
  | .sdahi => 0
  | .sdalo => 0
  | .sclhi => 0
  | .scllo => 0
  | .sdard => 0
  | .start => 0
  | .stop => 0
  | .txb _ => 0
  | .rxb _ => 0
  | .wrregs _ _ _ => 0
  | .wrreg _ _ _ => 0
  | .oscwr => 0

/-- The device address a register command sends (R83, R140 to R143, R160, R161); none for layers 0 and 1. -/
def addressee (i : Instr) : Option DevAddr :=
  match i with
  | .wrregs a _ _ => some a
  | .rdregs a _ _ => some a
  | .wrreg a _ _ => some a
  | .rdreg a _ => some a
  | .oscwr => some Config.osc.addr
  | .oscrd => some Config.osc.addr
  | .sdahi => none
  | .sdalo => none
  | .sclhi => none
  | .scllo => none
  | .sdard => none
  | .start => none
  | .stop => none
  | .txb _ => none
  | .rxb _ => none

/-- The command runs to its end: it is well formed and every BUF entry of its payload holds a value (R141, R140). -/
def State.ready (s : State) (i : Instr) : Bool := i.wf && (s.payload (payloadLen i)).isSome

/-- A reference partner in its initial bus state (R63): phase IDLE, released, both lines last seen high. -/
def Device.atRest (d : Device) : Bool :=
  (d.phase == .idle) && d.pSda && d.pscl && d.psda

/-- A device's registers after the bytes `bs` are written from `r` up, the address wrapping at 256 (R67, R68). -/
def Device.withBytes (d : Device) (r : RegAddr) (bs : List Byte) : Device :=
  match bs with
  | [] => d
  | b :: rest => (d.setReg r b).withBytes (r + 1#8) rest

/-- The table of R223: drives (which is settling delays), samples, primitives. -/
def commandCounts (i : Instr) : Nat × Nat × Nat :=
  match i with
  | .sdahi => (1, 0, 1)
  | .sdalo => (1, 0, 1)
  | .sclhi => (1, 0, 1)
  | .scllo => (1, 0, 1)
  | .sdard => (0, 1, 1)
  | .start => (4, 0, 4)
  | .stop => (3, 0, 3)
  | .txb _ => (27, 1, 28)
  | .rxb k => if k then (20, 8, 28) else (19, 8, 27)
  | .wrregs _ _ n => (61 + 27 * n.toNat, 2 + n.toNat, 63 + 28 * n.toNat)
  | .wrreg _ _ _ => (88, 3, 91)
  | .rdregs _ _ n => (91 + 20 * n.toNat, 3 + 8 * n.toNat, 94 + 28 * n.toNat)
  | .rdreg _ _ => (111, 11, 122)
  | .oscwr => (487, 17, 504)
  | .oscrd => (211, 51, 262)

/-- Drives, samples and primitives of a recorded trace (R223). -/
def traceCounts (tr : List Event) : Nat × Nat × Nat :=
  (drives (tr.map Event.prim), sampleCount (tr.map Event.prim), tr.length)

end Sys2Proof.Machine
end

