-- ==== Sys2Proof/Certificates/Slice0/Obligations.lean ====
section
/-! DEFINITION. The statements for the provers, from the numbered rules of spec/. Free values (`Config.partnerLevel`,
`Config.failedReadByte`) and OPEN parameters (`Config.osc`) are opaque: each statement holds for every value of them. -/

open Sys2Proof Sys2Proof.Machine

/-! ### Encoding -/

/-- R80 to R82: the word of a command decodes to that command, with every operand at every value. -/
def Obligations.DecodeOfEncodeIsTheCommand : Prop :=
  ∀ i : Instr, decode (encode i) = .ok i

/-- R80 to R82: a word that decodes has one meaning and no spare bit: encoding the command gives the word back. -/
def Obligations.EncodeOfDecodeIsTheWord : Prop :=
  ∀ (w : Word) (i : Instr), decode w = .ok i → encode i = w

/-- R82: a word is a row's command iff `(w & mask) = match`, and two rows of the map never accept the same word. -/
def Obligations.WordIsCommandIffMaskMatches : Prop :=
  (∀ (w : Word) (i : Instr), w &&& i.row.mask = i.row.code ↔ ∃ j : Instr, decode w = .ok j ∧ j.row = i.row) ∧
  opcodeMap.Pairwise fun p q => ∀ w : Word, ¬(w &&& p.mask = p.code ∧ w &&& q.mask = q.code)

/-- R89: launched, a word that matches no row of the map is refused as illegal, and no other word is; a read of zero
bytes is refused by its own name. The refusal leaves the state as it was before the launch but for CMD, which the host
wrote, and BUSY at 0: no primitive has run (the refusal carries that state, log 20). -/
def Obligations.IllegalWordsAreRefused : Prop :=
  ∀ (s : State) (w : Word),
    ((∀ p ∈ opcodeMap, w &&& p.mask ≠ p.code) → ∃ why, decode w = .error why ∧ step (s.launch w) =
      .refused (.illegalCommand why { s with cmd := w, busy := false, eng := { s.eng with seq := Sequencer.idle } })) ∧
    (∀ p ∈ opcodeMap, w &&& p.mask = p.code →
      ∀ why left, step (s.launch w) ≠ .refused (.illegalCommand why left)) ∧
    (∀ (a : DevAddr) (r : RegAddr), decode w = .ok (.rdregs a r 0#8) → step (s.launch w) =
      .refused (.zeroCountRead { s with cmd := w, busy := false, eng := { s.eng with seq := Sequencer.idle } }))

/-- Words written out from R82's table and the vectors of 95_test_vectors.md decode to the commands they stand for. -/
def Obligations.WordsOfTheSpecDecode : Prop :=
  decode 0x01000000#32 = .ok .sdahi ∧ decode 0x02000000#32 = .ok .sdalo ∧ decode 0x03000000#32 = .ok .sclhi ∧
  decode 0x04000000#32 = .ok .scllo ∧ decode 0x05000000#32 = .ok .sdard ∧ decode 0x10000000#32 = .ok .start ∧
  decode 0x11000000#32 = .ok .stop ∧ decode 0x1200AA00#32 = .ok (.txb 0xAA#8) ∧
  decode 0x13800000#32 = .ok (.rxb true) ∧ decode 0x20550706#32 = .ok (.wrregs 0x55#7 7#8 6#8) ∧
  decode 0x2155FE04#32 = .ok (.rdregs 0x55#7 254#8 4#8) ∧ decode 0x22558910#32 = .ok (.wrreg 0x55#7 137#8 0x10#8) ∧
  decode 0x23558900#32 = .ok (.rdreg 0x55#7 137#8) ∧ decode 0x30000000#32 = .ok .oscwr ∧
  decode 0x31000000#32 = .ok .oscrd

/-- R83: the address byte is the device address shifted left one bit with the direction bit in the low position. -/
def Obligations.AddressByteIsShiftedAddressAndDirection : Prop :=
  (∀ (a : DevAddr) (dir : Bool),
    (addrByte a dir).getLsbD 0 = dir ∧ ∀ j : Nat, j < 7 → (addrByte a dir).getLsbD (j + 1) = a.getLsbD j) ∧
  addrByte 0x55#7 dirWrite = 0xAA#8 ∧ addrByte 0x55#7 dirRead = 0xAB#8

/-! ### The step -/

/-- R29: while a launched command is in CMD, a step is `exec` of the command CMD decodes to. -/
def Obligations.StepRunsTheDecodedCommand : Prop :=
  ∀ (s : State) (i : Instr), s.busy = true → s.eng.seq.phase = .running → decode s.cmd = .ok i → step s = exec i s

/-- The instruction placed by `withFetchWord` is the very next thing `step` runs (log 9, the model's own form). -/
def Obligations.PlacedWordIsRunNext : Prop :=
  ∀ (s : State) (nbits w : Nat) (i : Instr), decodeTableWord nbits w = some i →
    step (s.withFetchWord nbits w) = exec i (s.withFetchWord nbits w)

/-- R29, R190: with BUSY = 0 a write to CMD launches the command: BUSY goes to 1, CMD holds the word, nothing else that
the host can read and no pin changes, and the next step runs the command. -/
def Obligations.HostWriteToCmdLaunches : Prop :=
  ∀ (s : State) (w : Word) (rest : List Input), s.busy = false → s.inputs = .writeCmd w :: rest →
    ∃ t, step s = .next t ∧ t.cmd = w ∧ t.busy = true ∧ t.inputs = rest ∧ t.ok = s.ok ∧ t.rdata = s.rdata ∧
      t.buf = s.buf ∧ t.snapshot = s.snapshot ∧ t.eng.pins = s.eng.pins ∧ t.eng.trace = s.eng.trace ∧
      t.eng.partner = s.eng.partner ∧ ∀ i, decode w = .ok i → step t = exec i t

/-- R190: with BUSY = 0 a host write of a BUF entry sets that entry and changes nothing else; a host read changes
nothing; and with no action to come the controller waits unchanged (the host as a list of actions is the model's own
form, log 10). -/
def Obligations.HostWritesAndReadsOfResults : Prop :=
  ∀ (s : State) (rest : List Input), s.busy = false →
    (∀ i v, s.inputs = .writeBuf i v :: rest →
      ∃ t, step s = .next t ∧ t.buf.read i.toNat = some v ∧ (∀ j, j ≠ i.toNat → t.buf.read j = s.buf.read j) ∧
        t = { s with inputs := rest, buf := t.buf }) ∧
    (∀ x, s.inputs = .read x :: rest → step s = .next { s with inputs := rest }) ∧
    (s.inputs = [] → step s = .next s)

/-- R94 `w`, R165, R190: from an idle controller the host's push of a block (log 10: the host as a list of actions) takes
seven steps to the launch of OSCWR with exactly that block as its payload, and nine to its end with the flag read. -/
def Obligations.HostPushSendsItsBlock : Prop :=
  ∀ (s : State) (block : Vector Byte 6) (rest : List Input), s.busy = false → s.inputs = hostPush block ++ rest →
    ∃ t u, Sys2Proof.core.run 7 s = .next t ∧ t.cmd = encode .oscwr ∧ t.busy = true ∧
      t.payload 6 = some block.toList ∧ t.eng.pins = s.eng.pins ∧ t.eng.partner = s.eng.partner ∧ t.ok = s.ok ∧
      exec .oscwr t = .next u ∧ Sys2Proof.core.run 9 s = .next { u with inputs := rest }

/-- R191: while BUSY = 1 no step performs an action of the host. -/
def Obligations.HostTouchesNothingWhileBusy : Prop :=
  ∀ s t : State, s.busy = true → step s = .next t → t.inputs = s.inputs

/-- What a host read answers. BUSY is read at any time (R20, R185: completion is seen by polling BUSY), the results only
while BUSY = 0 (R190; R191: the host touches nothing else while BUSY = 1). That a read of a result then answers nothing,
and a read of an entry of BUF that nothing has written too, is the model's form (log 10, log 1). -/
def Obligations.HostReadsOnlyWhenIdle : Prop :=
  (∀ (s : State) (x : HostReg), s.busy = true → x ≠ .busy → s.hostRead x = none) ∧
  (∀ s : State, s.busy = false → s.hostRead .busy = some 0x00#8 ∧ s.hostRead .rdata = some s.rdata ∧
    s.hostRead .ok = some (if s.ok then 0x01#8 else 0x00#8) ∧
    (∀ i, s.hostRead (.buf i) = s.buf.read i.toNat) ∧ ∀ i : Fin 6, s.hostRead (.snapshot i) = some s.snapshot[i]) ∧
  ∀ s : State, s.busy = true → s.hostRead .busy = some 0x01#8

/-! ### Reset and boot -/

/-- R35: the values the spec gives for reset, and after the boot read the idle bus, BUSY = 0, and OK, BUF and SNAPSHOT
as that read left them. (BUF and SNAPSHOT are unspecified at reset: nothing is stated of them there. That the whole boot
read is the one first step is the model's form, log 7.) -/
def Obligations.ResetValuesAndBootRead : Prop :=
  State.reset.eng.sdaOut = true ∧ State.reset.eng.sclOut = true ∧ State.reset.ok = true ∧
  State.reset.rdata = 0x00#8 ∧ State.reset.cmd = 0#32 ∧ State.reset.busy = true ∧
  State.reset.eng.seq = Sequencer.idle ∧
  ∃ t u, exec .oscrd State.reset = .next u ∧ step State.reset = .next t ∧ t.eng.sdaOut = true ∧ t.eng.sclOut = true ∧
    t.busy = false ∧ t.ok = u.ok ∧ t.buf = u.buf ∧ ∀ i : Fin 6, t.buf.read i.val = some t.snapshot[i]

/-- R210, R212: while the boot read is pending a step performs `OSCRD` and then copies `BUF[0..5]` to SNAPSHOT; OK
holds that read's flag, and BUSY returns to 0. -/
def Obligations.BootStepReadsAndTakesSnapshot : Prop :=
  ∀ s : State, s.bootPending = true →
    ∃ t u, step s = .next t ∧ exec .oscrd s = .next u ∧ t = { u with snapshot := t.snapshot } ∧ t.busy = false ∧
      t.eng.seq = Sequencer.idle ∧ ∀ i : Fin 6, t.buf.read i.val = some t.snapshot[i]

/-- R213: SNAPSHOT changes only in the boot read, or when the reset input comes. (That the reset input comes only with
BUSY = 0, between commands, and puts the zeros of log 2 in SNAPSHOT is the model's choice, log 14.) -/
def Obligations.SnapshotChangesOnlyAtBootOrReset : Prop :=
  ∀ s t : State, step s = .next t → t.snapshot ≠ s.snapshot →
    s.bootPending = true ∨ (s.busy = false ∧ s.inputs.head? = some .reset)

/-- R210, and the model's choice of log 14: the reset input puts the controller at the reset values with the boot read to
come; the partner is not reset, no event is recorded and the trace starts anew, and the host's later actions stay. -/
def Obligations.ResetInputKeepsThePartner : Prop :=
  ∀ (s : State) (rest : List Input), s.busy = false → s.inputs = .reset :: rest →
    ∃ t, step s = .next t ∧ t.bootPending = true ∧ t.eng.partner = s.eng.partner ∧ t.eng.pins = idleBus ∧
      t.eng.seq = Sequencer.idle ∧ t.eng.trace = [] ∧ t.ok = true ∧ t.rdata = 0x00#8 ∧ t.cmd = 0#32 ∧
      t.inputs = rest

/-- The reset state meets the invariant. -/
def Obligations.ResetStateMeetsInvariant : Prop := State.reset.Inv

/-- Every step keeps the invariant: BUF canonical (R27), the sequencer idle when BUSY is 0 (R30, R35), the pins written
by drives alone (R21, R22), a device's bit counter in range (R63). -/
def Obligations.EveryStepKeepsInvariant : Prop :=
  ∀ s t : State, s.Inv → step s = .next t → t.Inv

/-! ### What every command does -/

/-- R36: the pins a command leaves depend only on the command, and for a drive or SDARD on the pins before. -/
def Obligations.EveryCommandLeavesItsPins : Prop :=
  ∀ (i : Instr) (s t : State), exec i s = .next t → t.eng.pins = pinsLeft i s.eng.pins

/-- R145: the primitives of a command are fixed by its operands and its payload: every well-formed command whose payload
holds values runs to its end, and what it records is exactly its fixed expansion, whatever was sampled, once and with no
retry; then BUSY is 0 and the sequencer idle. -/
def Obligations.EveryCommandRunsItsExpansion : Prop :=
  ∀ (i : Instr) (s : State) (bs : List Byte), i.wf = true → s.payload (payloadLen i) = some bs →
    ∃ t tr, exec i s = .next t ∧ t.eng.trace = s.eng.trace ++ tr ∧ tr.map Event.prim = expansion i bs ∧
      t.busy = false ∧ t.eng.seq = Sequencer.idle

/-- R31, R145: the primitives of a command do not depend on the partner: with any other partner, and any other numbering
of the free values, the same primitives come in the same order. -/
def Obligations.PrimitivesIgnoreThePartner : Prop :=
  ∀ (i : Instr) (s t : State) (p : Partner) (n : Nat), exec i s = .next t →
    ∃ t' tr tr', exec i { s with eng := { s.eng with partner := p, draws := n } } = .next t' ∧
      t.eng.trace = s.eng.trace ++ tr ∧ t'.eng.trace = s.eng.trace ++ tr' ∧
      tr.map Event.prim = tr'.map Event.prim

/-- R223: every command that is ready runs to its end with the drives, samples and primitives of the table, and so does
the boot read. -/
def Obligations.CommandCountsOfTheTable : Prop :=
  (∀ (i : Instr) (s : State), s.ready i = true →
    ∃ t tr, exec i s = .next t ∧ t.eng.trace = s.eng.trace ++ tr ∧ traceCounts tr = commandCounts i) ∧
  ∀ s : State, s.bootPending = true →
    ∃ t tr, step s = .next t ∧ t.eng.trace = s.eng.trace ++ tr ∧ traceCounts tr = (211, 51, 262)

/-- R125: every layer-1 command terminates from every state after a fixed number of primitives. -/
def Obligations.LayerOneCommandsTerminate : Prop :=
  ∀ (s : State) (b : Byte),
    (∃ t, exec .start s = .next t ∧ t.eng.trace.length = s.eng.trace.length + 4) ∧
    (∃ t, exec .stop s = .next t ∧ t.eng.trace.length = s.eng.trace.length + 3) ∧
    (∃ t, exec (.txb b) s = .next t ∧ t.eng.trace.length = s.eng.trace.length + 28) ∧
    (∃ t, exec (.rxb true) s = .next t ∧ t.eng.trace.length = s.eng.trace.length + 28) ∧
    ∃ t, exec (.rxb false) s = .next t ∧ t.eng.trace.length = s.eng.trace.length + 27

/-- R147: every layer-2 command terminates after exactly its number of primitives; the longest takes 7234. -/
def Obligations.LayerTwoCommandsTerminate : Prop :=
  ∀ (s : State) (a : DevAddr) (r : RegAddr) (n d : Byte),
    ((s.payload n.toNat).isSome → ∃ t, exec (.wrregs a r n) s = .next t ∧
      t.eng.trace.length = s.eng.trace.length + (63 + 28 * n.toNat)) ∧
    (n ≠ 0#8 → ∃ t, exec (.rdregs a r n) s = .next t ∧
      t.eng.trace.length = s.eng.trace.length + (94 + 28 * n.toNat)) ∧
    (∃ t, exec (.wrreg a r d) s = .next t ∧ t.eng.trace.length = s.eng.trace.length + 91) ∧
    (∃ t, exec (.rdreg a r) s = .next t ∧ t.eng.trace.length = s.eng.trace.length + 122) ∧
    (∃ t, exec (.rdregs a r 255#8) s = .next t ∧ t.eng.trace.length = s.eng.trace.length + 7234) ∧
    63 + 28 * n.toNat ≤ 7234 ∧ 94 + 28 * n.toNat ≤ 7234

/-- The frame of every command (R20, R25 to R29): OK is as before unless the command is TXB, WRREGS, RDREGS, WRREG, RDREG,
OSCWR or OSCRD; RDATA unless it is RXB or SDARD; every entry of BUF but the first `n` of RDREGS, the first one of RDREG
and the first six of OSCRD reads as before; SNAPSHOT, CMD and the host's actions are as before; a partner that is no
device is as before (log 21). -/
def Obligations.CommandFrame : Prop :=
  ∀ (i : Instr) (s t : State), exec i s = .next t →
    (writesOk i = false → t.ok = s.ok) ∧ (writesRdata i = false → t.rdata = s.rdata) ∧
    (∀ j, bufWritten i ≤ j → t.buf.read j = s.buf.read j) ∧ t.snapshot = s.snapshot ∧ t.cmd = s.cmd ∧
    t.inputs = s.inputs ∧ ((∀ d, s.eng.partner ≠ .device d) → t.eng.partner = s.eng.partner)

/-- R25: no command reads OK, RDATA, SNAPSHOT, CMD or what the sequencer held before: with other values there the
command does the same, so a failure of one command never leaks into the next. -/
def Obligations.NoCommandReadsEarlierResults : Prop :=
  ∀ (i : Instr) (s t : State) (ok : Bool) (rdata : Byte) (snap : Vector Byte 6) (cmd : Word) (q : Sequencer),
    exec i s = .next t →
    exec i { s with ok := ok, rdata := rdata, snapshot := snap, cmd := cmd, eng := { s.eng with seq := q } } =
      .next { t with
        ok := if writesOk i then t.ok else ok
        rdata := if writesRdata i then t.rdata else rdata
        snapshot := snap
        cmd := cmd }

/-- R184, R89, R141, R140: a command stops only as the spec says: the one fault is an unwritten BUF entry read by WRREGS
or OSCWR, the one refusal of a decoded command is a read of zero bytes. -/
def Obligations.CommandsStopOnlyAsTheSpecSays : Prop :=
  (∀ (i : Instr) (s : State) (f : Fault), exec i s = .fault f →
    f = .unwrittenBuf ∧ (i = .oscwr ∨ ∃ a r n, i = .wrregs a r n) ∧ s.payload (payloadLen i) = none) ∧
  ∀ (i : Instr) (s : State) (x : Refusal), exec i s = .refused x →
    x = .zeroCountRead { s with busy := false, eng := { s.eng with seq := Sequencer.idle } } ∧
    ∃ a r, i = .rdregs a r 0#8

/-- R140, R160, U9 (log 1): WRREGS faults exactly when one of `BUF[0..n-1]` holds no value, OSCWR exactly when one of
`BUF[0..5]` holds none. -/
def Obligations.UnwrittenPayloadFaults : Prop :=
  ∀ (s : State) (a : DevAddr) (r : RegAddr) (n : Byte),
    (exec (.wrregs a r n) s = .fault .unwrittenBuf ↔ ∃ j, j < n.toNat ∧ s.buf.read j = none) ∧
    (exec .oscwr s = .fault .unwrittenBuf ↔ ∃ j, j < 6 ∧ s.buf.read j = none)

/-- R141, R221, R89: a read of zero bytes is refused in every state, and leaves BUSY at 0 and the rest as it was (the
refusal carries that state, log 20). -/
def Obligations.ReadOfZeroBytesIsRefused : Prop :=
  ∀ (s : State) (a : DevAddr) (r : RegAddr), exec (.rdregs a r 0#8) s =
    .refused (.zeroCountRead { s with busy := false, eng := { s.eng with seq := Sequencer.idle } })

/-! ### Layer 0 -/

/-- R110 to R113: each drive primitive runs from every state, sets its own pin, records its one event and lets the partner
react to the new levels; BUSY is 0 and the sequencer idle, and every other field is as before: the other pin, every
result, SNAPSHOT, CMD, the host's actions. On the line (log 16) SDAHI is a stop condition exactly when the data output rises
while the clock is high and the line rises with it, and SDALO a start condition exactly when the clock and the line are high
before it (R88; with the line held low there is neither, R216); the clock primitives alone are no symbol. -/
def Obligations.DrivePrimitivesSetTheirPin : Prop :=
  ∀ s : State,
    exec .sdahi s = .next { s with busy := false, eng := { s.eng with
      sdaOut := true, seq := Sequencer.idle, trace := s.eng.trace ++ [.sda true]
      partner := s.eng.partner.react true s.eng.sclOut } } ∧
    exec .sdalo s = .next { s with busy := false, eng := { s.eng with
      sdaOut := false, seq := Sequencer.idle, trace := s.eng.trace ++ [.sda false]
      partner := s.eng.partner.react false s.eng.sclOut } } ∧
    exec .sclhi s = .next { s with busy := false, eng := { s.eng with
      sclOut := true, seq := Sequencer.idle, trace := s.eng.trace ++ [.scl true]
      partner := s.eng.partner.react s.eng.sdaOut true } } ∧
    exec .scllo s = .next { s with busy := false, eng := { s.eng with
      sclOut := false, seq := Sequencer.idle, trace := s.eng.trace ++ [.scl false]
      partner := s.eng.partner.react s.eng.sdaOut false } } ∧
    symbols s.eng [.sda true] =
      (if !s.eng.sdaOut && s.eng.sclOut && (s.eng.driveSda true).lineLevel then [.stop] else []) ∧
    symbols s.eng [.sda false] = (if s.eng.sclOut && s.eng.lineLevel then [.start] else []) ∧
    symbols s.eng [.scl true] = [] ∧ symbols s.eng [.scl false] = []

/-- R114, R26, R51: SDARD runs from every state; it reads 0 while the master drives low and else the partner's level,
puts 0x00 or 0x01 in RDATA, and changes no pin, not the partner, not OK and not BUF. -/
def Obligations.SampleReadsTheDataLine : Prop :=
  ∀ s : State, ∃ t v, exec .sdard s = .next t ∧ t.eng.trace = s.eng.trace ++ [.rd v] ∧
    v = (s.eng.sdaOut && s.eng.partner.level s.eng.draws) ∧ t.rdata = (if v then 0x01#8 else 0x00#8) ∧
    t.eng.pins = s.eng.pins ∧ t.eng.partner = s.eng.partner ∧ t.ok = s.ok ∧ t.buf = s.buf

/-- R33: the waveform is the trace without every drive that does not change the level of its pin, and without its samples
(log 15, DEDUCED from the notation of 95_test_vectors.md; R33 speaks of the redundant drives alone): an event is kept, in
its place, iff it changes a level; so the waveform is a part of the trace in the same order, every drive in it changes the
level of its pin, and it ends at the same pins. -/
def Obligations.WaveformKeepsTheLevels : Prop :=
  ∀ (p : Pins) (tr : List Event),
    wave p [] = [] ∧
    (∀ x, wave p (tr ++ [x]) = wave p tr ++ if pinsAfter p (tr ++ [x]) = pinsAfter p tr then [] else [x]) ∧
    List.Sublist (wave p tr) tr ∧
    (∀ pre x post, wave p tr = pre ++ x :: post → pinsAfter p (pre ++ [x]) ≠ pinsAfter p pre) ∧
    pinsAfter p (wave p tr) = pinsAfter p tr

/-! ### The line (R88)

`symbols` reads what is on the line: the level of a pulse is `SDA_OUT & P_SDA` at the rise of the clock, and a data change
with the clock high is a start or stop condition where the line moves with it. `masterSymbols` reads what the master puts on
the bus and hears there: its own level in a pulse it does not sample, and each of its own data changes (log 16). -/

/-- R31, R33, R52, R114: what a command does to the bus is what its trace says: carried out again from the state before,
the recorded primitives lead to the same pins and the same partner, and every recorded sample is the level the line had
when it was taken. -/
def Obligations.CommandsActThroughTheirTrace : Prop :=
  ∀ (i : Instr) (s t : State), exec i s = .next t →
    ∃ tr, t.eng.trace = s.eng.trace ++ tr ∧ s.eng.hears tr = true ∧ t.eng.pins = (s.eng.replay tr).pins ∧
      t.eng.partner = (s.eng.replay tr).partner

/-- R88, R51, R52: with every partner, the line shows a command's symbols as the master makes and hears them, but for what a
partner that pulls the line low may change: a bit 1 of the master may be 0, and a start or stop condition may be missing.
There is no pulse more or less, and no start or stop that the master does not make (log 16: the oracle's level where it is
not sampled is a free value). -/
def Obligations.LineShowsTheMasterButForPulledPulses : Prop :=
  ∀ (i : Instr) (s t : State), exec i s = .next t →
    ∃ tr, t.eng.trace = s.eng.trace ++ tr ∧ shownOnLine (symbols s.eng tr) (masterSymbols s.eng.pins tr) = true

/-- R88, R71, R216 (log 21): with the absent partner the line shows exactly what the master makes; with a partner that
holds the data line low no start or stop condition appears on the line, and every pulse of the master is there with the
bit 0 (V36, V54). -/
def Obligations.LineOfAbsentAndHeldLowPartners : Prop :=
  ∀ (i : Instr) (s t : State), exec i s = .next t →
    ∃ tr, t.eng.trace = s.eng.trace ++ tr ∧
      (s.eng.partner = .absent → symbols s.eng tr = masterSymbols s.eng.pins tr) ∧
      (s.eng.partner = .heldLow → symbols s.eng tr = heldLowSymbols (masterSymbols s.eng.pins tr) ∧
        .start ∉ symbols s.eng tr ∧ .stop ∉ symbols s.eng tr ∧ .bit true ∉ symbols s.eng tr)

/-- R88, R64 to R67, R72 (log 21): with a device at rest, at whatever address and whatever it does not acknowledge, the
line shows the register commands of layers 2 and 3 exactly as the master makes and hears them: the device pulls the line
low only where the master listens. -/
def Obligations.DeviceLeavesTheFramesOnTheLine : Prop :=
  ∀ (i : Instr) (s t : State) (d : Device), s.eng.pins = idleBus → s.eng.partner = .device d → d.atRest = true →
    (addressee i).isSome → exec i s = .next t →
    ∃ tr, t.eng.trace = s.eng.trace ++ tr ∧ symbols s.eng tr = masterSymbols idleBus tr

/-! ### Layer 1 -/

/-- R120, R88: START runs from every state with the primitives A1 C1 A0 C0. As the master makes it, from the idle bus and
inside a transaction it is one start condition, from data low and clock high a stop condition and then a start condition;
on the line (log 16) each appears where the line moves: the stop if the line is high after A1, the start if it is high before
A0, so neither where a partner holds the line low (R216). -/
def Obligations.StartMakesAStartCondition : Prop :=
  ∀ s : State, ∃ t tr, exec .start s = .next t ∧ tr = [.sda true, .scl true, .sda false, .scl false] ∧
    t.eng.trace = s.eng.trace ++ tr ∧ t.eng.pins = (false, false) ∧ t.ok = s.ok ∧ t.rdata = s.rdata ∧
    masterSymbols s.eng.pins tr = (if s.eng.pins = (false, true) then [.stop, .start] else [.start]) ∧
    symbols s.eng tr =
      (if s.eng.pins = (false, true) ∧ (s.eng.driveSda true).lineLevel = true then [.stop] else []) ++
        if ((s.eng.driveSda true).driveScl true).lineLevel then [.start] else []

/-- R121, R88: STOP runs from every state with the primitives A0 C1 A1. As the master makes it, it is one stop condition, and
from the idle bus an empty start-stop pair; on the line (log 16) each appears where the line moves: the start if the line is
high before A0, the stop if it is high after A1, so no stop where a partner holds the line low (R121, R216). -/
def Obligations.StopMakesAStopCondition : Prop :=
  ∀ s : State, ∃ t tr, exec .stop s = .next t ∧ tr = [.sda false, .scl true, .sda true] ∧
    t.eng.trace = s.eng.trace ++ tr ∧ t.eng.pins = (true, true) ∧ t.ok = s.ok ∧ t.rdata = s.rdata ∧
    masterSymbols s.eng.pins tr = (if s.eng.pins = idleBus then [.start, .stop] else [.stop]) ∧
    symbols s.eng tr =
      (if s.eng.pins = idleBus ∧ s.eng.lineLevel = true then [.start] else []) ++
        if (((s.eng.driveSda false).driveScl true).driveSda true).lineLevel then [.stop] else []

/-- R122, R53, R84, R85: TXB runs from every state, takes exactly one sample, and OK is 1 iff it read 0. Entered with the
clock low the master puts nine pulses on the bus (log 16), the byte most significant bit first and then the sampled level;
on the line each data bit is the AND of the master's level and the partner's `P_SDA` at the rise of its pulse (log 16: for the
oracle a free value), so a bit 1 that the partner pulls low shows as 0. Entered with the clock high (V38) the first
data change is a start or stop condition, which the line shows where it moves (log 16), the first pulse is lost, and the
other eight are the same. -/
def Obligations.TransmitByteSendsNinePulses : Prop :=
  ∀ (s : State) (b : Byte), ∃ t tr v ps, exec (.txb b) s = .next t ∧ t.eng.trace = s.eng.trace ++ tr ∧
    samples tr = [v] ∧ tr.map Event.prim = primsTxb b ∧ t.ok = !v ∧ t.rdata = s.rdata ∧ t.buf = s.buf ∧
    ps = (List.range 8).map (fun j => (s.eng.replay (tr.take (3 * j + 2))).partnerOutput) ∧
    (s.eng.sclOut = false → masterSymbols s.eng.pins tr = frameByte b v ∧
      symbols s.eng tr = lineByte b ps v) ∧
    (s.eng.sclOut = true →
      masterSymbols s.eng.pins tr =
        (if b.getLsbD 7 = s.eng.sdaOut then [] else if b.getLsbD 7 then [.stop] else [.start]) ++
          (frameByte b v).drop 1 ∧
      symbols s.eng tr =
        (if b.getLsbD 7 = s.eng.sdaOut then [] else s.eng.condition (b.getLsbD 7)) ++ (lineByte b ps v).drop 1)

/-- R123, R53, R84, R85, R26: RXB runs from every state, takes eight samples, and RDATA is the byte they spell, the first
in bit 7. Entered with the clock low there are nine pulses on the bus: the eight sampled levels and then, as the master
puts it (log 16), 0 if it acknowledges, else 1; on the line the ninth is the AND with the partner's `P_SDA` at the rise of
its pulse, so a 1 that the partner pulls low shows as 0. Entered with the clock high
the release of the data line may be a stop condition, which the line shows where it moves, the first pulse is lost, and the
other eight are the same. -/
def Obligations.ReceiveByteReadsEightPulses : Prop :=
  ∀ (s : State) (k : Bool), ∃ t tr vs p, exec (.rxb k) s = .next t ∧ t.eng.trace = s.eng.trace ++ tr ∧
    samples tr = vs ∧ vs.length = 8 ∧ tr.map Event.prim = primsRxb k ∧ t.rdata = byteOf vs ∧
    (∀ j, j < 8 → t.rdata.getLsbD (7 - j) = vs.getD j false) ∧ t.ok = s.ok ∧ t.buf = s.buf ∧
    p = (s.eng.replay tr.dropLast).partnerOutput ∧
    (s.eng.sclOut = false → masterSymbols s.eng.pins tr = frameByte (byteOf vs) (!k) ∧
      symbols s.eng tr = frameByte (byteOf vs) (!k && p)) ∧
    (s.eng.sclOut = true →
      masterSymbols s.eng.pins tr =
        (if s.eng.sdaOut then [] else [.stop]) ++ (frameByte (byteOf vs) (!k)).drop 1 ∧
      symbols s.eng tr = (if s.eng.sdaOut then [] else s.eng.condition true) ++ (frameByte (byteOf vs) (!k && p)).drop 1)

/-- R52, U3 (log 5): with the oracle partner the acknowledgment of TXB and the eight bits of RXB are draws, in order. -/
def Obligations.OracleSamplesAreDraws : Prop :=
  ∀ (s : State) (b : Byte) (k : Bool), s.eng.partner = .oracle →
    (∃ t, exec (.txb b) s = .next t ∧ t.ok = !Config.partnerLevel s.eng.draws) ∧
    ∃ t, exec (.rxb k) s = .next t ∧
      ∀ j, j < 8 → t.rdata.getLsbD (7 - j) = Config.partnerLevel (s.eng.draws + j)

/-! ### Layer 2 -/

/-- R140, R142, R144, R86: from every entry state WRREGS (its payload written) and WRREG run to their end; the samples are
exactly the acknowledgments of the transmitted bytes, OK is 1 iff every one is 0, BUF and RDATA are as before, and the
master puts one write frame on the bus (log 16), complete whatever the acknowledgments are: after a stop condition where
the command is entered with data low and the clock high (R220), a repeated start where it is entered with the clock low. -/
def Obligations.WriteCommandsSendTheWriteFrame : Prop :=
  ∀ (s : State) (a : DevAddr) (r : RegAddr) (bs : List Byte) (i : Instr),
    ((∃ n, i = .wrregs a r n ∧ s.payload n.toNat = some bs) ∨ ∃ d, i = .wrreg a r d ∧ bs = [d]) →
    ∃ t tr as, exec i s = .next t ∧ t.eng.trace = s.eng.trace ++ tr ∧ as.length = 2 + bs.length ∧
      samples tr = as ∧ t.ok = as.all (!·) ∧ t.buf = s.buf ∧ t.rdata = s.rdata ∧
      masterSymbols s.eng.pins tr = (if s.eng.pins = (false, true) then [.stop] else []) ++ writeFrame a r bs as

/-- R141, R143, R144, R146, R87: from every entry state RDREGS (of one byte or more) and RDREG run to their end; the samples
are exactly the acknowledgments of the three transmitted bytes and the bits of the received ones, OK is 1 iff the three
are 0, and then the first entries of BUF are exactly the received bytes; RDATA is as before, and the master puts one read
frame on the bus (log 16), complete whatever the acknowledgments are: after a stop condition where the command is entered
with data low and the clock high (R220). -/
def Obligations.ReadCommandsReceiveTheReadFrame : Prop :=
  ∀ (s : State) (a : DevAddr) (r : RegAddr) (n : Nat) (i : Instr),
    ((∃ k, k ≠ 0#8 ∧ i = .rdregs a r k ∧ n = k.toNat) ∨ (i = .rdreg a r ∧ n = 1)) →
    ∃ t tr a1 a2 a3 ds, exec i s = .next t ∧ t.eng.trace = s.eng.trace ++ tr ∧ ds.length = n ∧
      samples tr = [a1, a2, a3] ++ ds.flatMap bitsOf ∧ t.ok = (!a1 && !a2 && !a3) ∧
      (t.ok = true → ∀ j, j < n → t.buf.read j = ds[j]?) ∧ t.rdata = s.rdata ∧
      masterSymbols s.eng.pins tr =
        (if s.eng.pins = (false, true) then [.stop] else []) ++ readFrame a r a1 a2 a3 ds

/-- R146, U1 (log 6): a read that ends with OK = 0 leaves a free byte in each destination entry, and the other entries are as
before; the statement holds for every value of the free bytes. -/
def Obligations.FailedReadLeavesFreeBytes : Prop :=
  ∀ (i : Instr) (s t : State), bufWritten i ≠ 0 → exec i s = .next t → t.ok = false →
    ∃ k, (∀ j, j < bufWritten i → t.buf.read j = some (Config.failedReadByte (k + j))) ∧
      ∀ j, bufWritten i ≤ j → t.buf.read j = s.buf.read j

/-- R142: WRREG is WRREGS of one byte with the byte taken from the command word instead of `BUF[0]`. -/
def Obligations.WrregIsWrregsOfOneByte : Prop :=
  ∀ (s : State) (a : DevAddr) (r : RegAddr) (d : Byte), s.buf.read 0 = some d →
    exec (.wrreg a r d) s = exec (.wrregs a r 1#8) s

/-- R143, R161: RDREG is RDREGS of one byte, and OSCRD is RDREGS of the oscillator's six registers. -/
def Obligations.SingleReadsAreRdregs : Prop :=
  ∀ s : State, (∀ (a : DevAddr) (r : RegAddr), exec (.rdreg a r) s = exec (.rdregs a r 1#8) s) ∧
    exec .oscrd s = exec (.rdregs Config.osc.addr Config.osc.regBase 6#8) s

/-! ### Layer 3 -/

/-- R160, R162: OSCWR is the four commands freeze, bulk write, unfreeze and commit one after another, all four always,
with OK the conjunction of their four flags. -/
def Obligations.OscwrIsItsFourCommands : Prop :=
  ∀ s : State, (s.payload 6).isSome →
    ∃ t1 t2 t3 t4,
      exec (.wrreg Config.osc.addr Config.osc.regFreeze Config.osc.freezeWord) s = .next t1 ∧
      exec (.wrregs Config.osc.addr Config.osc.regBase 6#8) t1 = .next t2 ∧
      exec (.wrreg Config.osc.addr Config.osc.regFreeze 0x00#8) t2 = .next t3 ∧
      exec (.wrreg Config.osc.addr Config.osc.regCtrl Config.osc.newFreqWord) t3 = .next t4 ∧
      exec .oscwr s = .next { t4 with ok := t1.ok && t2.ok && t3.ok && t4.ok }

/-- R91, R160, R161, R162, R146: from every entry state OSCWR with a written block and OSCRD run to their end. OSCWR takes
17 samples, the acknowledgments, and OK is 1 iff all are 0, BUF and RDATA as before; the master puts four write frames on
the bus in order (log 16). OSCRD takes 51 samples, OK is 1 iff the three acknowledgments are 0, and then `BUF[0..5]` are
the received bytes, SNAPSHOT and RDATA as before; the master puts one read frame of six bytes on the bus. A stop condition
comes first where the command is entered with data low and the clock high (R220). -/
def Obligations.OscillatorCommandsSendTheirFrames : Prop :=
  ∀ s : State,
    (∀ bs, s.payload 6 = some bs →
      ∃ t tr a1 a2 a3 a4, exec .oscwr s = .next t ∧ t.eng.trace = s.eng.trace ++ tr ∧
        a1.length = 3 ∧ a2.length = 8 ∧ a3.length = 3 ∧ a4.length = 3 ∧
        samples tr = a1 ++ a2 ++ a3 ++ a4 ∧ t.ok = (a1 ++ a2 ++ a3 ++ a4).all (!·) ∧ t.buf = s.buf ∧
        t.rdata = s.rdata ∧
        masterSymbols s.eng.pins tr = (if s.eng.pins = (false, true) then [.stop] else []) ++
          writeFrame Config.osc.addr Config.osc.regFreeze [Config.osc.freezeWord] a1 ++
          writeFrame Config.osc.addr Config.osc.regBase bs a2 ++
          writeFrame Config.osc.addr Config.osc.regFreeze [0x00#8] a3 ++
          writeFrame Config.osc.addr Config.osc.regCtrl [Config.osc.newFreqWord] a4) ∧
    ∃ t tr a1 a2 a3 ds, exec .oscrd s = .next t ∧ t.eng.trace = s.eng.trace ++ tr ∧ ds.length = 6 ∧
      samples tr = [a1, a2, a3] ++ ds.flatMap bitsOf ∧ t.ok = (!a1 && !a2 && !a3) ∧
      (t.ok = true → ∀ j, j < 6 → t.buf.read j = ds[j]?) ∧ t.snapshot = s.snapshot ∧ t.rdata = s.rdata ∧
      masterSymbols s.eng.pins tr = (if s.eng.pins = (false, true) then [.stop] else []) ++
        readFrame Config.osc.addr Config.osc.regBase a1 a2 a3 ds

/-- R164, as the model takes it up (DESIGN CHOICE, log 8: the constraints are fields of the type of the chip numbers, and
the range is taken without wrap): every choice of chip numbers, so the opaque one of the configuration, has the freeze
register outside the six-register range, the control register apart from it, and a new-frequency word of exactly one bit;
the unfreeze value is 0. The type's default numbers are the Si570's of R7 (PRESUMED, log 8), so they are such a choice. -/
def Obligations.ChipNumbersMeetTheirConstraints : Prop :=
  (∀ c : OscParams, (∀ j : Nat, j < 6 → c.regFreeze.toNat ≠ c.regBase.toNat + j) ∧ c.regCtrl ≠ c.regFreeze ∧
    ∃ j : Nat, j < 8 ∧ c.newFreqWord = 1#8 <<< j) ∧
  (∃ c : OscParams, c = {} ∧ c.addr = 0x55#7 ∧ c.regBase = 7#8 ∧ c.regFreeze = 137#8 ∧ c.freezeWord = 0x10#8 ∧
    c.regCtrl = 135#8 ∧ c.newFreqWord = 0x40#8) ∧
  unfreezeWord = 0x00#8

/-! ### Partners -/

/-- R71 (log 21): against the absent partner TXB is not acknowledged, RXB returns 0xFF, and every register command ends with
OK = 0. -/
def Obligations.AbsentPartnerNacksEverything : Prop :=
  ∀ s : State, s.eng.partner = .absent →
    (∀ b, ∃ t, exec (.txb b) s = .next t ∧ t.ok = false) ∧
    (∀ k, ∃ t, exec (.rxb k) s = .next t ∧ t.rdata = 0xFF#8) ∧
    ∀ i t, writesOk i = true → exec i s = .next t → t.ok = false

/-- R216, R182 (log 21): with the data line held low every sample reads 0, so every command that reports an acknowledgment ends
with OK = 1 and every received byte is 0x00, although nothing was transferred. -/
def Obligations.HeldLowLineReadsAsSuccess : Prop :=
  ∀ (i : Instr) (s t : State), s.eng.partner = .heldLow → exec i s = .next t →
    (writesOk i = true → t.ok = true) ∧ (∀ j, j < bufWritten i → t.buf.read j = some 0x00#8) ∧
    (writesRdata i = true → t.rdata = 0x00#8)

/-- R68, R72 (log 21: the reference and the fault-injecting partner are one type of device, PRESUMED from general
knowledge): WRREGS and WRREG addressed to a device at rest store the payload in its registers from `r` up, wrapping at
256, and move its pointer; OK is 1 iff none of the transmitted bytes has a count in the device's set of bytes that are not
acknowledged (for the reference partner, whose set is empty, always). -/
def Obligations.ReferencePartnerStoresWhatIsWritten : Prop :=
  ∀ (s : State) (d : Device) (r : RegAddr) (bs : List Byte) (i : Instr), s.eng.pins = idleBus →
    s.eng.partner = .device d → d.atRest = true →
    ((∃ n, i = .wrregs d.pa r n ∧ s.payload n.toNat = some bs) ∨ ∃ x, i = .wrreg d.pa r x ∧ bs = [x]) →
    ∃ t d', exec i s = .next t ∧ t.eng.partner = .device d' ∧
      t.ok = ((List.range (bs.length + 2)).all fun j => !d.nackAt.contains (d.count + j)) ∧
      (∀ j, j < bs.length → some (d'.reg (r + BitVec.ofNat 8 j)) = bs[j]?) ∧
      (∀ x, (∀ j, j < bs.length → x ≠ r + BitVec.ofNat 8 j) → d'.reg x = d.reg x) ∧
      d'.ptr = r + BitVec.ofNat 8 bs.length ∧ d'.atRest = true ∧ d'.pa = d.pa ∧ d'.nackAt = d.nackAt ∧
      d'.count = d.count + bs.length + 2

/-- R68, R72 (log 21: the reference and the fault-injecting partner are one type of device, PRESUMED from general
knowledge): RDREGS, RDREG and OSCRD addressed to a device at rest sample its registers from `r` up, wrapping at 256,
whatever it does not acknowledge (V55); OK is 1 iff none of the three transmitted bytes has a count in its set of bytes
that are not acknowledged (for the reference partner, whose set is empty, always), and then BUF holds the registers. Its
registers are unchanged and its pointer has moved. -/
def Obligations.ReferencePartnerReturnsItsRegisters : Prop :=
  ∀ (s : State) (d : Device) (r : RegAddr) (n : Nat) (i : Instr), s.eng.pins = idleBus →
    s.eng.partner = .device d → d.atRest = true →
    ((∃ k, k ≠ 0#8 ∧ i = .rdregs d.pa r k ∧ n = k.toNat) ∨ (i = .rdreg d.pa r ∧ n = 1) ∨
      (i = .oscrd ∧ d.pa = Config.osc.addr ∧ r = Config.osc.regBase ∧ n = 6)) →
    ∃ t d' tr, exec i s = .next t ∧ t.eng.partner = .device d' ∧ t.eng.trace = s.eng.trace ++ tr ∧
      samples tr = ((List.range 3).map fun j => d.nackAt.contains (d.count + j)) ++
        (List.range n).flatMap (fun j => bitsOf (d.reg (r + BitVec.ofNat 8 j))) ∧
      t.ok = ((List.range 3).all fun j => !d.nackAt.contains (d.count + j)) ∧
      (t.ok = true → ∀ j, j < n → t.buf.read j = some (d.reg (r + BitVec.ofNat 8 j))) ∧
      d'.regs = d.regs ∧ d'.ptr = r + BitVec.ofNat 8 n ∧ d'.atRest = true ∧ d'.pa = d.pa ∧ d'.nackAt = d.nackAt ∧
      d'.count = d.count + 3

/-- R68 (log 21: the device is PRESUMED from general knowledge): every register command of layers 2 and 3 that is ready and
sends another address than the device's ends with OK = 0, every sample having read 1 (so every received byte 0xFF), and
leaves the device's registers, pointer and count unchanged and the device at rest. -/
def Obligations.OtherAddressLeavesTheDeviceAlone : Prop :=
  ∀ (s : State) (d : Device) (i : Instr) (a : DevAddr), s.eng.pins = idleBus → s.eng.partner = .device d →
    d.atRest = true → addressee i = some a → a ≠ d.pa → s.ready i = true →
    ∃ t d' tr, exec i s = .next t ∧ t.eng.trace = s.eng.trace ++ tr ∧ t.eng.partner = .device d' ∧ t.ok = false ∧
      (∀ v ∈ samples tr, v = true) ∧ d'.regs = d.regs ∧ d'.ptr = d.ptr ∧ d'.atRest = true ∧ d'.pa = d.pa ∧
      d'.nackAt = d.nackAt ∧ d'.count = d.count

/-- T4, R68 (log 21: the reference partner is PRESUMED from general knowledge): the round trip. Bytes written by WRREGS to
a reference partner at rest are what RDREGS of the same registers returns, whatever the host puts in BUF in between. -/
def Obligations.WriteThenReadReturnsTheBytes : Prop :=
  ∀ (s : State) (d : Device) (r : RegAddr) (n : Byte) (bs : List Byte) (m : Memory), s.eng.pins = idleBus →
    s.eng.partner = .device d → d.atRest = true → d.nackAt = [] → n ≠ 0#8 → s.payload n.toNat = some bs →
    ∃ t u, exec (.wrregs d.pa r n) s = .next t ∧ exec (.rdregs d.pa r n) { t with buf := m } = .next u ∧
      u.ok = true ∧ u.payload n.toNat = some bs

/-- T5, R162, R72 (log 21: the fault-injecting partner is PRESUMED from general knowledge): OSCWR against a
fault-injecting device at the oscillator's address performs all four steps whatever is not acknowledged: the device holds
the freeze word, the block, the zero and the new-frequency word written in that order, and OK is 1 iff none of the 17
bytes is in its set of bytes that are not acknowledged. -/
def Obligations.OscwrIsFailSoft : Prop :=
  ∀ (s : State) (d : Device) (bs : List Byte), s.eng.pins = idleBus → s.eng.partner = .device d →
    d.atRest = true → d.pa = Config.osc.addr → s.payload 6 = some bs →
    ∃ t d', exec .oscwr s = .next t ∧ t.eng.partner = .device d' ∧
      t.ok = ((List.range 17).all fun j => !d.nackAt.contains (d.count + j)) ∧
      d'.regs = ((((d.withBytes Config.osc.regFreeze [Config.osc.freezeWord]).withBytes Config.osc.regBase bs).withBytes
        Config.osc.regFreeze [0x00#8]).withBytes Config.osc.regCtrl [Config.osc.newFreqWord]).regs ∧
      d'.atRest = true
end

