-- ==== Sys2Proof/Laws/Memory.lean ====
section
/-! SUPPORT. BUF: a read after a write, and that every operation keeps the canonical form. -/

namespace Sys2Proof.Machine

@[simp] theorem Memory.read_nil (i : Nat) : Memory.read [] i = none := rfl

theorem Memory.read_write (m : Memory) (i j : Nat) (v : Byte) :
    (m.write i v).read j = if j = i then some v else m.read j := by
  induction m with
  | nil => simp [Memory.write, Memory.read, unlistedByte]
  | cons c rest ih =>
    obtain ⟨k, w⟩ := c
    unfold Memory.write
    split
    · simp [Memory.read]
    · split
      · subst i
        simp [Memory.read]
        split <;> rfl
      · simp only [Memory.read, ih]
        split
        · rw [if_neg (by omega)]
        · rfl

@[simp] theorem Memory.read_write_same (m : Memory) (i : Nat) (v : Byte) : (m.write i v).read i = some v := by
  simp [Memory.read_write]

theorem Memory.read_write_other (m : Memory) {i j : Nat} (v : Byte) (h : j ≠ i) : (m.write i v).read j = m.read j := by
  simp [Memory.read_write, h]

theorem Memory.wfFrom_mono {lo lo' : Nat} (m : Memory) (h : lo' ≤ lo) (hw : Memory.wfFrom lo m = true) :
    Memory.wfFrom lo' m = true := by
  cases m with
  | nil => rfl
  | cons c rest =>
    simp only [Memory.wfFrom, Bool.and_eq_true, decide_eq_true_eq] at hw ⊢
    exact ⟨⟨by omega, hw.1.2⟩, hw.2⟩

theorem Memory.wfFrom_write (m : Memory) (lo i : Nat) (v : Byte) (hi : i < 256) (hlo : lo ≤ i)
    (hw : Memory.wfFrom lo m = true) : Memory.wfFrom lo (m.write i v) = true := by
  induction m generalizing lo with
  | nil => simp [Memory.write, Memory.wfFrom, hi, hlo]
  | cons c rest ih =>
    obtain ⟨k, w⟩ := c
    simp only [Memory.wfFrom, Bool.and_eq_true, decide_eq_true_eq] at hw
    unfold Memory.write
    split
    · simp [Memory.wfFrom, hi, hlo, hw.1.2, hw.2]; omega
    · split
      · subst i
        simp [Memory.wfFrom, hw]
      · simp [Memory.wfFrom, hw.1, ih (k + 1) (by omega) hw.2]

/-- Writing keeps the canonical form (R27: the index is below 256). -/
theorem Memory.wf_write (m : Memory) (i : Nat) (v : Byte) (hi : i < 256) (hw : m.wf = true) :
    (m.write i v).wf = true :=
  Memory.wfFrom_write m 0 i v hi (Nat.zero_le _) hw

theorem Memory.wf_fill (m : Memory) (i : Nat) (bs : List Byte) (hi : i + bs.length ≤ 256) (hw : m.wf = true) :
    (m.fill i bs).wf = true := by
  induction bs generalizing m i with
  | nil => exact hw
  | cons b rest ih =>
    simp only [List.length_cons] at hi
    exact ih (m.write i b) (i + 1) (by omega) (m.wf_write i b (by omega) hw)

/-- What BUF holds after bytes are written from `i` up. -/
theorem Memory.read_fill (m : Memory) (i j : Nat) (bs : List Byte) :
    (m.fill i bs).read j = if i ≤ j ∧ j < i + bs.length then bs[j - i]? else m.read j := by
  induction bs generalizing m i with
  | nil => simp [Memory.fill, show ¬(i ≤ j ∧ j < i) by omega]
  | cons b rest ih =>
    rw [Memory.fill, ih, Memory.read_write]
    simp only [List.length_cons]
    rcases Nat.lt_trichotomy j i with h | h | h
    · rw [if_neg (by omega), if_neg (by omega), if_neg (by omega)]
    · subst h
      rw [if_neg (by omega), if_pos rfl, if_pos (by omega)]
      simp
    · obtain ⟨k, rfl⟩ : ∃ k, j = i + 1 + k := ⟨j - i - 1, by omega⟩
      have e : i + 1 + k - i = k + 1 := by omega
      by_cases hk : k < rest.length
      · rw [if_pos (by omega), if_pos (by omega), e]
        simp
      · rw [if_neg (by omega), if_neg (by omega), if_neg (by omega)]

/-- A payload is exactly the entries it names (R61, R140). -/
theorem Memory.slice_eq_some (m : Memory) (i n : Nat) (bs : List Byte) :
    m.slice i n = some bs ↔ bs.length = n ∧ ∀ j, j < n → m.read (i + j) = bs[j]? := by
  induction n generalizing i bs with
  | zero =>
    cases bs <;> simp [Memory.slice]
  | succ k ih =>
    unfold Memory.slice
    constructor
    · intro h
      split at h
      · rename_i b rest hb hr
        obtain ⟨hl, hj⟩ := (ih (i + 1) rest).1 hr
        simp only [Option.some.injEq] at h
        subst h
        refine ⟨by simp [hl], fun j hjk => ?_⟩
        cases j with
        | zero => simp [hb]
        | succ j => rw [show i + (j + 1) = i + 1 + j by omega, hj j (by omega)]; simp
      · cases h
    · rintro ⟨hl, hj⟩
      cases bs with
      | nil => simp at hl
      | cons b rest =>
        have h0 : m.read i = some b := by simpa using hj 0 (by omega)
        have hr : m.slice (i + 1) k = some rest := (ih (i + 1) rest).2 ⟨by simpa using hl, fun j hjk => by
          have := hj (j + 1) (by omega)
          rw [show i + (j + 1) = i + 1 + j by omega] at this
          simpa using this⟩
        simp [h0, hr]

/-- A payload is missing exactly when an entry it names holds no value. -/
theorem Memory.slice_eq_none (m : Memory) (i n : Nat) :
    m.slice i n = none ↔ ∃ j, j < n ∧ m.read (i + j) = none := by
  induction n generalizing i with
  | zero => simp [Memory.slice]
  | succ k ih =>
    unfold Memory.slice
    cases h0 : m.read i with
    | none => simpa using ⟨0, by omega, by simpa using h0⟩
    | some b =>
      cases hr : m.slice (i + 1) k with
      | none =>
        obtain ⟨j, hj, he⟩ := (ih (i + 1)).1 hr
        simpa using ⟨j + 1, by omega, by rw [← he]; congr 1; omega⟩
      | some rest =>
        simp only [reduceCtorEq, false_iff, not_exists, not_and]
        intro j hj he
        cases j with
        | zero => simp [h0] at he
        | succ j =>
          have : m.slice (i + 1) k = none := (ih (i + 1)).2 ⟨j, by omega, by rw [← he]; congr 1; omega⟩
          simp [hr] at this

/-- The bytes a read delivers are as many as it received. -/
@[simp] theorem deliver_length (ok : Bool) (first : Nat) (ts : List Byte) : (deliver ok first ts).length = ts.length := by
  simp [deliver]

@[simp] theorem deliver_true (first : Nat) (ts : List Byte) : deliver true first ts = ts :=
  List.ext_getElem (by simp) (by simp [deliver])

theorem deliver_getElem (ok : Bool) (first i : Nat) (ts : List Byte) (h : i < ts.length) :
    (deliver ok first ts)[i]? = some (if ok then ts[i] else Config.failedReadByte (first + i)) := by
  simp [deliver, h]

end Sys2Proof.Machine
end

