-- ==== Sys2Proof/Laws/State.lean ====
section
/-! SUPPORT. One lemma per field of each update of the engine and of the state, true by rfl, so that no later proof
unfolds a record update. -/

namespace Sys2Proof.Machine

section EngineUpdates

variable (e : Engine) (v : Bool) (b : Byte) (n : Nat)

@[simp] theorem settle_eq : e.settle = e := rfl
@[simp] theorem driveSda_sdaOut : (e.driveSda v).sdaOut = v := rfl
@[simp] theorem driveSda_sclOut : (e.driveSda v).sclOut = e.sclOut := rfl
@[simp] theorem driveSda_seq : (e.driveSda v).seq = e.seq := rfl
@[simp] theorem driveSda_partner : (e.driveSda v).partner = e.partner.react v e.sclOut := rfl
@[simp] theorem driveSda_trace : (e.driveSda v).trace = e.trace ++ [.sda v] := rfl
@[simp] theorem driveSda_draws : (e.driveSda v).draws = e.draws := rfl
@[simp] theorem driveScl_sdaOut : (e.driveScl v).sdaOut = e.sdaOut := rfl
@[simp] theorem driveScl_sclOut : (e.driveScl v).sclOut = v := rfl
@[simp] theorem driveScl_seq : (e.driveScl v).seq = e.seq := rfl
@[simp] theorem driveScl_partner : (e.driveScl v).partner = e.partner.react e.sdaOut v := rfl
@[simp] theorem driveScl_trace : (e.driveScl v).trace = e.trace ++ [.scl v] := rfl
@[simp] theorem driveScl_draws : (e.driveScl v).draws = e.draws := rfl
@[simp] theorem sdahi_eq : e.sdahi = e.driveSda true := rfl
@[simp] theorem sdalo_eq : e.sdalo = e.driveSda false := rfl
@[simp] theorem sclhi_eq : e.sclhi = e.driveScl true := rfl
@[simp] theorem scllo_eq : e.scllo = e.driveScl false := rfl
@[simp] theorem sdaBit_eq : e.sdaBit v = e.driveSda v := by cases v <;> rfl
@[simp] theorem sdard_level : e.sdard.1 = e.sdaLine := rfl
@[simp] theorem sdard_sdaOut : (e.sdard.2).sdaOut = e.sdaOut := rfl
@[simp] theorem sdard_sclOut : (e.sdard.2).sclOut = e.sclOut := rfl
@[simp] theorem sdard_seq : (e.sdard.2).seq = e.seq := rfl
@[simp] theorem sdard_partner : (e.sdard.2).partner = e.partner := rfl
@[simp] theorem sdard_trace : (e.sdard.2).trace = e.trace ++ [.rd e.sdaLine] := rfl
@[simp] theorem sdard_draws : (e.sdard.2).draws = e.draws + 1 := rfl
@[simp] theorem loadShift_sdaOut : (e.loadShift b).sdaOut = e.sdaOut := rfl
@[simp] theorem loadShift_sclOut : (e.loadShift b).sclOut = e.sclOut := rfl
@[simp] theorem loadShift_partner : (e.loadShift b).partner = e.partner := rfl
@[simp] theorem loadShift_trace : (e.loadShift b).trace = e.trace := rfl
@[simp] theorem loadShift_draws : (e.loadShift b).draws = e.draws := rfl
@[simp] theorem loadShift_seq_phase : (e.loadShift b).seq.phase = e.seq.phase := rfl
@[simp] theorem loadShift_seq_acc : (e.loadShift b).seq.acc = e.seq.acc := rfl
@[simp] theorem loadShift_seq_shift : (e.loadShift b).seq.shift = b := rfl
@[simp] theorem loadShift_seq_bitCnt : (e.loadShift b).seq.bitCnt = 8 := rfl
@[simp] theorem loadShift_seq_idx : (e.loadShift b).seq.idx = e.seq.idx := rfl
@[simp] theorem setBitCnt_sdaOut : (e.setBitCnt n).sdaOut = e.sdaOut := rfl
@[simp] theorem setBitCnt_sclOut : (e.setBitCnt n).sclOut = e.sclOut := rfl
@[simp] theorem setBitCnt_partner : (e.setBitCnt n).partner = e.partner := rfl
@[simp] theorem setBitCnt_trace : (e.setBitCnt n).trace = e.trace := rfl
@[simp] theorem setBitCnt_draws : (e.setBitCnt n).draws = e.draws := rfl
@[simp] theorem setBitCnt_seq_phase : (e.setBitCnt n).seq.phase = e.seq.phase := rfl
@[simp] theorem setBitCnt_seq_acc : (e.setBitCnt n).seq.acc = e.seq.acc := rfl
@[simp] theorem setBitCnt_seq_shift : (e.setBitCnt n).seq.shift = e.seq.shift := rfl
@[simp] theorem setBitCnt_seq_bitCnt : (e.setBitCnt n).seq.bitCnt = n := rfl
@[simp] theorem setBitCnt_seq_idx : (e.setBitCnt n).seq.idx = e.seq.idx := rfl
@[simp] theorem setShiftBit_sdaOut : (e.setShiftBit n v).sdaOut = e.sdaOut := rfl
@[simp] theorem setShiftBit_sclOut : (e.setShiftBit n v).sclOut = e.sclOut := rfl
@[simp] theorem setShiftBit_partner : (e.setShiftBit n v).partner = e.partner := rfl
@[simp] theorem setShiftBit_trace : (e.setShiftBit n v).trace = e.trace := rfl
@[simp] theorem setShiftBit_draws : (e.setShiftBit n v).draws = e.draws := rfl
@[simp] theorem setShiftBit_seq_phase : (e.setShiftBit n v).seq.phase = e.seq.phase := rfl
@[simp] theorem setShiftBit_seq_acc : (e.setShiftBit n v).seq.acc = e.seq.acc := rfl
@[simp] theorem setShiftBit_seq_shift : (e.setShiftBit n v).seq.shift = setBit e.seq.shift n v := rfl
@[simp] theorem setShiftBit_seq_bitCnt : (e.setShiftBit n v).seq.bitCnt = e.seq.bitCnt := rfl
@[simp] theorem setShiftBit_seq_idx : (e.setShiftBit n v).seq.idx = e.seq.idx := rfl
@[simp] theorem openTransaction_sdaOut : (e.openTransaction).sdaOut = e.sdaOut := rfl
@[simp] theorem openTransaction_sclOut : (e.openTransaction).sclOut = e.sclOut := rfl
@[simp] theorem openTransaction_partner : (e.openTransaction).partner = e.partner := rfl
@[simp] theorem openTransaction_trace : (e.openTransaction).trace = e.trace := rfl
@[simp] theorem openTransaction_draws : (e.openTransaction).draws = e.draws := rfl
@[simp] theorem openTransaction_seq_phase : (e.openTransaction).seq.phase = e.seq.phase := rfl
@[simp] theorem openTransaction_seq_acc : (e.openTransaction).seq.acc = true := rfl
@[simp] theorem openTransaction_seq_shift : (e.openTransaction).seq.shift = e.seq.shift := rfl
@[simp] theorem openTransaction_seq_bitCnt : (e.openTransaction).seq.bitCnt = e.seq.bitCnt := rfl
@[simp] theorem openTransaction_seq_idx : (e.openTransaction).seq.idx = 0#8 := rfl
@[simp] theorem nextIdx_sdaOut : (e.nextIdx).sdaOut = e.sdaOut := rfl
@[simp] theorem nextIdx_sclOut : (e.nextIdx).sclOut = e.sclOut := rfl
@[simp] theorem nextIdx_partner : (e.nextIdx).partner = e.partner := rfl
@[simp] theorem nextIdx_trace : (e.nextIdx).trace = e.trace := rfl
@[simp] theorem nextIdx_draws : (e.nextIdx).draws = e.draws := rfl
@[simp] theorem nextIdx_seq_phase : (e.nextIdx).seq.phase = e.seq.phase := rfl
@[simp] theorem nextIdx_seq_acc : (e.nextIdx).seq.acc = e.seq.acc := rfl
@[simp] theorem nextIdx_seq_shift : (e.nextIdx).seq.shift = e.seq.shift := rfl
@[simp] theorem nextIdx_seq_bitCnt : (e.nextIdx).seq.bitCnt = e.seq.bitCnt := rfl
@[simp] theorem nextIdx_seq_idx : (e.nextIdx).seq.idx = e.seq.idx + 1#8 := rfl
@[simp] theorem foldAck_sdaOut : (e.foldAck v).sdaOut = e.sdaOut := rfl
@[simp] theorem foldAck_sclOut : (e.foldAck v).sclOut = e.sclOut := rfl
@[simp] theorem foldAck_partner : (e.foldAck v).partner = e.partner := rfl
@[simp] theorem foldAck_trace : (e.foldAck v).trace = e.trace := rfl
@[simp] theorem foldAck_draws : (e.foldAck v).draws = e.draws := rfl
@[simp] theorem foldAck_seq_phase : (e.foldAck v).seq.phase = e.seq.phase := rfl
@[simp] theorem foldAck_seq_acc : (e.foldAck v).seq.acc = (e.seq.acc && v) := rfl
@[simp] theorem foldAck_seq_shift : (e.foldAck v).seq.shift = e.seq.shift := rfl
@[simp] theorem foldAck_seq_bitCnt : (e.foldAck v).seq.bitCnt = e.seq.bitCnt := rfl
@[simp] theorem foldAck_seq_idx : (e.foldAck v).seq.idx = e.seq.idx := rfl

end EngineUpdates

section StateUpdates

variable (s : State) (v : Bool) (w : Word) (a : DevAddr) (r : RegAddr) (d : Byte) (bs : List Byte) (n : Nat)

@[simp] theorem launch_eng : (s.launch w).eng = { s.eng with seq := { Sequencer.idle with phase := .running } } := rfl
@[simp] theorem launch_ok : (s.launch w).ok = s.ok := rfl
@[simp] theorem launch_rdata : (s.launch w).rdata = s.rdata := rfl
@[simp] theorem launch_buf : (s.launch w).buf = s.buf := rfl
@[simp] theorem launch_snapshot : (s.launch w).snapshot = s.snapshot := rfl
@[simp] theorem launch_cmd : (s.launch w).cmd = w := rfl
@[simp] theorem launch_busy : (s.launch w).busy = true := rfl
@[simp] theorem launch_inputs : (s.launch w).inputs = s.inputs := rfl
@[simp] theorem complete_eng : (s.complete).eng = { s.eng with seq := Sequencer.idle } := rfl
@[simp] theorem complete_ok : (s.complete).ok = s.ok := rfl
@[simp] theorem complete_rdata : (s.complete).rdata = s.rdata := rfl
@[simp] theorem complete_buf : (s.complete).buf = s.buf := rfl
@[simp] theorem complete_snapshot : (s.complete).snapshot = s.snapshot := rfl
@[simp] theorem complete_cmd : (s.complete).cmd = s.cmd := rfl
@[simp] theorem complete_busy : (s.complete).busy = false := rfl
@[simp] theorem complete_inputs : (s.complete).inputs = s.inputs := rfl
@[simp] theorem setOk_eng : (s.setOk v).eng = s.eng := rfl
@[simp] theorem setOk_ok : (s.setOk v).ok = v := rfl
@[simp] theorem setOk_rdata : (s.setOk v).rdata = s.rdata := rfl
@[simp] theorem setOk_buf : (s.setOk v).buf = s.buf := rfl
@[simp] theorem setOk_snapshot : (s.setOk v).snapshot = s.snapshot := rfl
@[simp] theorem setOk_cmd : (s.setOk v).cmd = s.cmd := rfl
@[simp] theorem setOk_busy : (s.setOk v).busy = s.busy := rfl
@[simp] theorem setOk_inputs : (s.setOk v).inputs = s.inputs := rfl
@[simp] theorem wrregs_eng : (s.wrregs a r bs).eng = s.eng.writeTransaction a r bs := rfl
@[simp] theorem wrregs_ok : (s.wrregs a r bs).ok = (s.eng.writeTransaction a r bs).seq.acc := rfl
@[simp] theorem wrregs_rdata : (s.wrregs a r bs).rdata = s.rdata := rfl
@[simp] theorem wrregs_buf : (s.wrregs a r bs).buf = s.buf := rfl
@[simp] theorem wrregs_snapshot : (s.wrregs a r bs).snapshot = s.snapshot := rfl
@[simp] theorem wrregs_cmd : (s.wrregs a r bs).cmd = s.cmd := rfl
@[simp] theorem wrregs_busy : (s.wrregs a r bs).busy = s.busy := rfl
@[simp] theorem wrregs_inputs : (s.wrregs a r bs).inputs = s.inputs := rfl
@[simp] theorem wrreg_eq : s.wrreg a r d = s.wrregs a r [d] := rfl
@[simp] theorem rdregs_eng : (s.rdregs a r n).eng = { (s.eng.readTransaction a r n).2 with
      draws := (s.eng.readTransaction a r n).2.draws + n } := rfl
@[simp] theorem rdregs_ok : (s.rdregs a r n).ok = (s.eng.readTransaction a r n).2.seq.acc := rfl
@[simp] theorem rdregs_rdata : (s.rdregs a r n).rdata = s.rdata := rfl
@[simp] theorem rdregs_buf : (s.rdregs a r n).buf = s.buf.fill 0 (deliver (s.eng.readTransaction a r n).2.seq.acc
      (s.eng.readTransaction a r n).2.draws (s.eng.readTransaction a r n).1) := rfl
@[simp] theorem rdregs_snapshot : (s.rdregs a r n).snapshot = s.snapshot := rfl
@[simp] theorem rdregs_cmd : (s.rdregs a r n).cmd = s.cmd := rfl
@[simp] theorem rdregs_busy : (s.rdregs a r n).busy = s.busy := rfl
@[simp] theorem rdregs_inputs : (s.rdregs a r n).inputs = s.inputs := rfl
@[simp] theorem takeSnapshot_eng : s.takeSnapshot.eng = s.eng := rfl
@[simp] theorem takeSnapshot_ok : s.takeSnapshot.ok = s.ok := rfl
@[simp] theorem takeSnapshot_rdata : s.takeSnapshot.rdata = s.rdata := rfl
@[simp] theorem takeSnapshot_buf : s.takeSnapshot.buf = s.buf := rfl
@[simp] theorem takeSnapshot_cmd : s.takeSnapshot.cmd = s.cmd := rfl
@[simp] theorem takeSnapshot_busy : s.takeSnapshot.busy = s.busy := rfl
@[simp] theorem takeSnapshot_inputs : s.takeSnapshot.inputs = s.inputs := rfl
@[simp] theorem oscrd_eq : s.oscrd = s.rdregs Config.osc.addr Config.osc.regBase 6 := rfl

end StateUpdates

end Sys2Proof.Machine
end

