-- ==== Sys2Proof/Laws/Engine.lean ====
section
/-! SUPPORT. What each procedure of layers 0 to 2 does to the engine, said once: the events it records, the pins, the
flag, and the partner. `Engine.Ran e e' tr` says that the engine went from `e` to `e'` by the events `tr`. -/

namespace Sys2Proof.Machine

/-! ### Traces -/

theorem pinsAfter_append (p : Pins) (t1 t2 : List Event) : pinsAfter p (t1 ++ t2) = pinsAfter (pinsAfter p t1) t2 := by
  induction t1 generalizing p with
  | nil => rfl
  | cons x rest ih => cases x <;> simp [pinsAfter, ih]

@[simp] theorem samples_append (t1 t2 : List Event) : samples (t1 ++ t2) = samples t1 ++ samples t2 := by
  simp [samples, List.filterMap_append]

@[simp] theorem samples_nil : samples [] = [] := rfl
@[simp] theorem samples_sda (v : Bool) (tr : List Event) : samples (.sda v :: tr) = samples tr := rfl
@[simp] theorem samples_scl (v : Bool) (tr : List Event) : samples (.scl v :: tr) = samples tr := rfl
@[simp] theorem samples_rd (v : Bool) (tr : List Event) : samples (.rd v :: tr) = v :: samples tr := rfl

/-! ### The partner -/

/-- A partner that is no device never changes (R52, R71, R216). -/
theorem Partner.react_of_not_device (p : Partner) (a c : Bool) (h : ∀ d, p ≠ .device d) : p.react a c = p := by
  cases p with
  | device d => exact absurd rfl (h d)
  | oracle => rfl
  | absent => rfl
  | heldLow => rfl

theorem Device.shiftIn_bit_le (d : Device) (sda : Bool) (h : d.bit ≤ 9) : (d.shiftIn sda).bit ≤ 9 := by
  unfold Device.shiftIn
  split
  · show d.bit + 1 ≤ 9
    omega
  · split
    · exact Nat.le_refl 9
    · exact h

theorem Device.onRise_bit_le (d : Device) (sda : Bool) (h : d.bit ≤ 9) : (d.onRise sda).bit ≤ 9 := by
  have hs := d.shiftIn_bit_le sda h
  unfold Device.onRise
  split
  · exact hs
  · exact hs
  · exact hs
  · split
    · show d.bit + 1 ≤ 9
      omega
    · split
      · exact Nat.le_refl 9
      · exact h
  · exact h
  · exact h

theorem Device.onFall_bit_le (d : Device) (h : d.bit ≤ 9) : d.onFall.bit ≤ 9 := by
  unfold Device.onFall
  cases d.phase <;> (repeat' split) <;> first | exact h | exact Nat.zero_le 9

theorem Device.edge_bit_le (d : Device) (scl sda : Bool) (h : d.bit ≤ 9) : (d.edge scl sda).bit ≤ 9 := by
  unfold Device.edge
  split
  · exact Nat.zero_le 9
  split
  · exact h
  split
  · exact d.onRise_bit_le sda h
  split
  · exact d.onFall_bit_le h
  · exact h

/-- R63: the bit counter of a device stays in 0..9. -/
theorem Partner.react_bitInRange (p : Partner) (a c : Bool) (h : p.bitInRange = true) :
    (p.react a c).bitInRange = true := by
  cases p with
  | device d =>
    simp only [Partner.bitInRange, decide_eq_true_eq] at h
    simpa [Partner.react, Device.react, Partner.bitInRange] using d.edge_bit_le c _ h
  | oracle => rfl
  | absent => rfl
  | heldLow => rfl

/-! ### Running from one engine to another -/

theorem after_seq (e : Engine) (q : Sequencer) (x : Event) :
    ({ e with seq := q } : Engine).after x = { e.after x with seq := q } := by
  cases x <;> rfl

theorem replay_seq (e : Engine) (q : Sequencer) (tr : List Event) :
    ({ e with seq := q } : Engine).replay tr = { e.replay tr with seq := q } := by
  induction tr generalizing e with
  | nil => rfl
  | cons x rest ih => rw [Engine.replay, after_seq, ih, Engine.replay]

theorem replay_append (e : Engine) (t1 t2 : List Event) : e.replay (t1 ++ t2) = (e.replay t1).replay t2 := by
  induction t1 generalizing e with
  | nil => rfl
  | cons x rest ih => exact ih _

theorem hears_seq (e : Engine) (q : Sequencer) (tr : List Event) :
    ({ e with seq := q } : Engine).hears tr = e.hears tr := by
  induction tr generalizing e with
  | nil => rfl
  | cons x rest ih =>
    cases x with
    | sda v => exact ih (e.driveSda v)
    | scl v => exact ih (e.driveScl v)
    | rd v => exact congrArg _ (ih e.sdard.2)

theorem hears_append (e : Engine) (t1 t2 : List Event) :
    e.hears (t1 ++ t2) = (e.hears t1 && (e.replay t1).hears t2) := by
  induction t1 generalizing e with
  | nil => rfl
  | cons x rest ih =>
    cases x with
    | sda v => exact ih (e.driveSda v)
    | scl v => exact ih (e.driveScl v)
    | rd v =>
      show ((v == e.sdaLine) && e.sdard.2.hears (rest ++ t2)) = (((v == e.sdaLine) && e.sdard.2.hears rest) && _)
      rw [ih, Bool.and_assoc]
      rfl

/-- The engine went from `e` to `e'` by the events `tr`: they are appended, carried out again from `e` they lead to `e'`
but for the sequencer, they alone moved the pins, each sample is the line's level and drew one free value, the phase is
as it was, a partner that is no device is as it was, and a device kept its bit range. -/
structure Engine.Ran (e e' : Engine) (tr : List Event) : Prop where
  trace : e'.trace = e.trace ++ tr
  replays : e' = { e.replay tr with seq := e'.seq }
  heard : e.hears tr = true
  pins : e'.pins = pinsAfter e.pins tr
  draws : e'.draws = e.draws + (samples tr).length
  phase : e'.seq.phase = e.seq.phase
  partner : (∀ d, e.partner ≠ .device d) → e'.partner = e.partner
  bitInRange : e.partner.bitInRange = true → e'.partner.bitInRange = true

theorem Engine.Ran.refl (e : Engine) : e.Ran e [] :=
  ⟨by simp, rfl, rfl, rfl, rfl, rfl, fun _ => rfl, id⟩

theorem Engine.Ran.trans {e1 e2 e3 : Engine} {t1 t2 : List Event} (h1 : e1.Ran e2 t1) (h2 : e2.Ran e3 t2) :
    e1.Ran e3 (t1 ++ t2) where
  trace := by rw [h2.trace, h1.trace, List.append_assoc]
  replays := by
    have h := h2.replays
    rw [h1.replays, replay_seq] at h
    rw [replay_append]
    exact h
  heard := by
    have h := h2.heard
    rw [h1.replays, hears_seq] at h
    rw [hears_append, h1.heard, h]
    rfl
  pins := by rw [h2.pins, h1.pins, pinsAfter_append]
  draws := by rw [h2.draws, h1.draws, samples_append, List.length_append, Nat.add_assoc]
  phase := by rw [h2.phase, h1.phase]
  partner h := by rw [h2.partner (by rw [h1.partner h]; exact h), h1.partner h]
  bitInRange h := h2.bitInRange (h1.bitInRange h)

/-- A change of the sequencer's registers that keeps the phase is no event. -/
theorem Engine.Ran.seq {e e1 e2 : Engine} {tr : List Event} (h : e.Ran e1 tr)
    (he : e2 = { e1 with seq := e2.seq }) (hq : e2.seq.phase = e1.seq.phase) : e.Ran e2 tr := by
  rw [he]
  have hr : ({ e1 with seq := e2.seq } : Engine) = { e.replay tr with seq := e2.seq } := by rw [h.replays]
  exact ⟨h.trace, hr, h.heard, h.pins, h.draws, hq.trans h.phase, h.partner, h.bitInRange⟩

theorem driveSda_ran (e : Engine) (v : Bool) : e.Ran (e.driveSda v) [.sda v] :=
  ⟨rfl, rfl, rfl, rfl, rfl, rfl, e.partner.react_of_not_device v e.sclOut, e.partner.react_bitInRange v e.sclOut⟩

theorem driveScl_ran (e : Engine) (v : Bool) : e.Ran (e.driveScl v) [.scl v] :=
  ⟨rfl, rfl, rfl, rfl, rfl, rfl, e.partner.react_of_not_device e.sdaOut v, e.partner.react_bitInRange e.sdaOut v⟩

theorem sdard_ran (e : Engine) : e.Ran e.sdard.2 [.rd e.sdaLine] :=
  ⟨rfl, rfl, by simp [Engine.hears], rfl, rfl, rfl, fun _ => rfl, id⟩

/-! ### Layer 1 -/

/-- The events of `START` (R120). -/
def startTrace : List Event := [.sda true, .scl true, .sda false, .scl false]

/-- The events of `STOP` (R121). -/
def stopTrace : List Event := [.sda false, .scl true, .sda true]

/-- The events of `TXB b` whose sample returned `v` (R122). -/
def txTrace (b : Byte) (v : Bool) : List Event :=
  ((bitsOf b).flatMap fun x => [.sda x, .scl true, .scl false]) ++ [.sda true, .scl true, .rd v, .scl false]

/-- The events of `RXB k` whose samples returned `vs` (R123). -/
def rxTrace (vs : List Bool) (k : Bool) : List Event :=
  [.sda true] ++ (vs.flatMap fun v => [.scl true, .rd v, .scl false]) ++ (if k then [.sda false] else []) ++
  [.scl true, .scl false]

theorem start_ran (e : Engine) : e.Ran e.start startTrace :=
  (((driveSda_ran e true).trans (driveScl_ran _ true)).trans (driveSda_ran _ false)).trans (driveScl_ran _ false)

theorem stop_ran (e : Engine) : e.Ran e.stop stopTrace :=
  ((driveSda_ran e false).trans (driveScl_ran _ true)).trans (driveSda_ran _ true)

@[simp] theorem start_seq (e : Engine) : e.start.seq = e.seq := rfl
@[simp] theorem stop_seq (e : Engine) : e.stop.seq = e.seq := rfl

theorem txBit_ran (e : Engine) :
    e.Ran e.txBit [.sda (e.seq.shift.getLsbD (e.seq.bitCnt - 1)), .scl true, .scl false] := by
  have h := ((driveSda_ran e (e.seq.shift.getLsbD (e.seq.bitCnt - 1))).trans (driveScl_ran _ true)).trans
    (driveScl_ran _ false)
  rw [Engine.txBit, sdaBit_eq]
  exact h.seq rfl rfl

/-- The sample of the ninth pulse of `TXB b`. -/
def Engine.ackLevel (e : Engine) (b : Byte) : Bool := (e.txToAck b).sdaLine

theorem txToAck_ran (e : Engine) (b : Byte) :
    e.Ran (e.txToAck b) (((bitsOf b).flatMap fun x => [.sda x, .scl true, .scl false]) ++ [.sda true, .scl true]) := by
  have h0 : e.Ran (e.loadShift b) [] := (Engine.Ran.refl e).seq rfl rfl
  have h := ((((((((((h0.trans (txBit_ran _)).trans (txBit_ran _)).trans (txBit_ran _)).trans (txBit_ran _)).trans
    (txBit_ran _)).trans (txBit_ran _)).trans (txBit_ran _)).trans (txBit_ran _)).trans
    (driveSda_ran _ true)).trans (driveScl_ran _ true))
  simpa [Engine.txToAck, Engine.txBits, Engine.txBit, bitsOf] using h

/-- `TXB b` records `txTrace`, its sample being the line's level in the ninth pulse (R122). -/
theorem txb_ran (e : Engine) (b : Byte) : e.Ran (e.txb b).2 (txTrace b (e.ackLevel b)) := by
  have h := ((txToAck_ran e b).trans (sdard_ran _)).trans (driveScl_ran _ false)
  simpa [Engine.txb, txTrace, Engine.ackLevel, List.append_assoc] using h

@[simp] theorem txb_ack (e : Engine) (b : Byte) : (e.txb b).1 = !(e.ackLevel b) := by
  simp only [Engine.txb, sdard_level, ackOf, Engine.ackLevel]

@[simp] theorem txb_seq_acc (e : Engine) (b : Byte) : (e.txb b).2.seq.acc = e.seq.acc := by
  simp [Engine.txb, Engine.txToAck, Engine.txBits, Engine.txBit]

@[simp] theorem txb_seq_idx (e : Engine) (b : Byte) : (e.txb b).2.seq.idx = e.seq.idx := by
  simp [Engine.txb, Engine.txToAck, Engine.txBits, Engine.txBit]

/-- With a partner that is no device, the ninth pulse reads that partner's level (R51: the master has released). -/
theorem ackLevel_of_not_device (e : Engine) (b : Byte) (h : ∀ d, e.partner ≠ .device d) :
    e.ackLevel b = e.partner.level e.draws := by
  have hr := txToAck_ran e b
  have hs : (e.txToAck b).sdaOut = true := by simp [Engine.txToAck]
  have hd : (e.txToAck b).draws = e.draws := by simp [Engine.txToAck, Engine.txBits, Engine.txBit]
  simp [Engine.ackLevel, Engine.sdaLine, wiredAnd, hs, hd, hr.partner h]

/-- The engine at the sample number `j` (from 0) of `RXB`, and the level sampled there. -/
def Engine.rxBitLevel (e : Engine) : Bool := e.sclhi.sdaLine

/-- The levels of `n` turns of the receive loop. -/
def Engine.rxLevels (n : Nat) (e : Engine) : List Bool :=
  match n with
  | 0 => []
  | k + 1 => e.rxBitLevel :: Engine.rxLevels k e.rxBit

/-- The eight sampled levels of `RXB`, in order (R123). -/
def Engine.dataLevels (e : Engine) : List Bool := Engine.rxLevels 8 (e.sdahi.loadShift 0x00#8)

@[simp] theorem rxLevels_length (n : Nat) (e : Engine) : (Engine.rxLevels n e).length = n := by
  induction n generalizing e with
  | zero => rfl
  | succ k ih => simp [Engine.rxLevels, ih]

@[simp] theorem dataLevels_length (e : Engine) : e.dataLevels.length = 8 := rxLevels_length 8 _

theorem rxBit_ran (e : Engine) : e.Ran e.rxBit [.scl true, .rd e.rxBitLevel, .scl false] := by
  have h := ((driveScl_ran e true).trans (sdard_ran _)).trans (driveScl_ran _ false)
  exact h.seq rfl rfl

theorem rxBits_ran (n : Nat) (e : Engine) :
    e.Ran (Engine.rxBits n e) ((Engine.rxLevels n e).flatMap fun v => [.scl true, .rd v, .scl false]) := by
  induction n generalizing e with
  | zero => exact Engine.Ran.refl e
  | succ k ih => simpa [Engine.rxBits, Engine.rxLevels] using (rxBit_ran e).trans (ih e.rxBit)

theorem rxToAck_ran (e : Engine) :
    e.Ran e.rxToAck ([.sda true] ++ e.dataLevels.flatMap fun v => [.scl true, .rd v, .scl false]) := by
  have h0 : e.Ran (e.sdahi.loadShift 0x00#8) [.sda true] := (driveSda_ran e true).seq rfl rfl
  exact h0.trans (rxBits_ran 8 _)

/-- `RXB k` records `rxTrace` (R123). -/
theorem rxb_ran (e : Engine) (k : Bool) : e.Ran (e.rxb k).2 (rxTrace e.dataLevels k) := by
  cases k
  · have h := ((rxToAck_ran e).trans (driveScl_ran _ true)).trans (driveScl_ran _ false)
    simpa [Engine.rxb, rxTrace, List.append_assoc] using h
  · have h := (((rxToAck_ran e).trans (driveSda_ran _ false)).trans (driveScl_ran _ true)).trans (driveScl_ran _ false)
    simpa [Engine.rxb, rxTrace, List.append_assoc] using h

@[simp] theorem rxb_seq_acc (e : Engine) (k : Bool) : (e.rxb k).2.seq.acc = e.seq.acc := by
  cases k <;> simp [Engine.rxb, Engine.rxToAck, Engine.rxBits, Engine.rxBit]

@[simp] theorem rxb_seq_idx (e : Engine) (k : Bool) : (e.rxb k).2.seq.idx = e.seq.idx := by
  cases k <;> simp [Engine.rxb, Engine.rxToAck, Engine.rxBits, Engine.rxBit]

@[simp] theorem txb_pins (e : Engine) (b : Byte) : (e.txb b).2.pins = (true, false) := by
  simp [Engine.txb, Engine.pins, Engine.txToAck]

@[simp] theorem rxb_pins (e : Engine) (k : Bool) : (e.rxb k).2.pins = (!k, false) := by
  cases k <;> simp [Engine.rxb, Engine.pins, Engine.rxToAck, Engine.rxBits, Engine.rxBit]

/-! ### Bit placement -/

@[simp] theorem getLsbD_setBit (d : Byte) (i j : Nat) (v : Bool) (hi : i < 8) :
    (setBit d i v).getLsbD j = if j = i then v else d.getLsbD j := by
  unfold setBit
  by_cases hj : j < 8
  · cases v <;> simp [hj] <;> by_cases h : j = i <;> simp [h] <;> omega
  · have hne : j ≠ i := by omega
    have hd : d.getLsbD j = false := BitVec.getLsbD_of_ge d j (by omega)
    cases v <;> simp [hj, hne, hd]

/-- The eight levels placed from bit 7 down are the byte they spell (R53, R123). -/
theorem setBits_eq_byteOf (v7 v6 v5 v4 v3 v2 v1 v0 : Bool) :
    setBit (setBit (setBit (setBit (setBit (setBit (setBit (setBit 0#8 7 v7) 6 v6) 5 v5) 4 v4) 3 v3) 2 v2) 1 v1) 0 v0 =
      byteOf [v7, v6, v5, v4, v3, v2, v1, v0] := by
  revert v7 v6 v5 v4 v3 v2 v1 v0
  decide

/-- The byte `RXB` returns is the one its eight samples spell, the first in bit 7 (R53, R123). -/
theorem rxb_byte (e : Engine) (k : Bool) : (e.rxb k).1 = byteOf e.dataLevels := by
  have h := setBits_eq_byteOf
  simp [Engine.rxb, Engine.rxToAck, Engine.rxBits, Engine.rxBit, Engine.dataLevels, Engine.rxLevels,
    Engine.rxBitLevel, ← h]

/-- With a partner that is no device, sample `j` reads that partner's level (R51: the master has released). -/
theorem rxLevels_of_not_device (n : Nat) (e : Engine) (hs : e.sdaOut = true) (h : ∀ d, e.partner ≠ .device d) :
    Engine.rxLevels n e = (List.range n).map fun j => e.partner.level (e.draws + j) := by
  induction n generalizing e with
  | zero => rfl
  | succ k ih =>
    have hr := rxBit_ran e
    have hp : e.rxBit.partner = e.partner := hr.partner h
    have hd : e.rxBit.draws = e.draws + 1 := by simpa using hr.draws
    have hl : e.rxBitLevel = e.partner.level e.draws := by
      simp [Engine.rxBitLevel, Engine.sdaLine, wiredAnd, hs, e.partner.react_of_not_device _ _ h]
    rw [Engine.rxLevels, ih e.rxBit (by simp [Engine.rxBit, hs]) (by rw [hp]; exact h), List.range_succ_eq_map]
    simp [hp, hd, hl, Nat.add_assoc, Nat.add_comm 1]

theorem dataLevels_of_not_device (e : Engine) (h : ∀ d, e.partner ≠ .device d) :
    e.dataLevels = (List.range 8).map fun j => e.partner.level (e.draws + j) := by
  have hp : (e.sdahi.loadShift 0x00#8).partner = e.partner := e.partner.react_of_not_device _ _ h
  rw [Engine.dataLevels, rxLevels_of_not_device 8 _ rfl (by rw [hp]; exact h), hp]
  rfl

/-! ### Layer 2 -/

/-- The sampled ninth-pulse levels of a run of transmitted bytes. -/
def Engine.ackLevels (e : Engine) (bs : List Byte) : List Bool :=
  match bs with
  | [] => []
  | b :: rest => e.ackLevel b :: Engine.ackLevels (e.txbAcc b).nextIdx rest

@[simp] theorem ackLevels_length (e : Engine) (bs : List Byte) : (e.ackLevels bs).length = bs.length := by
  induction bs generalizing e with
  | nil => rfl
  | cons b rest ih => simp [Engine.ackLevels, ih]

theorem txbAcc_ran (e : Engine) (b : Byte) : e.Ran (e.txbAcc b) (txTrace b (e.ackLevel b)) :=
  (txb_ran e b).seq rfl rfl

@[simp] theorem txbAcc_seq_acc (e : Engine) (b : Byte) : (e.txbAcc b).seq.acc = (e.seq.acc && !(e.ackLevel b)) := by
  simp [Engine.txbAcc]

@[simp] theorem txbAcc_seq_idx (e : Engine) (b : Byte) : (e.txbAcc b).seq.idx = e.seq.idx := by
  simp [Engine.txbAcc]

/-- The events of transmitted bytes with their sampled levels. -/
def sendTrace (bs : List Byte) (as : List Bool) : List Event := (List.zipWith txTrace bs as).flatten

theorem sendBytes_ran (e : Engine) (bs : List Byte) : e.Ran (e.sendBytes bs) (sendTrace bs (e.ackLevels bs)) := by
  induction bs generalizing e with
  | nil => exact Engine.Ran.refl e
  | cons b rest ih =>
    have h1 : e.Ran (e.txbAcc b).nextIdx (txTrace b (e.ackLevel b)) := (txbAcc_ran e b).seq rfl rfl
    simpa [Engine.sendBytes, sendTrace, Engine.ackLevels] using h1.trans (ih _)

theorem sendBytes_seq_acc (e : Engine) (bs : List Byte) :
    (e.sendBytes bs).seq.acc = (e.seq.acc && (e.ackLevels bs).all (!·)) := by
  induction bs generalizing e with
  | nil => simp [Engine.sendBytes, Engine.ackLevels]
  | cons b rest ih => simp [Engine.sendBytes, Engine.ackLevels, ih, Bool.and_assoc]

/-- The engine after the start condition and the address byte of a transaction. -/
def Engine.addressed (e : Engine) (a : DevAddr) : Engine := e.openTransaction.start.txbAcc (addrByte a dirWrite)

/-- The sampled acknowledgments of a write transaction, in order (R86). -/
def Engine.writeAcks (e : Engine) (a : DevAddr) (r : RegAddr) (bs : List Byte) : List Bool :=
  e.openTransaction.start.ackLevel (addrByte a dirWrite) :: (e.addressed a).ackLevel r ::
  ((e.addressed a).txbAcc r).ackLevels bs

@[simp] theorem writeAcks_length (e : Engine) (a : DevAddr) (r : RegAddr) (bs : List Byte) :
    (e.writeAcks a r bs).length = bs.length + 2 := by
  simp [Engine.writeAcks]

/-- A write transaction records the write frame (R140, R86). -/
theorem writeTransaction_ran (e : Engine) (a : DevAddr) (r : RegAddr) (bs : List Byte) :
    e.Ran (e.writeTransaction a r bs)
      (startTrace ++ sendTrace (addrByte a dirWrite :: r :: bs) (e.writeAcks a r bs) ++ stopTrace) := by
  have h0 : e.Ran e.openTransaction [] := (Engine.Ran.refl e).seq rfl rfl
  have h := ((((h0.trans (start_ran _)).trans (txbAcc_ran _ (addrByte a dirWrite))).trans (txbAcc_ran _ r)).trans
    (sendBytes_ran _ bs)).trans (stop_ran _)
  simpa [Engine.writeTransaction, sendTrace, Engine.writeAcks, Engine.addressed, List.append_assoc] using h

/-- The flag of a write transaction: every sampled acknowledgment is 0 (R140, R144). -/
theorem writeTransaction_acc (e : Engine) (a : DevAddr) (r : RegAddr) (bs : List Byte) :
    (e.writeTransaction a r bs).seq.acc = (e.writeAcks a r bs).all (!·) := by
  simp [Engine.writeTransaction, sendBytes_seq_acc, Engine.writeAcks, Engine.addressed, Bool.and_assoc]

@[simp] theorem writeTransaction_pins (e : Engine) (a : DevAddr) (r : RegAddr) (bs : List Byte) :
    (e.writeTransaction a r bs).pins = (true, true) := rfl

/-- The samples of the bytes received with `left` of `n` still to come. -/
def Engine.recvLevels (n left : Nat) (e : Engine) : List (List Bool) :=
  match left with
  | 0 => []
  | k + 1 => e.dataLevels ::
      Engine.recvLevels n k (e.rxb (!(decide (e.seq.idx.toNat = n - 1)))).2.nextIdx

@[simp] theorem recvLevels_length (n left : Nat) (e : Engine) : (Engine.recvLevels n left e).length = left := by
  induction left generalizing e with
  | zero => rfl
  | succ k ih => simp [Engine.recvLevels, ih]

theorem recvLevels_eight (n left : Nat) (e : Engine) : ∀ vs ∈ Engine.recvLevels n left e, vs.length = 8 := by
  induction left generalizing e with
  | zero => simp [Engine.recvLevels]
  | succ k ih => simp [Engine.recvLevels]; exact ih _

theorem recvBytes_bytes (n left : Nat) (e : Engine) :
    (Engine.recvBytes n left e).1 = (Engine.recvLevels n left e).map byteOf := by
  induction left generalizing e with
  | zero => rfl
  | succ k ih => simp [Engine.recvBytes, Engine.recvLevels, rxb_byte, ih]

@[simp] theorem recvBytes_length (n left : Nat) (e : Engine) : (Engine.recvBytes n left e).1.length = left := by
  simp [recvBytes_bytes]

/-- The events of received bytes with the acknowledge flags the master gives them. -/
def recvTrace (vss : List (List Bool)) (ks : List Bool) : List Event := (List.zipWith rxTrace vss ks).flatten

/-- The acknowledge flags of `left` bytes: all but the last (R141). -/
def recvFlags (left : Nat) : List Bool := List.replicate (left - 1) true ++ if left = 0 then [] else [false]

theorem recvFlags_succ (k : Nat) : recvFlags (k + 1) = (!(decide (k = 0))) :: recvFlags k := by
  cases k with
  | zero => rfl
  | succ j => simp [recvFlags, List.replicate_succ]

/-- With `left` of `n` bytes to come and IDX at the byte that is next, all but the last are acknowledged. -/
theorem recvBytes_ran (n left : Nat) (e : Engine) (hn : n < 256) (hi : e.seq.idx.toNat + left = n) :
    e.Ran (Engine.recvBytes n left e).2 (recvTrace (Engine.recvLevels n left e) (recvFlags left)) := by
  induction left generalizing e with
  | zero => exact Engine.Ran.refl e
  | succ k ih =>
    have hk : (decide (e.seq.idx.toNat = n - 1)) = decide (k = 0) := by
      simp only [decide_eq_decide]; omega
    have h1 : e.Ran (e.rxb (!(decide (e.seq.idx.toNat = n - 1)))).2.nextIdx
        (rxTrace e.dataLevels (!(decide (k = 0)))) := by
      rw [← hk]
      exact (rxb_ran e _).seq rfl rfl
    have h2 := ih (e.rxb (!(decide (e.seq.idx.toNat = n - 1)))).2.nextIdx (by
      simp [BitVec.toNat_add]
      omega)
    simpa [Engine.recvBytes, Engine.recvLevels, recvFlags_succ, recvTrace] using h1.trans h2

@[simp] theorem recvBytes_acc (n left : Nat) (e : Engine) :
    (Engine.recvBytes n left e).2.seq.acc = e.seq.acc := by
  induction left generalizing e with
  | zero => rfl
  | succ k ih => simp [Engine.recvBytes, ih]

/-- The three sampled acknowledgments of a read transaction (R87). -/
def Engine.readAcks (e : Engine) (a : DevAddr) (r : RegAddr) : Bool × Bool × Bool :=
  (e.openTransaction.start.ackLevel (addrByte a dirWrite), (e.addressed a).ackLevel r,
    ((e.addressed a).txbAcc r).start.ackLevel (addrByte a dirRead))

/-- The events of a read transaction up to its third transmitted byte. -/
def readHeaderTrace (a : DevAddr) (r : RegAddr) (as : Bool × Bool × Bool) : List Event :=
  startTrace ++ txTrace (addrByte a dirWrite) as.1 ++ txTrace r as.2.1 ++ startTrace ++
  txTrace (addrByte a dirRead) as.2.2

theorem readHeader_ran (e : Engine) (a : DevAddr) (r : RegAddr) :
    e.Ran (e.readHeader a r) (readHeaderTrace a r (e.readAcks a r)) := by
  have h0 : e.Ran e.openTransaction [] := (Engine.Ran.refl e).seq rfl rfl
  have h := ((((h0.trans (start_ran _)).trans (txbAcc_ran _ (addrByte a dirWrite))).trans (txbAcc_ran _ r)).trans
    (start_ran _)).trans (txbAcc_ran _ (addrByte a dirRead))
  simpa [Engine.readHeader, readHeaderTrace, Engine.readAcks, Engine.addressed, List.append_assoc] using h

@[simp] theorem readHeader_idx (e : Engine) (a : DevAddr) (r : RegAddr) : (e.readHeader a r).seq.idx = 0#8 := by
  simp [Engine.readHeader]

/-- The flag of a read transaction: its three acknowledgments are 0 (R141). -/
theorem readHeader_acc (e : Engine) (a : DevAddr) (r : RegAddr) :
    (e.readHeader a r).seq.acc =
      (!(e.readAcks a r).1 && !(e.readAcks a r).2.1 && !(e.readAcks a r).2.2) := by
  simp [Engine.readHeader, Engine.readAcks, Engine.addressed]

@[simp] theorem readTransaction_acc (e : Engine) (a : DevAddr) (r : RegAddr) (n : Nat) :
    (e.readTransaction a r n).2.seq.acc = (e.readHeader a r).seq.acc := by
  simp [Engine.readTransaction]

@[simp] theorem readTransaction_length (e : Engine) (a : DevAddr) (r : RegAddr) (n : Nat) :
    (e.readTransaction a r n).1.length = n := by
  simp [Engine.readTransaction]

/-- A read transaction records the read frame (R141, R87). -/
theorem readTransaction_ran (e : Engine) (a : DevAddr) (r : RegAddr) (n : Nat) (hn : n < 256) :
    e.Ran (e.readTransaction a r n).2
      (readHeaderTrace a r (e.readAcks a r) ++
        recvTrace (Engine.recvLevels n n (e.readHeader a r)) (recvFlags n) ++ stopTrace) :=
  ((readHeader_ran e a r).trans (recvBytes_ran n n _ hn (by simp))).trans (stop_ran _)

@[simp] theorem readTransaction_pins (e : Engine) (a : DevAddr) (r : RegAddr) (n : Nat) :
    (e.readTransaction a r n).2.pins = (true, true) := rfl

end Sys2Proof.Machine
end

