-- ==== Sys2Proof/Laws/Frames.lean ====
section
/-! SUPPORT. What the recorded traces of layers 1 and 2 are as lists of primitives (R145) and as framing symbols (R84 to
R88). -/

namespace Sys2Proof.Machine

/-! ### One byte at a time -/

theorem recvTrace_cons (vs : List Bool) (vss : List (List Bool)) (k : Bool) (ks : List Bool) :
    recvTrace (vs :: vss) (k :: ks) = rxTrace vs k ++ recvTrace vss ks := rfl

theorem frameBytes_cons (b : Byte) (bs : List Byte) (v : Bool) (vs : List Bool) :
    frameBytes (b :: bs) (v :: vs) = frameByte b v ++ frameBytes bs vs := rfl

/-! ### Primitives -/

theorem prims_start : startTrace.map Event.prim = primsStart := rfl

theorem prims_stop : stopTrace.map Event.prim = primsStop := rfl

theorem prims_txTrace (b : Byte) (v : Bool) : (txTrace b v).map Event.prim = primsTxb b := rfl

theorem prims_rxTrace (vs : List Bool) (k : Bool) (h : vs.length = 8) : (rxTrace vs k).map Event.prim = primsRxb k := by
  have hm : ∀ us : List Bool, (us.flatMap fun v => [Event.scl true, .rd v, .scl false]).map Event.prim =
      (List.replicate us.length [Prim.scl true, .sample, .scl false]).flatten := by
    intro us
    induction us with
    | nil => rfl
    | cons u rest ih => simp [List.replicate_succ, Event.prim, ih]
  cases k <;> simp [rxTrace, primsRxb, hm, h, Event.prim]

theorem prims_sendTrace (bs : List Byte) (as : List Bool) (h : as.length = bs.length) :
    (sendTrace bs as).map Event.prim = bs.flatMap primsTxb := by
  induction bs generalizing as with
  | nil => rfl
  | cons b rest ih =>
    cases as with
    | nil => simp at h
    | cons v vs =>
      have := ih vs (by simpa using h)
      simp only [sendTrace] at this
      simp [sendTrace, prims_txTrace, this]

theorem prims_recvTrace (vss : List (List Bool)) (hv : ∀ vs ∈ vss, vs.length = 8) (hne : vss ≠ []) :
    (recvTrace vss (recvFlags vss.length)).map Event.prim =
      (List.replicate (vss.length - 1) (primsRxb true)).flatten ++ primsRxb false := by
  induction vss with
  | nil => exact absurd rfl hne
  | cons vs rest ih =>
    have h8 : vs.length = 8 := hv vs (by simp)
    rw [List.length_cons, recvFlags_succ]
    cases rest with
    | nil => simp [recvTrace, prims_rxTrace, h8, recvFlags]
    | cons us more =>
      rw [recvTrace_cons, List.map_append, ih (fun w hw => hv w (List.mem_cons_of_mem _ hw)) (by simp),
        prims_rxTrace _ _ h8]
      simp [List.replicate_succ]

/-! ### Samples -/

@[simp] theorem samples_startTrace : samples startTrace = [] := rfl
@[simp] theorem samples_stopTrace : samples stopTrace = [] := rfl
@[simp] theorem samples_txTrace (b : Byte) (v : Bool) : samples (txTrace b v) = [v] := rfl

@[simp] theorem samples_rxTrace (vs : List Bool) (k : Bool) : samples (rxTrace vs k) = vs := by
  have h : ∀ us : List Bool, samples (us.flatMap fun v => [.scl true, .rd v, .scl false]) = us := by
    intro us
    induction us with
    | nil => rfl
    | cons u rest ih => simp [ih]
  cases k <;> simp [rxTrace, h]

theorem samples_sendTrace (bs : List Byte) (as : List Bool) (h : as.length = bs.length) :
    samples (sendTrace bs as) = as := by
  induction bs generalizing as with
  | nil => cases as <;> simp_all [sendTrace]
  | cons b rest ih =>
    cases as with
    | nil => simp at h
    | cons v vs =>
      have e : sendTrace (b :: rest) (v :: vs) = txTrace b v ++ sendTrace rest vs := rfl
      rw [e, samples_append, samples_txTrace, ih vs (by simpa using h)]
      rfl

@[simp] theorem recvFlags_length (n : Nat) : (recvFlags n).length = n := by
  cases n <;> simp [recvFlags]

theorem samples_recvTrace (vss : List (List Bool)) (ks : List Bool) (h : ks.length = vss.length) :
    samples (recvTrace vss ks) = vss.flatten := by
  induction vss generalizing ks with
  | nil => cases ks <;> simp_all [recvTrace]
  | cons vs rest ih =>
    cases ks with
    | nil => simp at h
    | cons k more =>
      rw [recvTrace_cons, samples_append, samples_rxTrace, ih more (by simpa using h)]
      rfl

/-! ### Symbols -/

/-- The open clock pulse after a trace. -/
def pulseAfter (p : Pins) (pulse : Option Pulse) (tr : List Event) : Option Pulse :=
  match tr with
  | [] => pulse
  | .sda v :: rest =>
    if v = p.1 then pulseAfter p pulse rest
    else if p.2 then pulseAfter (v, p.2) none rest
    else pulseAfter (v, p.2) pulse rest
  | .scl v :: rest =>
    if v = p.2 then pulseAfter p pulse rest
    else if v then pulseAfter (p.1, v) (some { level := p.1, sampled := false }) rest
    else pulseAfter (p.1, v) none rest
  | .rd v :: rest => pulseAfter p (pulse.map fun q => q.hear v) rest

theorem masterSymbolsFrom_append (p : Pins) (pulse : Option Pulse) (t1 t2 : List Event) :
    masterSymbolsFrom p pulse (t1 ++ t2) =
      masterSymbolsFrom p pulse t1 ++ masterSymbolsFrom (pinsAfter p t1) (pulseAfter p pulse t1) t2 := by
  induction t1 generalizing p pulse with
  | nil => rfl
  | cons x rest ih =>
    obtain ⟨a, c⟩ := p
    cases x with
    | sda v =>
      cases v <;> cases a <;> cases c <;> simp [masterSymbolsFrom, pulseAfter, pinsAfter, ih]
    | scl v =>
      cases v <;> cases c <;> cases pulse <;> simp [masterSymbolsFrom, pulseAfter, pinsAfter, ih]
    | rd v => simp [masterSymbolsFrom, pulseAfter, pinsAfter, ih]

theorem pulseAfter_append (p : Pins) (pulse : Option Pulse) (t1 t2 : List Event) :
    pulseAfter p pulse (t1 ++ t2) = pulseAfter (pinsAfter p t1) (pulseAfter p pulse t1) t2 := by
  induction t1 generalizing p pulse with
  | nil => rfl
  | cons x rest ih =>
    obtain ⟨a, c⟩ := p
    cases x with
    | sda v => cases v <;> cases a <;> cases c <;> simp [pulseAfter, pinsAfter, ih]
    | scl v => cases v <;> cases c <;> simp [pulseAfter, pinsAfter, ih]
    | rd v => simp [pulseAfter, pinsAfter, ih]

/-- A trace that, from the given pins with no pulse open, shows these symbols and leaves no pulse open. -/
structure Shows (p : Pins) (tr : List Event) (ss : List Symbol) : Prop where
  symbols : masterSymbolsFrom p none tr = ss
  closed : pulseAfter p none tr = none

theorem Shows.nil (p : Pins) : Shows p [] [] := ⟨rfl, rfl⟩

theorem Shows.append {p : Pins} {t1 t2 : List Event} {s1 s2 : List Symbol} (h1 : Shows p t1 s1)
    (h2 : Shows (pinsAfter p t1) t2 s2) : Shows p (t1 ++ t2) (s1 ++ s2) :=
  ⟨by rw [masterSymbolsFrom_append, h1.symbols, h1.closed, h2.symbols],
    by rw [pulseAfter_append, h1.closed, h2.closed]⟩

/-- R120: from the idle bus or with the clock low, `START` is one start condition. -/
theorem shows_start (p : Pins) (h : p ≠ (false, true)) : Shows p startTrace [.start] := by
  obtain ⟨a, c⟩ := p
  cases a <;> cases c <;> first | exact absurd rfl h | exact ⟨rfl, rfl⟩

/-- R120, R220: `START` entered with data low and the clock high makes a stop condition first; otherwise the entry state
does not show. -/
theorem masterSymbols_start (p : Pins) (rest : List Event) :
    masterSymbols p (startTrace ++ rest) =
      (if p = (false, true) then [.stop] else []) ++ masterSymbols idleBus (startTrace ++ rest) := by
  obtain ⟨a, c⟩ := p
  cases a <;> cases c <;> simp [masterSymbols, masterSymbolsFrom, startTrace, idleBus]

/-- R121: with the clock low, `STOP` is one stop condition. -/
theorem shows_stop (a : Bool) : Shows (a, false) stopTrace [.stop] := by
  cases a <;> exact ⟨rfl, rfl⟩

@[simp] theorem pinsAfter_start (p : Pins) : pinsAfter p startTrace = (false, false) := rfl

@[simp] theorem pinsAfter_stop (p : Pins) : pinsAfter p stopTrace = (true, true) := rfl

@[simp] theorem pinsAfter_txTrace (p : Pins) (b : Byte) (v : Bool) : pinsAfter p (txTrace b v) = (true, false) := rfl

theorem shows_bit (a v : Bool) : Shows (a, false) [.sda v, .scl true, .scl false] [.bit v] := by
  cases a <;> cases v <;> exact ⟨rfl, rfl⟩

theorem shows_bits (a : Bool) (vs : List Bool) :
    Shows (a, false) (vs.flatMap fun v => [.sda v, .scl true, .scl false]) (vs.map Symbol.bit) := by
  induction vs generalizing a with
  | nil => exact Shows.nil _
  | cons v rest ih =>
    exact (shows_bit a v).append (ih v)

theorem pinsAfter_bits (a : Bool) (vs : List Bool) :
    (pinsAfter (a, false) (vs.flatMap fun v => [.sda v, .scl true, .scl false])).2 = false := by
  induction vs generalizing a with
  | nil => rfl
  | cons v rest ih => exact ih v

theorem shows_ack (a v : Bool) : Shows (a, false) [.sda true, .scl true, .rd v, .scl false] [.bit v] := by
  cases a <;> cases v <;> exact ⟨rfl, rfl⟩

/-- R84, R122: entered with the clock low, `TXB b` is nine pulses, the byte's bits and then the sampled level. -/
theorem shows_txTrace (a : Bool) (b : Byte) (v : Bool) : Shows (a, false) (txTrace b v) (frameByte b v) := by
  refine (shows_bits a (bitsOf b)).append ?_
  have h := pinsAfter_bits a (bitsOf b)
  generalize pinsAfter (a, false) ((bitsOf b).flatMap fun v => [.sda v, .scl true, .scl false]) = q at h ⊢
  obtain ⟨x, c⟩ := q
  cases h
  exact shows_ack x v

theorem shows_sample (v : Bool) : Shows (true, false) [.scl true, .rd v, .scl false] [.bit v] := by
  cases v <;> exact ⟨rfl, rfl⟩

theorem shows_samples (vs : List Bool) :
    Shows (true, false) (vs.flatMap fun v => [.scl true, .rd v, .scl false]) (vs.map Symbol.bit) := by
  induction vs with
  | nil => exact Shows.nil _
  | cons v rest ih => exact (shows_sample v).append ih

theorem pinsAfter_samples (vs : List Bool) :
    pinsAfter (true, false) (vs.flatMap fun v => [.scl true, .rd v, .scl false]) = (true, false) := by
  induction vs with
  | nil => rfl
  | cons v rest ih => exact ih

@[simp] theorem pinsAfter_rxTrace (a : Bool) (vs : List Bool) (k : Bool) :
    pinsAfter (a, false) (rxTrace vs k) = (!k, false) := by
  have h : pinsAfter (a, false) [.sda true] = (true, false) := rfl
  simp only [rxTrace, pinsAfter_append, h, pinsAfter_samples]
  cases k <;> rfl

theorem bitsOf_byteOf (vs : List Bool) (h : vs.length = 8) : bitsOf (byteOf vs) = vs := by
  obtain ⟨v7, v6, v5, v4, v3, v2, v1, v0, rfl⟩ : ∃ v7 v6 v5 v4 v3 v2 v1 v0, vs = [v7, v6, v5, v4, v3, v2, v1, v0] := by
    match vs, h with
    | [v7, v6, v5, v4, v3, v2, v1, v0], _ => exact ⟨v7, v6, v5, v4, v3, v2, v1, v0, rfl⟩
  revert v7 v6 v5 v4 v3 v2 v1 v0
  decide

/-- The bits of the byte eight levels spell are those levels, the first in bit 7 (R53). -/
theorem getLsbD_byteOf (vs : List Bool) (h : vs.length = 8) (j : Nat) (hj : j < 8) :
    (byteOf vs).getLsbD (7 - j) = vs.getD j false := by
  have hb := bitsOf_byteOf vs h
  generalize byteOf vs = b at hb
  subst hb
  interval_cases j <;> rfl

/-- R84, R123: entered with the clock low, `RXB k` is nine pulses, the sampled levels and then 0 if it acknowledges. -/
theorem shows_rxTrace (a : Bool) (vs : List Bool) (k : Bool) (h : vs.length = 8) :
    Shows (a, false) (rxTrace vs k) (frameByte (byteOf vs) (!k)) := by
  have h0 : Shows (a, false) [.sda true] [] := by cases a <;> exact ⟨rfl, rfl⟩
  have hp : pinsAfter (a, false) [.sda true] = (true, false) := rfl
  have h1 := h0.append (by rw [hp]; exact shows_samples vs)
  have h2 : Shows (true, false) ((if k then [.sda false] else []) ++ [.scl true, .scl false]) [.bit (!k)] := by
    cases k <;> exact ⟨rfl, rfl⟩
  have h3 := h1.append (by rw [pinsAfter_append, hp, pinsAfter_samples]; exact h2)
  simpa [rxTrace, frameByte, bitsOf_byteOf vs h, List.append_assoc] using h3

theorem shows_sendTrace (a : Bool) (bs : List Byte) (as : List Bool) :
    Shows (a, false) (sendTrace bs as) (frameBytes bs as) := by
  induction bs generalizing a as with
  | nil => exact Shows.nil _
  | cons b rest ih =>
    cases as with
    | nil => exact Shows.nil _
    | cons v vs => simpa [sendTrace, frameBytes] using (shows_txTrace a b v).append (ih true vs)

theorem pinsAfter_sendTrace (a : Bool) (bs : List Byte) (as : List Bool) :
    (pinsAfter (a, false) (sendTrace bs as)).2 = false := by
  induction bs generalizing a as with
  | nil => rfl
  | cons b rest ih =>
    cases as with
    | nil => rfl
    | cons v vs => simpa [sendTrace, pinsAfter_append] using ih true vs

/-- R86: from the idle bus a write transaction is the write frame. -/
theorem shows_writeTransaction (a : DevAddr) (r : RegAddr) (bs : List Byte) (as : List Bool) :
    Shows idleBus (startTrace ++ sendTrace (addrByte a dirWrite :: r :: bs) as ++ stopTrace) (writeFrame a r bs as) := by
  refine ((shows_start idleBus (by decide)).append (shows_sendTrace false _ as)).append ?_
  rw [pinsAfter_append, pinsAfter_start]
  have h := pinsAfter_sendTrace false (addrByte a dirWrite :: r :: bs) as
  generalize pinsAfter (false, false) (sendTrace (addrByte a dirWrite :: r :: bs) as) = q at h ⊢
  obtain ⟨x, c⟩ := q
  cases h
  exact shows_stop x

theorem shows_recvTrace (a : Bool) (vss : List (List Bool)) (ks : List Bool) (hv : ∀ vs ∈ vss, vs.length = 8) :
    Shows (a, false) (recvTrace vss ks) (frameBytes (vss.map byteOf) (ks.map (!·))) := by
  induction vss generalizing a ks with
  | nil => exact Shows.nil _
  | cons vs rest ih =>
    cases ks with
    | nil => exact Shows.nil _
    | cons k more =>
      have h1 := shows_rxTrace a vs k (hv vs (by simp))
      have h2 := ih (!k) more fun w hw => hv w (by simp [hw])
      rw [recvTrace_cons, List.map_cons, List.map_cons, frameBytes_cons]
      exact h1.append (by rw [pinsAfter_rxTrace]; exact h2)

theorem pinsAfter_recvTrace (a : Bool) (vss : List (List Bool)) (ks : List Bool) :
    (pinsAfter (a, false) (recvTrace vss ks)).2 = false := by
  induction vss generalizing a ks with
  | nil => rfl
  | cons vs rest ih =>
    cases ks with
    | nil => rfl
    | cons k more => simpa [recvTrace, pinsAfter_append] using ih (!k) more

/-- R87: from the idle bus a read transaction of one byte or more is the read frame. -/
theorem shows_readTransaction (a : DevAddr) (r : RegAddr) (as : Bool × Bool × Bool) (vss : List (List Bool))
    (hv : ∀ vs ∈ vss, vs.length = 8) (hne : vss ≠ []) :
    Shows idleBus (readHeaderTrace a r as ++ recvTrace vss (recvFlags vss.length) ++ stopTrace)
      (readFrame a r as.1 as.2.1 as.2.2 (vss.map byteOf)) := by
  have hh : Shows idleBus (readHeaderTrace a r as)
      ([.start] ++ frameByte (addrByte a dirWrite) as.1 ++ frameByte r as.2.1 ++ [.start] ++
        frameByte (addrByte a dirRead) as.2.2) :=
    ((((shows_start idleBus (by decide)).append (shows_txTrace false _ _)).append (shows_txTrace true _ _)).append
      (shows_start (true, false) (by decide))).append (shows_txTrace false _ _)
  have hp : pinsAfter idleBus (readHeaderTrace a r as) = (true, false) := by
    simp [readHeaderTrace, pinsAfter_append]
  have h2 := hh.append (by rw [hp]; exact shows_recvTrace true vss (recvFlags vss.length) hv)
  have hf : (recvFlags vss.length).map (!·) = List.replicate (vss.length - 1) false ++ [true] := by
    cases vss with
    | nil => exact absurd rfl hne
    | cons vs rest => simp [recvFlags]
  have h3 := h2.append (t2 := stopTrace) (s2 := [.stop]) (by
    rw [pinsAfter_append, hp]
    have h := pinsAfter_recvTrace true vss (recvFlags vss.length)
    generalize pinsAfter (true, false) (recvTrace vss (recvFlags vss.length)) = q at h ⊢
    obtain ⟨x, c⟩ := q
    cases h
    exact shows_stop x)
  rw [hf] at h3
  simpa [readFrame] using h3

end Sys2Proof.Machine
end

