-- ==== Sys2Proof/Laws/Commands.lean ====
section
/-! SUPPORT. What the register procedures of layers 2 and 3 do to the state, said once, and the inversions of `exec` for
the commands that can stop. `State.Ran s t tr` says that the state went from `s` to `t` by the events `tr`. -/

namespace Sys2Proof.Machine

/-- The events `tr` are appended, they alone moved the pins, a partner that is no device is as it was, and a device kept
its bit range. -/
structure State.Ran (s t : State) (tr : List Event) : Prop where
  trace : t.eng.trace = s.eng.trace ++ tr
  pins : t.eng.pins = pinsAfter s.eng.pins tr
  partner : (∀ d, s.eng.partner ≠ .device d) → t.eng.partner = s.eng.partner
  bitInRange : s.eng.partner.bitInRange = true → t.eng.partner.bitInRange = true

theorem Engine.Ran.state {s t : State} {tr : List Event} (h : s.eng.Ran t.eng tr) : s.Ran t tr :=
  ⟨h.trace, h.pins, h.partner, h.bitInRange⟩

theorem State.Ran.trans {s1 s2 s3 : State} {t1 t2 : List Event} (h1 : s1.Ran s2 t1) (h2 : s2.Ran s3 t2) :
    s1.Ran s3 (t1 ++ t2) where
  trace := by rw [h2.trace, h1.trace, List.append_assoc]
  pins := by rw [h2.pins, h1.pins, pinsAfter_append]
  partner h := by rw [h2.partner (by rw [h1.partner h]; exact h), h1.partner h]
  bitInRange h := h2.bitInRange (h1.bitInRange h)

theorem State.Ran.complete {s t : State} {tr : List Event} (h : s.Ran t tr) : s.Ran t.complete tr :=
  ⟨h.trace, h.pins, h.partner, h.bitInRange⟩

theorem State.Ran.setOk {s t : State} {tr : List Event} (h : s.Ran t tr) (v : Bool) : s.Ran (t.setOk v) tr :=
  ⟨h.trace, h.pins, h.partner, h.bitInRange⟩

/-- The events of a write transaction with these sampled acknowledgments (R86). -/
def writeTrace (a : DevAddr) (r : RegAddr) (bs : List Byte) (as : List Bool) : List Event :=
  startTrace ++ sendTrace (addrByte a dirWrite :: r :: bs) as ++ stopTrace

/-- The events of a read transaction with these sampled acknowledgments and data levels (R87). -/
def readTrace (a : DevAddr) (r : RegAddr) (as : Bool × Bool × Bool) (vss : List (List Bool)) : List Event :=
  readHeaderTrace a r as ++ recvTrace vss (recvFlags vss.length) ++ stopTrace

theorem prims_writeTrace (a : DevAddr) (r : RegAddr) (bs : List Byte) (as : List Bool) (h : as.length = bs.length + 2) :
    (writeTrace a r bs as).map Event.prim = primsWrite a r bs := by
  rw [writeTrace, List.map_append, List.map_append, prims_sendTrace _ _ (by simpa using h), prims_start, prims_stop]
  rfl

theorem prims_readTrace (a : DevAddr) (r : RegAddr) (as : Bool × Bool × Bool) (vss : List (List Bool))
    (hv : ∀ vs ∈ vss, vs.length = 8) (hne : vss ≠ []) :
    (readTrace a r as vss).map Event.prim = primsRead a r vss.length := by
  simp [readTrace, readHeaderTrace, prims_recvTrace vss hv hne, prims_start, prims_stop, prims_txTrace, primsRead]

theorem samples_writeTrace (a : DevAddr) (r : RegAddr) (bs : List Byte) (as : List Bool)
    (h : as.length = bs.length + 2) : samples (writeTrace a r bs as) = as := by
  simp [writeTrace, samples_sendTrace _ _ (show as.length = (addrByte a dirWrite :: r :: bs).length by simpa using h)]

theorem samples_readTrace (a : DevAddr) (r : RegAddr) (as : Bool × Bool × Bool) (vss : List (List Bool)) :
    samples (readTrace a r as vss) = [as.1, as.2.1, as.2.2] ++ vss.flatten := by
  simp [readTrace, readHeaderTrace, samples_recvTrace]

@[simp] theorem pinsAfter_writeTrace (p : Pins) (a : DevAddr) (r : RegAddr) (bs : List Byte) (as : List Bool) :
    pinsAfter p (writeTrace a r bs as) = (true, true) := by
  rw [writeTrace, pinsAfter_append, pinsAfter_stop]

/-- The data levels of the read transaction of a state, byte by byte. -/
def State.readLevels (s : State) (a : DevAddr) (r : RegAddr) (n : Nat) : List (List Bool) :=
  Engine.recvLevels n n (s.eng.readHeader a r)

@[simp] theorem readLevels_length (s : State) (a : DevAddr) (r : RegAddr) (n : Nat) :
    (s.readLevels a r n).length = n := by
  simp [State.readLevels]

theorem readLevels_eight (s : State) (a : DevAddr) (r : RegAddr) (n : Nat) :
    ∀ vs ∈ s.readLevels a r n, vs.length = 8 :=
  recvLevels_eight n n _

theorem readLevels_ne_nil (s : State) (a : DevAddr) (r : RegAddr) {n : Nat} (h : n ≠ 0) : s.readLevels a r n ≠ [] :=
  fun e => h (by simpa using congrArg List.length e)

/-- WRREGS and WRREG as procedures (R140, R142). -/
theorem wrregs_ran (s : State) (a : DevAddr) (r : RegAddr) (bs : List Byte) :
    s.Ran (s.wrregs a r bs) (writeTrace a r bs (s.eng.writeAcks a r bs)) :=
  (writeTransaction_ran s.eng a r bs).state

theorem wrregs_flag (s : State) (a : DevAddr) (r : RegAddr) (bs : List Byte) :
    (s.wrregs a r bs).ok = (s.eng.writeAcks a r bs).all (!·) := by
  rw [wrregs_ok, writeTransaction_acc]

/-- RDREGS as a procedure (R141). -/
theorem rdregs_ran (s : State) (a : DevAddr) (r : RegAddr) (n : Nat) (hn : n < 256) :
    s.Ran (s.rdregs a r n) (readTrace a r (s.eng.readAcks a r) (s.readLevels a r n)) := by
  have h := readTransaction_ran s.eng a r n hn
  refine ⟨?_, ?_, h.partner, h.bitInRange⟩
  · simpa [readTrace, State.readLevels] using h.trace
  · have := h.pins
    simpa [readTrace, State.readLevels, Engine.pins] using this

theorem rdregs_flag (s : State) (a : DevAddr) (r : RegAddr) (n : Nat) :
    (s.rdregs a r n).ok =
      (!(s.eng.readAcks a r).1 && !(s.eng.readAcks a r).2.1 && !(s.eng.readAcks a r).2.2) := by
  rw [rdregs_ok, readTransaction_acc, readHeader_acc]

/-- The bytes a read receives. -/
theorem readTransaction_bytes (s : State) (a : DevAddr) (r : RegAddr) (n : Nat) :
    (s.eng.readTransaction a r n).1 = (s.readLevels a r n).map byteOf := by
  simp [Engine.readTransaction, recvBytes_bytes, State.readLevels]

/-- What a read leaves in BUF: the received bytes if every acknowledgment came, else free bytes (R141, R146). -/
theorem rdregs_read (s : State) (a : DevAddr) (r : RegAddr) (n j : Nat) :
    (s.rdregs a r n).buf.read j =
      if j < n then
        if (s.rdregs a r n).ok then ((s.readLevels a r n).map byteOf)[j]?
        else some (Config.failedReadByte ((s.eng.readTransaction a r n).2.draws + j))
      else s.buf.read j := by
  rw [rdregs_buf, Memory.read_fill, rdregs_ok]
  by_cases hj : j < n
  · rw [if_pos (by simpa using hj), if_pos hj, Nat.sub_zero, deliver_getElem _ _ _ _ (by simpa using hj)]
    split
    · simp [readTransaction_bytes, hj]
    · rfl
  · rw [if_neg (by simpa using hj), if_neg hj]

/-- The events of the four steps of OSCWR (R91, R160). -/
def State.oscTrace (s : State) (bs : List Byte) : List Event :=
  writeTrace Config.osc.addr Config.osc.regFreeze [Config.osc.freezeWord]
    (s.eng.writeAcks Config.osc.addr Config.osc.regFreeze [Config.osc.freezeWord]) ++
  writeTrace Config.osc.addr Config.osc.regBase bs
    (s.oscFreeze.eng.writeAcks Config.osc.addr Config.osc.regBase bs) ++
  writeTrace Config.osc.addr Config.osc.regFreeze [unfreezeWord]
    ((s.oscFreeze.oscBulk bs).eng.writeAcks Config.osc.addr Config.osc.regFreeze [unfreezeWord]) ++
  writeTrace Config.osc.addr Config.osc.regCtrl [Config.osc.newFreqWord]
    ((s.oscFreeze.oscBulk bs).oscUnfreeze.eng.writeAcks Config.osc.addr Config.osc.regCtrl [Config.osc.newFreqWord])

/-- OSCWR on the engine (R160): all four steps always run (R162). -/
theorem oscwr_eng_ran (s : State) (bs : List Byte) : s.eng.Ran (s.oscwr bs).eng (s.oscTrace bs) :=
  (((writeTransaction_ran s.eng _ _ _).trans (writeTransaction_ran s.oscFreeze.eng _ _ bs)).trans
    (writeTransaction_ran (s.oscFreeze.oscBulk bs).eng _ _ _)).trans
    (writeTransaction_ran (s.oscFreeze.oscBulk bs).oscUnfreeze.eng _ _ _)

/-- OSCWR as a procedure (R160). -/
theorem oscwr_ran (s : State) (bs : List Byte) : s.Ran (s.oscwr bs) (s.oscTrace bs) :=
  (oscwr_eng_ran s bs).state

/-- A read transaction's engine, with the events by name. -/
theorem readTransaction_eng_ran (s : State) (a : DevAddr) (r : RegAddr) (n : Nat) (hn : n < 256) :
    s.eng.Ran (s.eng.readTransaction a r n).2 (readTrace a r (s.eng.readAcks a r) (s.readLevels a r n)) := by
  simpa [readTrace, State.readLevels] using readTransaction_ran s.eng a r n hn

theorem prims_oscTrace (s : State) (bs : List Byte) : (s.oscTrace bs).map Event.prim = primsOscwr bs := by
  simp [State.oscTrace, prims_writeTrace, primsOscwr]

theorem oscwr_eng (s : State) (bs : List Byte) :
    (s.oscwr bs).eng = (s.oscFreeze.oscBulk bs).oscUnfreeze.oscCommit.eng := by
  simp only [State.oscwr, setOk_eng]

theorem oscwr_ok (s : State) (bs : List Byte) :
    (s.oscwr bs).ok = (s.oscFreeze.ok && (s.oscFreeze.oscBulk bs).ok && (s.oscFreeze.oscBulk bs).oscUnfreeze.ok &&
      (s.oscFreeze.oscBulk bs).oscUnfreeze.oscCommit.ok) := by
  simp only [State.oscwr, setOk_ok]

@[simp] theorem oscwr_rdata (s : State) (bs : List Byte) : (s.oscwr bs).rdata = s.rdata := rfl
@[simp] theorem oscwr_buf (s : State) (bs : List Byte) : (s.oscwr bs).buf = s.buf := rfl
@[simp] theorem oscwr_snapshot (s : State) (bs : List Byte) : (s.oscwr bs).snapshot = s.snapshot := rfl
@[simp] theorem oscwr_cmd (s : State) (bs : List Byte) : (s.oscwr bs).cmd = s.cmd := rfl
@[simp] theorem oscwr_busy (s : State) (bs : List Byte) : (s.oscwr bs).busy = s.busy := rfl
@[simp] theorem oscwr_inputs (s : State) (bs : List Byte) : (s.oscwr bs).inputs = s.inputs := rfl

/-! ### The boot read (R212) -/

/-- The snapshot is the first six entries of BUF; an entry without a value leaves its own as it was (R212). -/
theorem takeSnapshot_snapshot (s : State) (i : Fin 6) :
    s.takeSnapshot.snapshot[i] = (s.buf.read i.val).getD (s.snapshot[i.val]'(i.isLt)) := by
  simp [State.takeSnapshot]

/-- The boot read is OSCRD, then the snapshot of what that left in BUF. -/
theorem bootRead_eq (s : State) : s.bootRead = { s.oscrd.complete with snapshot := s.bootRead.snapshot } := by
  simp only [State.bootRead, State.takeSnapshot, State.complete]

@[simp] theorem bootRead_eng (s : State) : s.bootRead.eng = s.oscrd.complete.eng := by
  rw [bootRead_eq]

@[simp] theorem bootRead_ok (s : State) : s.bootRead.ok = s.oscrd.ok := by
  rw [bootRead_eq, complete_ok]

@[simp] theorem bootRead_buf (s : State) : s.bootRead.buf = s.oscrd.buf := by
  rw [bootRead_eq, complete_buf]

@[simp] theorem bootRead_busy (s : State) : s.bootRead.busy = false := by
  rw [bootRead_eq, complete_busy]

@[simp] theorem bootRead_inputs (s : State) : s.bootRead.inputs = s.inputs := by
  rw [bootRead_eq, complete_inputs, oscrd_eq, rdregs_inputs]

theorem bootRead_snapshot (s : State) (i : Fin 6) :
    s.bootRead.snapshot[i] = (s.oscrd.buf.read i.val).getD (s.oscrd.snapshot[i.val]'(i.isLt)) := by
  rw [State.bootRead]
  simp only [complete_snapshot]
  exact takeSnapshot_snapshot s.oscrd i

/-! ### When the commands that can stop run, and their inversions -/

/-- The byte count of a read that is not refused. -/
theorem toNat_ne_zero {n : Byte} (h : n ≠ 0#8) : n.toNat ≠ 0 :=
  fun e => h (BitVec.eq_of_toNat_eq (by simpa using e))

theorem exec_wrregs {s : State} {n : Byte} {bs : List Byte} (a : DevAddr) (r : RegAddr)
    (h : s.payload n.toNat = some bs) : exec (.wrregs a r n) s = .next (s.wrregs a r bs).complete := by
  simp only [exec, execWrregs, h]

theorem exec_rdregs {n : Byte} (s : State) (a : DevAddr) (r : RegAddr) (h : n ≠ 0#8) :
    exec (.rdregs a r n) s = .next (s.rdregs a r n.toNat).complete := by
  simp only [exec, execRdregs, if_neg h]

theorem exec_oscwr {s : State} {bs : List Byte} (h : s.payload 6 = some bs) :
    exec .oscwr s = .next (s.oscwr bs).complete := by
  simp only [exec, execOscwr, show s.payload blockLen = some bs from h]

theorem execWrregs_next {a : DevAddr} {r : RegAddr} {n : Byte} {s t : State} (h : execWrregs a r n s = .next t) :
    ∃ bs, s.payload n.toNat = some bs ∧ t = (s.wrregs a r bs).complete := by
  unfold execWrregs at h
  split at h
  · rename_i bs hb
    exact ⟨bs, hb, (Host.Outcome.next.inj h).symm⟩
  · cases h

theorem execRdregs_next {a : DevAddr} {r : RegAddr} {n : Byte} {s t : State} (h : execRdregs a r n s = .next t) :
    n ≠ 0#8 ∧ t = (s.rdregs a r n.toNat).complete := by
  unfold execRdregs at h
  split at h
  · cases h
  · rename_i hn
    exact ⟨hn, (Host.Outcome.next.inj h).symm⟩

theorem execOscwr_next {s t : State} (h : execOscwr s = .next t) :
    ∃ bs, s.payload blockLen = some bs ∧ t = (s.oscwr bs).complete := by
  unfold execOscwr at h
  split at h
  · rename_i bs hb
    exact ⟨bs, hb, (Host.Outcome.next.inj h).symm⟩
  · cases h

/-- What every command that ends does to the engine: it runs by the events it records to the engine `e`, then the
sequencer is idle; the numbering of the free values may have moved on. -/
theorem exec_ran {i : Instr} {s t : State} (h : exec i s = .next t) :
    ∃ e tr, s.eng.Ran e tr ∧ t.eng = { e with seq := Sequencer.idle, draws := t.eng.draws } := by
  cases i with
  | sdahi => cases h; exact ⟨_, _, driveSda_ran s.eng true, rfl⟩
  | sdalo => cases h; exact ⟨_, _, driveSda_ran s.eng false, rfl⟩
  | sclhi => cases h; exact ⟨_, _, driveScl_ran s.eng true, rfl⟩
  | scllo => cases h; exact ⟨_, _, driveScl_ran s.eng false, rfl⟩
  | sdard => cases h; exact ⟨_, _, sdard_ran s.eng, rfl⟩
  | start => cases h; exact ⟨_, _, start_ran s.eng, rfl⟩
  | stop => cases h; exact ⟨_, _, stop_ran s.eng, rfl⟩
  | txb b => cases h; exact ⟨_, _, txb_ran s.eng b, rfl⟩
  | rxb k => cases h; exact ⟨_, _, rxb_ran s.eng k, rfl⟩
  | wrregs a r n =>
    obtain ⟨bs, -, rfl⟩ := execWrregs_next h
    exact ⟨_, _, writeTransaction_ran s.eng a r bs, rfl⟩
  | rdregs a r n =>
    obtain ⟨-, rfl⟩ := execRdregs_next h
    exact ⟨_, _, readTransaction_eng_ran s a r n.toNat n.isLt, rfl⟩
  | wrreg a r d => cases h; exact ⟨_, _, writeTransaction_ran s.eng a r [d], rfl⟩
  | rdreg a r => cases h; exact ⟨_, _, readTransaction_eng_ran s a r 1 (by decide), rfl⟩
  | oscwr =>
    obtain ⟨bs, -, rfl⟩ := execOscwr_next h
    exact ⟨_, _, oscwr_eng_ran s bs, by rw [complete_eng]⟩
  | oscrd =>
    have ht : s.oscrd.complete = t := Host.Outcome.next.inj h
    subst ht
    refine ⟨_, _, readTransaction_eng_ran s Config.osc.addr Config.osc.regBase 6 (by decide), ?_⟩
    rw [complete_eng, oscrd_eq, rdregs_eng]

/-- A step is the boot read, the launched command, or the host's turn. -/
theorem step_cases {s t : State} (h : step s = .next t) :
    (s.bootPending = true ∧ t = s.bootRead) ∨
    (s.bootPending = false ∧ s.busy = true ∧ ∃ i, decode s.cmd = .ok i ∧ exec i s = .next t) ∨
    (s.busy = false ∧ t = s.hostTurn) := by
  unfold step at h
  split at h
  · rename_i hb
    exact Or.inl ⟨hb, (Host.Outcome.next.inj h).symm⟩
  · rename_i hb
    split at h
    · rename_i hy
      refine Or.inr (Or.inl ⟨by simpa using hb, hy, ?_⟩)
      unfold runCommand State.command at h
      split at h
      · rename_i i hi
        exact ⟨i, hi, h⟩
      · cases h
    · rename_i hy
      exact Or.inr (Or.inr ⟨by simpa using hy, (Host.Outcome.next.inj h).symm⟩)

end Sys2Proof.Machine
end

