-- ==== Sys2Proof/Laws/Alike.lean ====
section
/-! SUPPORT. The register procedures look at no result of an earlier command and not at what the sequencer held before
(R25, R30): two states that differ only there stay so. -/

namespace Sys2Proof.Machine

/-- Two engines that differ at most in the phase, the shift byte and the bit counter of the sequencer. -/
structure Engine.Alike (e e' : Engine) : Prop where
  eq : e' = { e with seq := e'.seq }
  acc : e'.seq.acc = e.seq.acc
  idx : e'.seq.idx = e.seq.idx

/-- `TXB` does not look at the sequencer it finds. -/
theorem txb_seq (e : Engine) (q : Sequencer) (b : Byte) :
    (({ e with seq := q } : Engine).txb b).1 = (e.txb b).1 ∧
    (({ e with seq := q } : Engine).txb b).2 =
      { (e.txb b).2 with seq := (({ e with seq := q } : Engine).txb b).2.seq } := by
  simp only [Engine.txb, Engine.txToAck, Engine.txBits, Engine.txBit, sdaBit_eq]
  exact ⟨rfl, rfl⟩

/-- `RXB` does not look at the sequencer it finds. -/
theorem rxb_seq (e : Engine) (q : Sequencer) (k : Bool) :
    (({ e with seq := q } : Engine).rxb k).1 = (e.rxb k).1 ∧
    (({ e with seq := q } : Engine).rxb k).2 =
      { (e.rxb k).2 with seq := (({ e with seq := q } : Engine).rxb k).2.seq } := by
  cases k <;> exact ⟨rfl, rfl⟩

theorem Engine.Alike.txb {e e' : Engine} (h : e.Alike e') (b : Byte) :
    (e'.txb b).1 = (e.txb b).1 ∧ (e.txb b).2.Alike (e'.txb b).2 := by
  obtain ⟨h1, h2, h3⟩ := h
  rw [h1]
  obtain ⟨k1, k2⟩ := txb_seq e e'.seq b
  exact ⟨k1, k2, by simp [h2], by simp [h3]⟩

theorem Engine.Alike.rxb {e e' : Engine} (h : e.Alike e') (k : Bool) :
    (e'.rxb k).1 = (e.rxb k).1 ∧ (e.rxb k).2.Alike (e'.rxb k).2 := by
  obtain ⟨h1, h2, h3⟩ := h
  rw [h1]
  obtain ⟨k1, k2⟩ := rxb_seq e e'.seq k
  exact ⟨k1, k2, by simp [h2], by simp [h3]⟩

theorem Engine.Alike.txbAcc {e e' : Engine} (h : e.Alike e') (b : Byte) : (e.txbAcc b).Alike (e'.txbAcc b) := by
  obtain ⟨k1, k2, k3, k4⟩ := h.txb b
  refine ⟨?_, ?_, ?_⟩
  · rw [Engine.txbAcc, k2]
    rfl
  · simp only [Engine.txbAcc, foldAck_seq_acc, k1, k3]
  · simp only [Engine.txbAcc, foldAck_seq_idx, k4]

theorem Engine.Alike.nextIdx {e e' : Engine} (h : e.Alike e') : e.nextIdx.Alike e'.nextIdx := by
  obtain ⟨k2, k3, k4⟩ := h
  exact ⟨by rw [k2]; rfl, k3, by simp [k4]⟩

theorem Engine.Alike.start {e e' : Engine} (h : e.Alike e') : e.start.Alike e'.start := by
  obtain ⟨k2, k3, k4⟩ := h
  exact ⟨by rw [k2]; rfl, k3, k4⟩

theorem Engine.Alike.stop {e e' : Engine} (h : e.Alike e') : e.stop.Alike e'.stop := by
  obtain ⟨k2, k3, k4⟩ := h
  exact ⟨by rw [k2]; rfl, k3, k4⟩

theorem Engine.Alike.sendBytes {e e' : Engine} (h : e.Alike e') (bs : List Byte) :
    (e.sendBytes bs).Alike (e'.sendBytes bs) := by
  induction bs generalizing e e' with
  | nil => exact h
  | cons b rest ih => exact ih (h.txbAcc b).nextIdx

theorem Engine.Alike.recvBytes {e e' : Engine} (h : e.Alike e') (n left : Nat) :
    (Engine.recvBytes n left e').1 = (Engine.recvBytes n left e).1 ∧
    (Engine.recvBytes n left e).2.Alike (Engine.recvBytes n left e').2 := by
  induction left generalizing e e' with
  | zero => exact ⟨rfl, h⟩
  | succ k ih =>
    simp only [Engine.recvBytes, h.idx]
    obtain ⟨k1, k2⟩ := h.rxb (!decide (e.seq.idx.toNat = n - 1))
    obtain ⟨i1, i2⟩ := ih k2.nextIdx
    exact ⟨by rw [k1, i1], i2⟩

theorem openTransaction_alike (e : Engine) (q : Sequencer) :
    e.openTransaction.Alike ({ e with seq := q } : Engine).openTransaction := ⟨rfl, rfl, rfl⟩

theorem writeTransaction_alike (e : Engine) (q : Sequencer) (a : DevAddr) (r : RegAddr) (bs : List Byte) :
    (e.writeTransaction a r bs).Alike (({ e with seq := q } : Engine).writeTransaction a r bs) :=
  (((((openTransaction_alike e q).start.txbAcc _).txbAcc r).sendBytes bs)).stop

theorem readTransaction_alike (e : Engine) (q : Sequencer) (a : DevAddr) (r : RegAddr) (n : Nat) :
    (({ e with seq := q } : Engine).readTransaction a r n).1 = (e.readTransaction a r n).1 ∧
    (e.readTransaction a r n).2.Alike (({ e with seq := q } : Engine).readTransaction a r n).2 := by
  obtain ⟨h1, h2⟩ :=
    (((((openTransaction_alike e q).start.txbAcc (addrByte a dirWrite)).txbAcc r).start.txbAcc
      (addrByte a dirRead))).recvBytes n n
  exact ⟨h1, h2.stop⟩

/-- Two states that differ at most in OK, RDATA, SNAPSHOT, CMD, BUSY and the sequencer. -/
structure State.Alike (s s' : State) : Prop where
  eng : s'.eng = { s.eng with seq := s'.eng.seq }
  buf : s'.buf = s.buf
  inputs : s'.inputs = s.inputs

theorem State.Alike.wrregs {s s' : State} (h : s.Alike s') (a : DevAddr) (r : RegAddr) (bs : List Byte) :
    (s.wrregs a r bs).Alike (s'.wrregs a r bs) ∧ (s'.wrregs a r bs).ok = (s.wrregs a r bs).ok := by
  obtain ⟨h1, h2, h3⟩ := writeTransaction_alike s.eng s'.eng.seq a r bs
  rw [← h.eng] at h1 h2
  exact ⟨⟨h1, h.buf, h.inputs⟩, h2⟩

theorem State.Alike.rdregs {s s' : State} (h : s.Alike s') (a : DevAddr) (r : RegAddr) (n : Nat) :
    (s.rdregs a r n).Alike (s'.rdregs a r n) ∧ (s'.rdregs a r n).ok = (s.rdregs a r n).ok := by
  obtain ⟨h0, h1, h2, h3⟩ := readTransaction_alike s.eng s'.eng.seq a r n
  rw [← h.eng] at h0 h1 h2
  have hd := congrArg Engine.draws h1
  simp only at hd
  refine ⟨⟨?_, ?_, h.inputs⟩, h2⟩
  · rw [rdregs_eng, rdregs_eng, h1]
  · rw [rdregs_buf, rdregs_buf, h0, h2, hd, h.buf]

/-- Alike states complete to states that differ at most in the results and CMD. -/
theorem State.Alike.complete {s s' : State} (h : s.Alike s') :
    s'.complete = { s.complete with ok := s'.ok, rdata := s'.rdata, snapshot := s'.snapshot, cmd := s'.cmd } := by
  obtain ⟨h1, h2, h4⟩ := h
  simp only [State.complete, h2, h4]
  rw [h1]

end Sys2Proof.Machine
end

