-- ==== Sys2Proof/Laws/Encoding.lean ====
section
/-! SUPPORT. The fields of a packed word, and the address byte, bit by bit (R80, R83). -/

namespace Sys2Proof

theorem getLsbD_packWord (op : Byte) (k : Bool) (a : DevAddr) (r : RegAddr) (n : Byte) (i : Nat) :
    (packWord op k a r n).getLsbD i =
      if i < 8 then n.getLsbD i
      else if i < 16 then r.getLsbD (i - 8)
      else if i < 23 then a.getLsbD (i - 16)
      else if i < 24 then k
      else op.getLsbD (i - 24) := by
  show BitVec.getLsbD (w := 8 + 1 + 7 + 8 + 8) (op ++ BitVec.ofBool k ++ a ++ r ++ n) i = _
  rw [BitVec.getLsbD_append, BitVec.getLsbD_append, BitVec.getLsbD_append, BitVec.getLsbD_append, BitVec.getLsbD_ofBool]
  by_cases h0 : i < 8
  · rw [if_pos h0, if_pos h0]
  by_cases h1 : i < 16
  · rw [if_neg h0, if_neg h0, if_pos h1, if_pos (by omega)]
  by_cases h2 : i < 23
  · rw [if_neg h0, if_neg h0, if_neg h1, if_pos h2, if_neg (by omega), if_pos (by omega), Nat.sub_sub]
  by_cases h3 : i < 24
  · rw [if_neg h0, if_neg h0, if_neg h1, if_neg h2, if_pos h3, if_neg (by omega), if_neg (by omega), if_pos (by omega)]
    simp [show i - 8 - 8 - 7 = 0 by omega]
  · rw [if_neg h0, if_neg h0, if_neg h1, if_neg h2, if_neg h3, if_neg (by omega), if_neg (by omega),
      if_neg (by omega), show i - 8 - 8 - 7 - 1 = i - 24 by omega]

variable (op : Byte) (k : Bool) (a : DevAddr) (r : RegAddr) (n : Byte) (w : Word)

@[simp] theorem fieldOp_packWord : fieldOp (packWord op k a r n) = op := by
  refine BitVec.eq_of_getLsbD_eq fun i hi => ?_
  rw [fieldOp, BitVec.getLsbD_extractLsb', getLsbD_packWord]
  simp [hi, show ¬(24 + i < 8) by omega, show ¬(24 + i < 16) by omega, show ¬(24 + i < 23) by omega,
    show ¬(24 + i < 24) by omega]

@[simp] theorem fieldK_packWord : fieldK (packWord op k a r n) = k := by
  rw [fieldK, getLsbD_packWord]
  rfl

@[simp] theorem fieldA_packWord : fieldA (packWord op k a r n) = a := by
  refine BitVec.eq_of_getLsbD_eq fun i hi => ?_
  rw [fieldA, BitVec.getLsbD_extractLsb', getLsbD_packWord]
  simp [hi, show ¬(16 + i < 8) by omega, show ¬(16 + i < 16) by omega, show 16 + i < 23 by omega]

@[simp] theorem fieldR_packWord : fieldR (packWord op k a r n) = r := by
  refine BitVec.eq_of_getLsbD_eq fun i hi => ?_
  rw [fieldR, BitVec.getLsbD_extractLsb', getLsbD_packWord]
  simp [hi, show ¬(8 + i < 8) by omega, show 8 + i < 16 by omega]

@[simp] theorem fieldN_packWord : fieldN (packWord op k a r n) = n := by
  refine BitVec.eq_of_getLsbD_eq fun i hi => ?_
  rw [fieldN, BitVec.getLsbD_extractLsb', getLsbD_packWord]
  simp [hi]

/-- The five fields of R80 are all of a word. -/
theorem packWord_fields : packWord (fieldOp w) (fieldK w) (fieldA w) (fieldR w) (fieldN w) = w := by
  refine BitVec.eq_of_getLsbD_eq fun i hi => ?_
  rw [getLsbD_packWord]
  simp only [fieldOp, fieldK, fieldA, fieldR, fieldN, BitVec.getLsbD_extractLsb']
  by_cases h0 : i < 8
  · simp [h0]
  by_cases h1 : i < 16
  · simp [h0, h1, show i - 8 < 8 by omega, show 8 + (i - 8) = i by omega]
  by_cases h2 : i < 23
  · simp [h0, h1, h2, show i - 16 < 7 by omega, show 16 + (i - 16) = i by omega]
  by_cases h3 : i < 24
  · obtain rfl : i = 23 := by omega
    rfl
  · simp [h0, h1, h2, h3, show i - 24 < 8 by omega, show 24 + (i - 24) = i by omega]

/-- A mask acts field by field. -/
theorem packWord_and (op' : Byte) (k' : Bool) (a' : DevAddr) (r' : RegAddr) (n' : Byte) :
    packWord op k a r n &&& packWord op' k' a' r' n' =
      packWord (op &&& op') (k && k') (a &&& a') (r &&& r') (n &&& n') := by
  refine BitVec.eq_of_getLsbD_eq fun i hi => ?_
  rw [BitVec.getLsbD_and, getLsbD_packWord, getLsbD_packWord, getLsbD_packWord]
  repeat' split
  all_goals simp

/-- Two packed words are equal exactly when their fields are. -/
theorem packWord_eq_packWord (op' : Byte) (k' : Bool) (a' : DevAddr) (r' : RegAddr) (n' : Byte) :
    packWord op k a r n = packWord op' k' a' r' n' ↔ op = op' ∧ k = k' ∧ a = a' ∧ r = r' ∧ n = n' := by
  constructor
  · intro h
    exact ⟨by simpa using congrArg fieldOp h, by simpa using congrArg fieldK h, by simpa using congrArg fieldA h,
      by simpa using congrArg fieldR h, by simpa using congrArg fieldN h⟩
  · rintro ⟨rfl, rfl, rfl, rfl, rfl⟩
    rfl

/-- A format answers its command exactly when its must-be-zero bits are zero (R81). -/
theorem ifZero_eq_ok {b : Bool} {i j : Instr} : ifZero b w i = .ok j ↔ b = true ∧ i = j := by
  cases b <;> simp [ifZero]

namespace Machine

theorem getLsbD_addrByte (dir : Bool) (i : Nat) :
    (addrByte a dir).getLsbD i = if i = 0 then dir else a.getLsbD (i - 1) := by
  show BitVec.getLsbD (w := 7 + 1) (a ++ BitVec.ofBool dir) i = _
  rw [BitVec.getLsbD_append, BitVec.getLsbD_ofBool]
  by_cases h : i = 0
  · simp [h]
  · simp [h, show ¬(i < 1) by omega]

end Machine

end Sys2Proof
end

