-- ==== Sys2Proof/Laws/Device.lean ====
section
/-! SUPPORT. What the reference device of R63 to R67 and R72 does with one clock pulse and with one whole byte, said
once, and what a device partner's engine does in START, STOP, TXB and RXB. -/

namespace Sys2Proof.Machine

/-- The data line at a level with the clock low, then one clock pulse: what a device sees of one bit of `TXB` (R122). -/
def Device.pulse (d : Device) (v : Bool) : Device := ((d.react v false).react v true).react v false

/-- The phases in which the device receives (R66). -/
def Device.receives (d : Device) : Bool :=
  match d.phase with
  | .addr => true
  | .wptr => true
  | .wdata => true
  | .idle => false
  | .rdata => false
  | .wait => false

/-- A receiving device takes one of the first seven bits (R66). -/
theorem pulse_receive (d : Device) (v : Bool) (hp : d.receives = true) (hb : d.bit < 7) (hs : d.pSda = true)
    (hc : d.pscl = false) :
    d.pulse v = { d with sh := d.sh.extractLsb' 0 7 ++ BitVec.ofBool v, bit := d.bit + 1, psda := v } := by
  obtain ⟨pa, regs, ptr, phase, bit, sh, rw, mack, pSda, pscl, psda, nackAt, count⟩ := d
  simp only at hb hs hc
  subst hs hc
  have h8 : bit < 8 := by omega
  have e1 : ¬(bit + 1 = 8) := by omega
  have e2 : ¬(bit + 1 = 9) := by omega
  have e3 : ¬(bit = 7) := by omega
  have e4 : ¬(bit = 8) := by omega
  cases phase <;> simp only [Device.receives, Bool.false_eq_true] at hp <;>
    simp [Device.pulse, Device.react, Device.edge, Device.onRise, Device.onFall, Device.shiftIn, wiredAnd, h8, e3, e4]

/-- R53: eight shifts leave the byte, whatever was there before. -/
theorem shift_bitsOf (sh b : Byte) : (bitsOf b).foldl (fun x v => x.extractLsb' 0 7 ++ BitVec.ofBool v) sh = b := by
  refine BitVec.eq_of_getLsbD_eq fun i hi => ?_
  have hg : ∀ (x : Byte) (v : Bool) (j : Nat), (x.extractLsb' 0 7 ++ BitVec.ofBool v : BitVec 8).getLsbD j =
      if j = 0 then v else (decide (j - 1 < 7) && x.getLsbD (j - 1)) := by
    intro x v j
    show BitVec.getLsbD (w := 7 + 1) (x.extractLsb' 0 7 ++ BitVec.ofBool v) j = _
    rw [BitVec.getLsbD_append, BitVec.getLsbD_ofBool]
    by_cases h : j = 0
    · simp [h]
    · simp [h, show ¬(j < 1) by omega]
  interval_cases i <;> simp only [bitsOf, List.map, List.foldl, hg] <;> simp

/-- A device that receives a run of bits, at most seven in all (R66). -/
theorem pulses_receive (d : Device) (vs : List Bool) (hp : d.receives = true) (hb : d.bit + vs.length ≤ 7)
    (hs : d.pSda = true) (hc : d.pscl = false) :
    ∃ x, vs.foldl Device.pulse d =
      { d with sh := vs.foldl (fun x v => x.extractLsb' 0 7 ++ BitVec.ofBool v) d.sh, bit := d.bit + vs.length,
               psda := x } := by
  induction vs generalizing d with
  | nil => exact ⟨d.psda, rfl⟩
  | cons v rest ih =>
    rw [List.length_cons] at hb
    rw [List.foldl_cons, pulse_receive d v hp (by omega) hs hc]
    obtain ⟨x, hx⟩ := ih { d with sh := d.sh.extractLsb' 0 7 ++ BitVec.ofBool v, bit := d.bit + 1, psda := v } hp
      (by simp only; omega) hs hc
    refine ⟨x, ?_⟩
    rw [hx, List.length_cons, List.foldl_cons, Nat.add_assoc, Nat.add_comm 1]

/-- What the falling clock does to a device does not depend on the line levels it has seen (R67). -/
theorem onFall_lines (d : Device) (c x : Bool) :
    ({ d with pscl := c, psda := x } : Device).onFall = { d.onFall with pscl := c, psda := x } := by
  obtain ⟨pa, regs, ptr, phase, bit, sh, rw, mack, pSda, pscl, psda, nackAt, count⟩ := d
  cases phase <;> simp only [Device.onFall] <;> (repeat' split) <;> rfl

/-- A receiving device takes the eighth bit, and the falling clock ends the byte (R66, R67). -/
theorem pulse_receive_last (d : Device) (v : Bool) (hp : d.receives = true) (hb : d.bit = 7) (hs : d.pSda = true)
    (hc : d.pscl = false) :
    ∃ x, d.pulse v =
      { ({ d with sh := d.sh.extractLsb' 0 7 ++ BitVec.ofBool v, bit := 8 } : Device).onFall with
        pscl := false, psda := x } := by
  obtain ⟨pa, regs, ptr, phase, bit, sh, rw, mack, pSda, pscl, psda, nackAt, count⟩ := d
  simp only at hb hs hc
  subst hs hc hb
  have h := onFall_lines ⟨pa, regs, ptr, phase, 8, sh.extractLsb' 0 7 ++ BitVec.ofBool v, rw, mack, true, false, psda,
    nackAt, count⟩ true v
  cases phase <;> simp only [Device.receives, Bool.false_eq_true] at hp <;>
    simp [Device.pulse, Device.react, Device.edge, Device.onRise, Device.shiftIn, wiredAnd, h]

/-- A device at the start of a received byte. -/
structure Device.Open (d : Device) (ph : DevPhase) : Prop where
  phase : d.phase = ph
  bit : d.bit = 0
  pSda : d.pSda = true
  pscl : d.pscl = false

/-- A receiving device after the eight bits of a byte (R66, R67). -/
theorem pulses_byte (d : Device) (b : Byte) {ph : DevPhase} (h : d.Open ph) (hp : d.receives = true) :
    ∃ x, (bitsOf b).foldl Device.pulse d =
      { ({ d with sh := b, bit := 8 } : Device).onFall with pscl := false, psda := x } := by
  have e : bitsOf b = ([7, 6, 5, 4, 3, 2, 1].map fun i => b.getLsbD i) ++ [b.getLsbD 0] := rfl
  obtain ⟨x, hx⟩ := pulses_receive d ([7, 6, 5, 4, 3, 2, 1].map fun i => b.getLsbD i) hp (by simp [h.bit]) h.pSda h.pscl
  have hsh := shift_bitsOf d.sh b
  rw [e, List.foldl_append, List.foldl_cons, List.foldl_nil] at hsh
  rw [e, List.foldl_append, hx, List.foldl_cons, List.foldl_nil]
  obtain ⟨y, hy⟩ := pulse_receive_last { d with
    sh := ([7, 6, 5, 4, 3, 2, 1].map fun i => b.getLsbD i).foldl (fun x v => x.extractLsb' 0 7 ++ BitVec.ofBool v) d.sh
    bit := d.bit + ([7, 6, 5, 4, 3, 2, 1].map fun i => b.getLsbD i).length
    psda := x } (b.getLsbD 0) hp (by simp [h.bit]) h.pSda h.pscl
  refine ⟨y, ?_⟩
  rw [hy]
  simp only [hsh]
  have hl := onFall_lines { d with sh := b, bit := 8 } d.pscl x
  simp only at hl
  rw [hl]

/-- What a device does with a byte: its output in the ninth pulse (`ack`), and the device after it. -/
structure Device.Takes (d : Device) (b : Byte) (ack : Bool) (d' : Device) : Prop where
  level : ((((bitsOf b).foldl Device.pulse d).react true false).react true true).pSda = ack
  after : ((bitsOf b).foldl Device.pulse d).pulse true = d'

/-- A device that still receives in the ninth pulse holds its output through it, and the falling clock ends it. -/
theorem pulse_ninth (d : Device) (hp : d.receives = true) (hb : d.bit = 8) (hc : d.pscl = false) :
    ((d.react true false).react true true).pSda = d.pSda ∧
    d.pulse true = { ({ d with bit := 9 } : Device).onFall with
      pscl := false, psda := ({ d with bit := 9 } : Device).onFall.pSda } := by
  obtain ⟨pa, regs, ptr, phase, bit, sh, rw, mack, pSda, pscl, psda, nackAt, count⟩ := d
  simp only at hb hc
  subst hc hb
  have h := onFall_lines ⟨pa, regs, ptr, phase, 9, sh, rw, mack, pSda, false, psda, nackAt, count⟩ true pSda
  cases phase <;> simp only [Device.receives, Bool.false_eq_true] at hp <;>
    simp [Device.pulse, Device.react, Device.edge, Device.onRise, Device.shiftIn, wiredAnd, h]

/-- A received byte in two falls of the clock: the eighth sets the output of the ninth pulse, the ninth ends it. -/
theorem takes_of_onFall (d d8 d9 : Device) (b : Byte) {ph : DevPhase} (h : d.Open ph) (hp : d.receives = true)
    (h8 : ({ d with sh := b, bit := 8 } : Device).onFall = d8) (hp8 : d8.receives = true) (hb8 : d8.bit = 8)
    (h9 : ({ d8 with bit := 9 } : Device).onFall = d9) :
    d.Takes b d8.pSda { d9 with pscl := false, psda := d9.pSda } := by
  obtain ⟨x, hx⟩ := pulses_byte d b h hp
  rw [h8] at hx
  obtain ⟨k1, k2⟩ := pulse_ninth { d8 with pscl := false, psda := x } hp8 hb8 rfl
  have hl := onFall_lines { d8 with bit := 9 } false x
  simp only [h9] at hl
  exact ⟨by rw [hx]; exact k1, by rw [hx, k2]; simp only [hl]⟩

theorem addrByte_address (a : DevAddr) (dir : Bool) : (addrByte a dir).extractLsb' 1 7 = a := by
  refine BitVec.eq_of_getLsbD_eq fun i hi => ?_
  rw [BitVec.getLsbD_extractLsb', getLsbD_addrByte]
  simp [hi, Nat.add_comm 1 i]

theorem addrByte_dir (a : DevAddr) (dir : Bool) : (addrByte a dir).getLsbD 0 = dir := by
  rw [getLsbD_addrByte, if_pos rfl]

/-- R67: an address byte for this device, to be written, is acknowledged where its count is not in the set of R72. -/
theorem takes_address_write (d : Device) (h : d.Open .addr) :
    d.Takes (addrByte d.pa dirWrite) (d.nackAt.contains d.count)
      { d with sh := addrByte d.pa dirWrite, rw := false, count := d.count + 1, phase := .wptr, psda := true } := by
  have hd : ({ d with sh := addrByte d.pa dirWrite, bit := 8 } : Device).onFall =
      { d with sh := addrByte d.pa dirWrite, bit := 8, rw := false, pSda := d.nackAt.contains d.count,
               count := d.count + 1 } := by
    simp only [Device.onFall, h.phase, addrByte_address, addrByte_dir, dirWrite, Device.acknowledge, if_true]
  have := takes_of_onFall d _ _ (addrByte d.pa dirWrite) h (by simp [Device.receives, h.phase]) hd
    (by simp [Device.receives, h.phase]) rfl rfl
  obtain ⟨pa, regs, ptr, phase, bit, sh, rw, mack, pSda, pscl, psda, nackAt, count⟩ := d
  obtain ⟨h1, h2, h3, h4⟩ := h
  simp only at h1 h2 h3 h4
  subst h1 h2 h3 h4
  exact this

/-- R67: an address byte for this device, to be read, loads the register at the pointer. -/
theorem takes_address_read (d : Device) (h : d.Open .addr) :
    d.Takes (addrByte d.pa dirRead) (d.nackAt.contains d.count)
      { d with sh := d.reg d.ptr, rw := true, count := d.count + 1, phase := .rdata,
               pSda := (d.reg d.ptr).getLsbD 7, psda := (d.reg d.ptr).getLsbD 7 } := by
  have hd : ({ d with sh := addrByte d.pa dirRead, bit := 8 } : Device).onFall =
      { d with sh := addrByte d.pa dirRead, bit := 8, rw := true, pSda := d.nackAt.contains d.count,
               count := d.count + 1 } := by
    simp only [Device.onFall, h.phase, addrByte_address, addrByte_dir, dirRead, Device.acknowledge, if_true]
  have := takes_of_onFall d _ _ (addrByte d.pa dirRead) h (by simp [Device.receives, h.phase]) hd
    (by simp [Device.receives, h.phase]) rfl rfl
  obtain ⟨pa, regs, ptr, phase, bit, sh, rw, mack, pSda, pscl, psda, nackAt, count⟩ := d
  obtain ⟨h1, h2, h3, h4⟩ := h
  simp only at h1 h2 h3 h4
  subst h1 h2 h3 h4
  exact this

/-- R67: the pointer byte. -/
theorem takes_pointer (d : Device) (b : Byte) (h : d.Open .wptr) :
    d.Takes b (d.nackAt.contains d.count)
      { d with sh := b, ptr := b, count := d.count + 1, phase := .wdata, psda := true } := by
  have hd : ({ d with sh := b, bit := 8 } : Device).onFall =
      { d with sh := b, bit := 8, ptr := b, pSda := d.nackAt.contains d.count, count := d.count + 1 } := by
    simp only [Device.onFall, h.phase, Device.acknowledge, if_true]
  have := takes_of_onFall d _ _ b h (by simp [Device.receives, h.phase]) hd
    (by simp [Device.receives, h.phase]) rfl rfl
  obtain ⟨pa, regs, ptr, phase, bit, sh, rw, mack, pSda, pscl, psda, nackAt, count⟩ := d
  obtain ⟨h1, h2, h3, h4⟩ := h
  simp only at h1 h2 h3 h4
  subst h1 h2 h3 h4
  exact this

/-- R67: a data byte is stored at the pointer, which moves on. -/
theorem takes_data (d : Device) (b : Byte) (h : d.Open .wdata) :
    d.Takes b (d.nackAt.contains d.count)
      { d.setReg d.ptr b with sh := b, ptr := d.ptr + 1#8, count := d.count + 1, psda := true } := by
  have hd : ({ d with sh := b, bit := 8 } : Device).onFall =
      { d.setReg d.ptr b with sh := b, bit := 8, ptr := d.ptr + 1#8, pSda := d.nackAt.contains d.count,
                              count := d.count + 1 } := by
    simp only [Device.onFall, h.phase, Device.acknowledge, Device.setReg, if_true]
  have := takes_of_onFall d _ _ b h (by simp [Device.receives, h.phase]) hd
    (by simp [Device.receives, Device.setReg, h.phase]) rfl rfl
  obtain ⟨pa, regs, ptr, phase, bit, sh, rw, mack, pSda, pscl, psda, nackAt, count⟩ := d
  obtain ⟨h1, h2, h3, h4⟩ := h
  simp only at h1 h2 h3 h4
  subst h1 h2 h3 h4
  exact this

/-- A device that waits does nothing in a pulse (R66, R67). -/
theorem pulse_wait (d : Device) (v : Bool) (hp : d.phase = .wait) (hs : d.pSda = true) (hc : d.pscl = false) :
    d.pulse v = { d with psda := v } := by
  obtain ⟨pa, regs, ptr, phase, bit, sh, rw, mack, pSda, pscl, psda, nackAt, count⟩ := d
  simp only at hp hs hc
  subst hp hs hc
  simp [Device.pulse, Device.react, Device.edge, Device.onRise, Device.onFall, wiredAnd]

theorem pulses_wait (d : Device) (vs : List Bool) (hp : d.phase = .wait) (hs : d.pSda = true) (hc : d.pscl = false) :
    ∃ x, vs.foldl Device.pulse d = { d with psda := x } := by
  induction vs generalizing d with
  | nil => exact ⟨d.psda, rfl⟩
  | cons v rest ih =>
    rw [List.foldl_cons, pulse_wait d v hp hs hc]
    exact ih _ hp hs hc

/-- A device that waits leaves every byte without an acknowledgment (R67). -/
theorem takes_wait (d : Device) (b : Byte) (hp : d.phase = .wait) (hs : d.pSda = true) (hc : d.pscl = false) :
    d.Takes b true { d with psda := true } := by
  obtain ⟨x, hx⟩ := pulses_wait d (bitsOf b) hp hs hc
  constructor
  · rw [hx]
    obtain ⟨pa, regs, ptr, phase, bit, sh, rw, mack, pSda, pscl, psda, nackAt, count⟩ := d
    simp only at hp hs hc
    subst hp hs hc
    simp [Device.react, Device.edge, Device.onRise, wiredAnd]
  · rw [hx]
    exact pulse_wait { d with psda := x } true hp hs hc

/-- R67: an address byte for another device leaves this one waiting, without an acknowledgment. -/
theorem takes_other_address (d : Device) (a : DevAddr) (dir : Bool) (h : d.Open .addr) (ha : a ≠ d.pa) :
    d.Takes (addrByte a dir) true
      { d with sh := addrByte a dir, bit := 8, phase := .wait, psda := true } := by
  obtain ⟨x, hx⟩ := pulses_byte d (addrByte a dir) h (by simp [Device.receives, h.phase])
  have hd : ({ d with sh := addrByte a dir, bit := 8 } : Device).onFall =
      { d with sh := addrByte a dir, bit := 8, phase := .wait, pSda := true } := by
    simp only [Device.onFall, h.phase, addrByte_address, ha, if_true, if_false]
  rw [hd] at hx
  have hc := h.pscl
  have hs := h.pSda
  constructor
  · rw [hx]
    simp [Device.react, Device.edge, Device.onRise, wiredAnd]
  · rw [hx, pulse_wait _ _ rfl rfl rfl]
    simp [hc, hs]

/-! ### Reading from the device -/

/-- One clock pulse with the data line released: what a device sees of one bit of `RXB` (R123). -/
def Device.readPulse (d : Device) : Device := (d.react true true).react true false

/-- The levels a device puts on the line in `n` pulses of `RXB`. -/
def Device.levels (n : Nat) (d : Device) : List Bool :=
  match n with
  | 0 => []
  | k + 1 => (d.react true true).pSda :: Device.levels k d.readPulse

/-- The device after `n` pulses of `RXB`. -/
def Device.readPulses (n : Nat) (d : Device) : Device :=
  match n with
  | 0 => d
  | k + 1 => Device.readPulses k d.readPulse

/-- A sending device in one of the first seven pulses of a byte (R66, R67). -/
theorem readPulse_bit (d : Device) (hp : d.phase = .rdata) (hb : d.bit < 7) (hc : d.pscl = false) :
    (d.react true true).pSda = d.pSda ∧
    d.readPulse = { d with bit := d.bit + 1, pSda := d.sh.getLsbD (7 - (d.bit + 1)),
                           psda := d.sh.getLsbD (7 - (d.bit + 1)) } := by
  obtain ⟨pa, regs, ptr, phase, bit, sh, rw, mack, pSda, pscl, psda, nackAt, count⟩ := d
  simp only at hp hb hc
  subst hp hc
  have h8 : bit < 8 := by omega
  have h6 : bit + 1 ≤ 7 := by omega
  simp [Device.readPulse, Device.react, Device.edge, Device.onRise, Device.onFall, wiredAnd, h8, h6]

/-- A sending device in the eighth pulse: it releases the line for the acknowledgment (R67). -/
theorem readPulse_last (d : Device) (hp : d.phase = .rdata) (hb : d.bit = 7) (hc : d.pscl = false) :
    (d.react true true).pSda = d.pSda ∧ d.readPulse = { d with bit := 8, pSda := true, psda := true } := by
  obtain ⟨pa, regs, ptr, phase, bit, sh, rw, mack, pSda, pscl, psda, nackAt, count⟩ := d
  simp only at hp hb hc
  subst hp hb hc
  simp [Device.readPulse, Device.react, Device.edge, Device.onRise, Device.onFall, wiredAnd]

/-- A sending device puts the rest of the byte on the line, most significant bit first (R66, R67). -/
theorem readPulses_byte (n : Nat) (d : Device) (hp : d.phase = .rdata) (hb : d.bit + (n + 1) = 8)
    (hs : d.pSda = d.sh.getLsbD (7 - d.bit)) (hc : d.pscl = false) :
    Device.levels (n + 1) d = (List.range (n + 1)).map (fun i => d.sh.getLsbD (7 - (d.bit + i))) ∧
    Device.readPulses (n + 1) d = { d with bit := 8, pSda := true, psda := true } := by
  induction n generalizing d with
  | zero =>
    obtain ⟨h1, h2⟩ := readPulse_last d hp (by omega) hc
    exact ⟨by simp [Device.levels, h1, hs], by simp [Device.readPulses, h2]⟩
  | succ k ih =>
    obtain ⟨h1, h2⟩ := readPulse_bit d hp (by omega) hc
    obtain ⟨i1, i2⟩ := ih { d with bit := d.bit + 1, pSda := d.sh.getLsbD (7 - (d.bit + 1)),
                                   psda := d.sh.getLsbD (7 - (d.bit + 1)) } hp (by simp only; omega) rfl hc
    constructor
    · rw [Device.levels, h1, hs, h2, i1, List.range_succ_eq_map (n := k + 1), List.map_cons, List.map_map]
      refine congrArg _ (List.map_congr_left fun i _ => ?_)
      show d.sh.getLsbD (7 - (d.bit + 1 + i)) = d.sh.getLsbD (7 - (d.bit + (i + 1)))
      rw [Nat.add_assoc, Nat.add_comm 1]
    · rw [Device.readPulses, h2, i2]

theorem readPulse_wait (d : Device) (hp : d.phase = .wait) (hs : d.pSda = true) (hc : d.pscl = false) :
    (d.react true true).pSda = true ∧ d.readPulse = { d with psda := true } := by
  obtain ⟨pa, regs, ptr, phase, bit, sh, rw, mack, pSda, pscl, psda, nackAt, count⟩ := d
  simp only at hp hs hc
  subst hp hs hc
  simp [Device.readPulse, Device.react, Device.edge, Device.onRise, Device.onFall, wiredAnd]

/-- A device that waits leaves the line released in every pulse (R66, R67). -/
theorem readPulses_wait (n : Nat) (d : Device) (hp : d.phase = .wait) (hs : d.pSda = true) (hc : d.pscl = false) :
    Device.levels n d = List.replicate n true ∧ ∃ x, Device.readPulses n d = { d with psda := x } := by
  induction n generalizing d with
  | zero => exact ⟨rfl, d.psda, rfl⟩
  | succ k ih =>
    obtain ⟨h1, h2⟩ := readPulse_wait d hp hs hc
    obtain ⟨i1, i2⟩ := ih { d with psda := true } hp hs hc
    rw [Device.levels, Device.readPulses, h1, h2, i1]
    exact ⟨rfl, i2⟩

/-- The byte whose bits are those of `b` is `b` (R53). -/
theorem byteOf_bitsOf (b : Byte) : byteOf (bitsOf b) = b := shift_bitsOf 0#8 b

/-! ### The engine with a device partner -/

theorem txBits_device (n : Nat) (e : Engine) (d : Device) (hp : e.partner = .device d) (hc : e.sclOut = false)
    (hb : e.seq.bitCnt = n) :
    (Engine.txBits n e).partner =
      .device (((List.range n).map fun i => e.seq.shift.getLsbD (n - 1 - i)).foldl Device.pulse d) := by
  induction n generalizing e d with
  | zero => exact hp
  | succ k ih =>
    have h := ih e.txBit (d.pulse (e.seq.shift.getLsbD k))
      (by simp [Engine.txBit, hp, hc, hb, Partner.react, Device.pulse]) (by simp [Engine.txBit])
      (by simp [Engine.txBit, hb])
    have hsh : e.txBit.seq.shift = e.seq.shift := by simp [Engine.txBit]
    rw [Engine.txBits, h, List.range_succ_eq_map, List.map_cons, List.foldl_cons, hsh]
    simp [Nat.sub_sub, Nat.add_comm 1]
    rfl

/-- `TXB` with a device partner, entered with the clock low (R122). -/
theorem txb_device (e : Engine) (b : Byte) (d d' : Device) (ack : Bool) (hp : e.partner = .device d)
    (hc : e.sclOut = false) (h : d.Takes b ack d') :
    e.ackLevel b = ack ∧ (e.txb b).2.partner = .device d' := by
  have h8 := txBits_device 8 (e.loadShift b) d hp hc rfl
  have hb : ((List.range 8).map fun i => (e.loadShift b).seq.shift.getLsbD (8 - 1 - i)) = bitsOf b := rfl
  rw [hb] at h8
  have hs8 : (Engine.txBits 8 (e.loadShift b)).sclOut = false := by simp [Engine.txBits, Engine.txBit]
  constructor
  · rw [← h.level]
    simp [Engine.ackLevel, Engine.txToAck, Engine.sdaLine, wiredAnd, h8, hs8, Partner.react, Partner.level]
  · rw [← h.after]
    simp [Engine.txb, Engine.txToAck, h8, hs8, Partner.react, Device.pulse]

theorem rxBits_device (n : Nat) (e : Engine) (d : Device) (hp : e.partner = .device d) (hs : e.sdaOut = true)
    (hc : e.sclOut = false) :
    Engine.rxLevels n e = Device.levels n d ∧ (Engine.rxBits n e).partner = .device (Device.readPulses n d) := by
  induction n generalizing e d with
  | zero => exact ⟨rfl, hp⟩
  | succ k ih =>
    obtain ⟨h1, h2⟩ := ih e.rxBit d.readPulse (by simp [Engine.rxBit, hp, hs, Partner.react, Device.readPulse])
      (by simp [Engine.rxBit, hs]) (by simp [Engine.rxBit])
    constructor
    · rw [Engine.rxLevels, Device.levels, h1]
      simp [Engine.rxBitLevel, Engine.sdaLine, wiredAnd, hs, hp, Partner.react, Partner.level]
    · rw [Engine.rxBits, h2, Device.readPulses]

/-- A device about to send the byte in `sh` (R67). -/
structure Device.Sends (d : Device) : Prop where
  phase : d.phase = .rdata
  bit : d.bit = 0
  pSda : d.pSda = d.sh.getLsbD 7
  pscl : d.pscl = false

theorem rxToAck_sdaOut (e : Engine) : e.rxToAck.sdaOut = true := by
  simp [Engine.rxToAck, Engine.rxBits, Engine.rxBit]

theorem rxToAck_sclOut (e : Engine) : e.rxToAck.sclOut = false := by
  simp [Engine.rxToAck, Engine.rxBits, Engine.rxBit]

/-- The eight data pulses of `RXB` with a device that sends: the levels spell its byte, and it releases the line for the
acknowledgment (R67, R123). -/
theorem rxToAck_device (e : Engine) (d : Device) (hp : e.partner = .device d) (hc : e.sclOut = false) (h : d.Sends) :
    byteOf e.dataLevels = d.sh ∧ e.rxToAck.partner = .device { d with bit := 8, pSda := true, psda := true } := by
  obtain ⟨h1, h2, h3, h4⟩ := h
  have hr : d.react true false = { d with psda := d.pSda } := by
    obtain ⟨pa, regs, ptr, phase, bit, sh, rw, mack, pSda, pscl, psda, nackAt, count⟩ := d
    simp only at h1 h2 h3 h4
    subst h1 h2 h4
    simp [Device.react, Device.edge, wiredAnd]
  obtain ⟨l1, l2⟩ := rxBits_device 8 (e.sdahi.loadShift 0x00#8) { d with psda := d.pSda }
    (by simp [hp, hc, Partner.react, hr]) rfl hc
  obtain ⟨b1, b2⟩ := readPulses_byte 7 { d with psda := d.pSda } h1 (by simp [h2]) (by simp [h2, h3]) h4
  constructor
  · rw [Engine.dataLevels, l1, b1]
    simp only [h2, Nat.zero_add]
    exact byteOf_bitsOf d.sh
  · rw [Engine.rxToAck, l2, b2]

/-- The eight data pulses of `RXB` with a device that waits. -/
theorem rxToAck_wait (e : Engine) (d : Device) (hp : e.partner = .device d) (hc : e.sclOut = false)
    (h1 : d.phase = .wait) (h3 : d.pSda = true) (h4 : d.pscl = false) :
    e.dataLevels = List.replicate 8 true ∧ ∃ x, e.rxToAck.partner = .device { d with psda := x } := by
  have hr : d.react true false = { d with psda := d.pSda } := by
    obtain ⟨pa, regs, ptr, phase, bit, sh, rw, mack, pSda, pscl, psda, nackAt, count⟩ := d
    simp only at h1 h3 h4
    subst h1 h3 h4
    simp [Device.react, Device.edge, wiredAnd]
  obtain ⟨l1, l2⟩ := rxBits_device 8 (e.sdahi.loadShift 0x00#8) { d with psda := d.pSda }
    (by simp [hp, hc, Partner.react, hr]) rfl hc
  obtain ⟨b1, x, b2⟩ := readPulses_wait 8 { d with psda := d.pSda } h1 h3 h4
  exact ⟨by rw [Engine.dataLevels, l1, b1], x, by rw [Engine.rxToAck, l2, b2]⟩

/-- `RXB` with a device that sends: the byte is what the device shifts out; acknowledged, the device loads the next
register, else it waits (R67, R123). -/
theorem rxb_device (e : Engine) (k : Bool) (d : Device) (hp : e.partner = .device d) (hc : e.sclOut = false)
    (h : d.Sends) :
    byteOf e.dataLevels = d.sh ∧
    (e.rxb k).2.partner = .device
      (if k then { d with mack := true, ptr := d.ptr + 1#8, sh := d.reg (d.ptr + 1#8),
                          pSda := (d.reg (d.ptr + 1#8)).getLsbD 7, psda := false }
       else { d with mack := false, ptr := d.ptr + 1#8, bit := 9, phase := .wait, pSda := true, psda := true }) := by
  obtain ⟨hby, hpt⟩ := rxToAck_device e d hp hc h
  have hso := rxToAck_sdaOut e
  have hco := rxToAck_sclOut e
  obtain ⟨h1, h2, h3, h4⟩ := h
  refine ⟨hby, ?_⟩
  obtain ⟨pa, regs, ptr, phase, bit, sh, rw, mack, pSda, pscl, psda, nackAt, count⟩ := d
  simp only at h1 h2 h3 h4
  subst h1 h2 h3 h4
  cases k <;>
    simp [Engine.rxb, hpt, hso, hco, Partner.react, Device.react, Device.edge, Device.onRise, Device.onFall, wiredAnd,
      Device.loadRead, Device.reg]

/-- `RXB` with a device that waits: every sample reads 1, and the device goes on waiting. -/
theorem rxb_device_wait (e : Engine) (k : Bool) (d : Device) (hp : e.partner = .device d) (hc : e.sclOut = false)
    (h1 : d.phase = .wait) (h3 : d.pSda = true) (h4 : d.pscl = false) :
    e.dataLevels = List.replicate 8 true ∧ ∃ x, (e.rxb k).2.partner = .device { d with psda := x } := by
  obtain ⟨hby, x, hpt⟩ := rxToAck_wait e d hp hc h1 h3 h4
  have hso := rxToAck_sdaOut e
  have hco := rxToAck_sclOut e
  refine ⟨hby, ?_⟩
  obtain ⟨pa, regs, ptr, phase, bit, sh, rw, mack, pSda, pscl, psda, nackAt, count⟩ := d
  simp only at h1 h3 h4
  subst h1 h3 h4
  refine ⟨!k, ?_⟩
  cases k <;>
    simp [Engine.rxb, hpt, hso, hco, Partner.react, Device.react, Device.edge, Device.onRise, Device.onFall, wiredAnd]

/-- A start condition opens the address phase of a device at rest (R64). -/
theorem start_device (e : Engine) (d : Device) (hp : e.partner = .device d) (hb : e.pins = idleBus)
    (hd : d.atRest = true) :
    e.start.partner = .device { d with phase := .addr, bit := 0, sh := 0#8, pscl := false, psda := false } := by
  obtain ⟨pa, regs, ptr, phase, bit, sh, rw, mack, pSda, pscl, psda, nackAt, count⟩ := d
  simp only [Device.atRest, Bool.and_eq_true, beq_iff_eq] at hd
  obtain ⟨⟨⟨h1, h2⟩, h3⟩, h4⟩ := hd
  simp only [Engine.pins, idleBus, Prod.mk.injEq] at hb
  subst h1 h2 h3 h4
  simp [Engine.start, hp, hb, Partner.react, Device.react, Device.edge, Device.onStart, Device.onFall, wiredAnd]

/-- A device between two bytes that it receives, or waiting, with the line released. -/
structure Device.Between (d : Device) : Prop where
  phase : d.phase = .wptr ∨ d.phase = .wdata ∨ d.phase = .wait
  bit : d.phase = .wait ∨ d.bit = 0
  pSda : d.pSda = true
  pscl : d.pscl = false

/-- A repeated start condition (R64). -/
theorem restart_device (e : Engine) (d : Device) (hp : e.partner = .device d) (hc : e.sclOut = false)
    (h : d.Between) :
    e.start.partner = .device { d with phase := .addr, bit := 0, sh := 0#8, psda := false } := by
  obtain ⟨pa, regs, ptr, phase, bit, sh, rw, mack, pSda, pscl, psda, nackAt, count⟩ := d
  obtain ⟨h1, h2, h3, h4⟩ := h
  simp only at h1 h2 h3 h4
  subst h3 h4
  rcases h1 with rfl | rfl | rfl <;> rcases h2 with h2 | rfl <;> (try cases h2) <;>
    simp [Engine.start, hp, hc, Partner.react, Device.react, Device.edge, Device.onRise, Device.onStart, Device.onFall,
      Device.shiftIn, wiredAnd]

/-- A stop condition (R65). -/
theorem stop_device (e : Engine) (d : Device) (hp : e.partner = .device d) (hc : e.sclOut = false)
    (h : d.Between) :
    ∃ b n, e.stop.partner =
      .device { d with phase := .idle, sh := b, bit := n, pSda := true, pscl := true, psda := true } := by
  obtain ⟨pa, regs, ptr, phase, bit, sh, rw, mack, pSda, pscl, psda, nackAt, count⟩ := d
  obtain ⟨h1, h2, h3, h4⟩ := h
  simp only at h1 h2 h3 h4
  subst h3 h4
  rcases h1 with rfl | rfl | rfl <;> rcases h2 with h2 | rfl <;> (try cases h2) <;>
    simp [Engine.stop, hp, hc, Partner.react, Device.react, Device.edge, Device.onRise, Device.onStop,
      Device.shiftIn, wiredAnd]

/-! ### Bytes in a row -/

@[simp] theorem withBytes_pa (d : Device) (r : RegAddr) (bs : List Byte) : (d.withBytes r bs).pa = d.pa := by
  induction bs generalizing d r with
  | nil => rfl
  | cons b rest ih => exact ih _ _

@[simp] theorem withBytes_nackAt (d : Device) (r : RegAddr) (bs : List Byte) : (d.withBytes r bs).nackAt = d.nackAt := by
  induction bs generalizing d r with
  | nil => rfl
  | cons b rest ih => exact ih _ _

/-- Writing registers does not depend on the rest of the device. -/
theorem withBytes_regs (d d' : Device) (r : RegAddr) (bs : List Byte) (h : d.regs = d'.regs) :
    (d.withBytes r bs).regs = (d'.withBytes r bs).regs := by
  induction bs generalizing d d' r with
  | nil => exact h
  | cons b rest ih => exact ih _ _ _ (by simp [Device.setReg, h])

/-- The payload loop with a device that stores: every byte goes to the next register, the address wrapping (R67). -/
theorem sendBytes_device (e : Engine) (bs : List Byte) (d : Device) (hp : e.partner = .device d) (hc : e.sclOut = false)
    (h : d.Open .wdata) :
    e.ackLevels bs = (List.range bs.length).map (fun j => d.nackAt.contains (d.count + j)) ∧
    (e.sendBytes bs).sclOut = false ∧
    ∃ v x, (e.sendBytes bs).partner =
      .device { d with regs := (d.withBytes d.ptr bs).regs, sh := v, ptr := d.ptr + BitVec.ofNat 8 bs.length,
                       count := d.count + bs.length, psda := x } := by
  induction bs generalizing e d with
  | nil => exact ⟨rfl, hc, d.sh, d.psda, by simp [Engine.sendBytes, hp, Device.withBytes]⟩
  | cons b rest ih =>
    obtain ⟨k1, k2⟩ := txb_device e b d _ _ hp hc (takes_data d b h)
    have hpn : ((e.txbAcc b).nextIdx).partner = .device
        { d.setReg d.ptr b with sh := b, ptr := d.ptr + 1#8, count := d.count + 1, psda := true } := by
      simpa [Engine.txbAcc] using k2
    have hcn : ((e.txbAcc b).nextIdx).sclOut = false := by
      have := congrArg Prod.snd (txb_pins e b)
      simpa [Engine.txbAcc, Engine.pins] using this
    obtain ⟨i1, i2, v, x, i3⟩ := ih _ _ hpn hcn ⟨h.phase, h.bit, h.pSda, h.pscl⟩
    refine ⟨?_, i2, v, x, ?_⟩
    · rw [Engine.ackLevels, k1, i1, List.length_cons, List.range_succ_eq_map (n := rest.length), List.map_cons, List.map_map]
      refine congrArg _ (List.map_congr_left fun j _ => ?_)
      show d.nackAt.contains (d.count + 1 + j) = d.nackAt.contains (d.count + (j + 1))
      rw [Nat.add_assoc, Nat.add_comm 1]
    · have hr : (Device.withBytes
          { d.setReg d.ptr b with sh := b, ptr := d.ptr + 1#8, count := d.count + 1, psda := true }
          (d.ptr + 1#8) rest).regs = (d.withBytes d.ptr (b :: rest)).regs :=
        withBytes_regs _ _ _ _ rfl
      have hl : d.ptr + 1#8 + BitVec.ofNat 8 rest.length = d.ptr + BitVec.ofNat 8 (rest.length + 1) := by
        rw [BitVec.add_assoc, BitVec.ofNat_add, BitVec.add_comm (BitVec.ofNat 8 rest.length)]
      rw [Engine.sendBytes, i3, hr, hl, List.length_cons, Nat.add_assoc, Nat.add_comm 1]
      rfl

/-- The receive loop with a device that sends its registers from the pointer up, the address wrapping (R67). -/
theorem recvBytes_device (n left : Nat) (e : Engine) (d : Device) (hn : n < 256) (hi : e.seq.idx.toNat + (left + 1) = n)
    (hp : e.partner = .device d) (hc : e.sclOut = false) (h : d.Sends) (hsh : d.sh = d.reg d.ptr) :
    (Engine.recvBytes n (left + 1) e).1 =
      (List.range (left + 1)).map (fun j => d.reg (d.ptr + BitVec.ofNat 8 j)) ∧
    (Engine.recvBytes n (left + 1) e).2.sclOut = false ∧
    ∃ v m, (Engine.recvBytes n (left + 1) e).2.partner =
      .device { d with ptr := d.ptr + BitVec.ofNat 8 (left + 1), mack := m, sh := v, bit := 9, phase := .wait,
                       pSda := true, psda := true } := by
  induction left generalizing e d with
  | zero =>
    have hk : (!(decide (e.seq.idx.toNat = n - 1))) = false := by simp; omega
    obtain ⟨k1, k2⟩ := rxb_device e false d hp hc h
    have hc2 := congrArg Prod.snd (rxb_pins e false)
    simp only [Engine.pins] at hc2
    refine ⟨?_, ?_, d.sh, false, ?_⟩
    · simp [Engine.recvBytes, rxb_byte, k1, hsh]
    · simpa [Engine.recvBytes, hk] using hc2
    · simpa [Engine.recvBytes, hk] using k2
  | succ k ih =>
    have hk : (!(decide (e.seq.idx.toNat = n - 1))) = true := by simp; omega
    obtain ⟨k1, k2⟩ := rxb_device e true d hp hc h
    have hc2 := congrArg Prod.snd (rxb_pins e true)
    simp only [Engine.pins] at hc2
    obtain ⟨i1, i2, v, m, i3⟩ := ih (e.rxb true).2.nextIdx
      { d with mack := true, ptr := d.ptr + 1#8, sh := d.reg (d.ptr + 1#8),
               pSda := (d.reg (d.ptr + 1#8)).getLsbD 7, psda := false }
      (by simp [BitVec.toNat_add]; omega) (by simpa using k2) (by simpa using hc2)
      ⟨h.phase, h.bit, rfl, h.pscl⟩ rfl
    have ha : ∀ j, d.ptr + 1#8 + BitVec.ofNat 8 j = d.ptr + BitVec.ofNat 8 (j + 1) := fun j => by
      rw [BitVec.add_assoc, BitVec.ofNat_add, BitVec.add_comm (BitVec.ofNat 8 j)]
    rw [Engine.recvBytes, hk]
    refine ⟨?_, i2, v, m, ?_⟩
    · rw [i1, rxb_byte, k1, hsh, List.range_succ_eq_map (n := k + 1), List.map_cons, List.map_map]
      simp only [Function.comp_def, ha, Device.reg]
      simp
    · rw [i3, ha]

end Sys2Proof.Machine
end

