-- ==== Sys2Proof/Laws/Line.lean ====
section
/-! SUPPORT. The line (R88) beside what the master makes and hears: the two readings of a trace in which every sample is
the line's level differ at most in pulses a partner pulls low, and not at all where it never does (`Engine.Quiet`). -/

namespace Sys2Proof.Machine

/-- `l` and `m` are the open pulse of the line's and of the master's reading at the engine `e`. -/
structure Engine.Open (e : Engine) (l m : Pulse) : Prop where
  scl : e.sclOut = true
  seen : ∀ d, e.partner = .device d → d.pscl = true ∧ d.psda = wiredAnd e.sdaOut d.pSda
  level : e.partner ≠ .oracle → l.level = e.sdaLine
  sampled : e.partner = .oracle → l.sampled = m.sampled
  heard : m.sampled = true → l.level = m.level
  own : m.sampled = false → m.level = e.sdaOut ∧ (l.level = true → e.sdaOut = true)

/-- A device that has seen the line as it is does not react to a redundant drive. -/
theorem react_redundant (p : Partner) (a c : Bool)
    (h : ∀ d, p = .device d → d.pscl = c ∧ d.psda = wiredAnd a d.pSda) : p.react a c = p := by
  cases p with
  | device d =>
    obtain ⟨h1, h2⟩ := h d rfl
    have he : d.edge c (wiredAnd a d.pSda) = d := by
      rw [Device.edge, h1, h2]
      cases c <;> cases wiredAnd a d.pSda <;> rfl
    rw [Partner.react, Device.react, he, ← h1, ← h2]
  | oracle => rfl
  | absent => rfl
  | heldLow => rfl

theorem react_seen (p : Partner) (a c : Bool) :
    ∀ d, p.react a c = .device d → d.pscl = c ∧ d.psda = wiredAnd a d.pSda := by
  intro d h
  cases p with
  | device d0 =>
    cases h
    exact ⟨rfl, rfl⟩
  | oracle => cases h
  | absent => cases h
  | heldLow => cases h

theorem Engine.Open.redundantSda {e : Engine} {l m : Pulse} (h : e.Open l m) : (e.driveSda e.sdaOut).Open l m := by
  have hp : (e.driveSda e.sdaOut).partner = e.partner := react_redundant _ _ _ (by rw [h.scl]; exact h.seen)
  exact ⟨h.scl, by rw [hp]; exact h.seen, fun ho => by rw [h.level (hp ▸ ho), Engine.sdaLine, Engine.sdaLine, hp]; rfl,
    fun ho => h.sampled (hp ▸ ho), h.heard, h.own⟩

theorem Engine.Open.redundantScl {e : Engine} {l m : Pulse} (h : e.Open l m) : (e.driveScl true).Open l m := by
  have hp : (e.driveScl true).partner = e.partner := react_redundant _ _ _ h.seen
  exact ⟨rfl, by rw [hp]; exact h.seen, fun ho => by rw [h.level (hp ▸ ho), Engine.sdaLine, Engine.sdaLine, hp]; rfl,
    fun ho => h.sampled (hp ▸ ho), h.heard, h.own⟩

/-- Where the partner is no oracle, the line level is what a sample reads. -/
theorem lineLevel_eq_sdaLine (e : Engine) (h : e.partner ≠ .oracle) : e.lineLevel = e.sdaLine := by
  rw [Engine.lineLevel, Engine.partnerOutput, Engine.sdaLine]
  cases hp : e.partner with
  | oracle => exact absurd hp h
  | absent => rfl
  | heldLow => rfl
  | device d => rfl

/-- The clock rises: the line's pulse has the line level, the master's its own. -/
theorem open_rise (e : Engine) : (e.driveScl true).Open { level := (e.driveScl true).lineLevel, sampled := false }
    { level := e.sdaOut, sampled := false } := by
  refine ⟨rfl, react_seen _ _ _, fun ho => ?_, fun _ => rfl, fun h => (by cases h), fun _ => ⟨rfl, fun h => ?_⟩⟩
  · exact lineLevel_eq_sdaLine _ ho
  · exact (Bool.and_eq_true _ _ ▸ h : _ ∧ _).1

/-- A sample of the line in the open pulse. -/
theorem Engine.Open.sample {e : Engine} {l m : Pulse} (h : e.Open l m) {v : Bool} (hv : v = e.sdaLine) :
    e.sdard.2.Open (e.partner.heard l v) (m.hear v) := by
  have hs : (m.hear v).sampled = true := by
    unfold Pulse.hear
    split
    · assumption
    · rfl
  have hn : e.partner ≠ .oracle → e.partner.heard l v = l := by
    intro ho
    cases hp : e.partner with
    | oracle => exact absurd hp ho
    | absent => rfl
    | heldLow => rfl
    | device d => rfl
  have hl : (e.partner.heard l v).level = (m.hear v).level := by
    by_cases ho : e.partner = .oracle
    · have hq := h.sampled ho
      rw [ho]
      show (l.hear v).level = _
      rw [Pulse.hear, Pulse.hear, hq]
      split
      · exact h.heard ‹_›
      · rfl
    · rw [hn ho, Pulse.hear]
      split
      · exact h.heard ‹_›
      · exact (h.level ho).trans hv.symm
  have hd : e.partner ≠ .oracle → e.sdard.2.sdaLine = e.sdaLine := by
    intro ho
    rw [Engine.sdaLine, Engine.sdaLine]
    cases hp : e.partner with
    | oracle => exact absurd hp ho
    | absent => simp [hp, Partner.level]
    | heldLow => simp [hp, Partner.level]
    | device d => simp [hp, Partner.level]
  refine ⟨h.scl, h.seen, fun ho => ?_, fun ho => ?_, fun _ => hl, fun hf => absurd hs (by simp [hf])⟩
  · rw [hn ho, h.level ho, hd ho]
  · have ho' : e.partner = .oracle := ho
    rw [ho', hs]
    show (l.hear v).sampled = true
    unfold Pulse.hear
    split
    · assumption
    · rfl

/-- The two readings of the open pulse belong together. -/
def Engine.Paired (e : Engine) (l m : Option Pulse) : Prop :=
  match l, m with
  | none, none => True
  | some l, some m => e.Open l m
  | none, some _ => False
  | some _, none => False

theorem paired_cases {e : Engine} {l m : Option Pulse} (h : e.Paired l m) :
    (l = none ∧ m = none) ∨ ∃ a b, l = some a ∧ m = some b ∧ e.Open a b := by
  cases l <;> cases m
  · exact Or.inl ⟨rfl, rfl⟩
  · exact h.elim
  · exact h.elim
  · exact Or.inr ⟨_, _, rfl, rfl, h⟩

theorem pins_driveSda (e : Engine) (v : Bool) : (e.driveSda v).pins = (v, e.sclOut) := rfl
theorem pins_driveScl (e : Engine) (v : Bool) : (e.driveScl v).pins = (e.sdaOut, v) := rfl
theorem pins_sdard (e : Engine) : e.sdard.2.pins = e.pins := rfl

theorem shownOnLine_condition (e : Engine) (v : Bool) {ls ms : List Symbol} (h : shownOnLine ls ms = true) :
    shownOnLine (e.condition v ++ ls) ((if v then Symbol.stop else .start) :: ms) = true := by
  unfold Engine.condition
  cases v
  · cases e.lineLevel <;> simp [shownOnLine, h]
  · cases (e.driveSda true).lineLevel <;> simp [shownOnLine, h]

/-- R88: the line shows the master's symbols but for what a partner changes by pulling it low. -/
theorem line_agrees (tr : List Event) (e : Engine) (l m : Option Pulse) (h : e.Paired l m) (hh : e.hears tr = true) :
    shownOnLine (symbolsFrom e l tr) (masterSymbolsFrom e.pins m tr) = true := by
  induction tr generalizing e l m with
  | nil => rfl
  | cons x rest ih =>
    cases x with
    | sda v =>
      have hi := fun l m hp => ih (e.driveSda v) l m hp hh
      rw [pins_driveSda] at hi
      rw [show e.pins = (e.sdaOut, e.sclOut) from rfl]
      simp only [symbolsFrom, masterSymbolsFrom]
      by_cases hv : v = e.sdaOut
      · rw [if_pos hv, if_pos hv]
        subst hv
        refine hi l m ?_
        obtain ⟨rfl, rfl⟩ | ⟨a, b, rfl, rfl, ho⟩ := paired_cases h
        · trivial
        · exact ho.redundantSda
      · rw [if_neg hv, if_neg hv]
        cases hc : e.sclOut with
        | true =>
          rw [hc] at hi
          exact shownOnLine_condition e v (hi none none trivial)
        | false =>
          rw [hc] at hi
          obtain ⟨rfl, rfl⟩ | ⟨a, b, rfl, rfl, ho⟩ := paired_cases h
          · exact hi none none trivial
          · exact absurd ho.scl (by simp [hc])
    | scl v =>
      have hi := fun l m hp => ih (e.driveScl v) l m hp hh
      rw [pins_driveScl] at hi
      rw [show e.pins = (e.sdaOut, e.sclOut) from rfl]
      simp only [symbolsFrom, masterSymbolsFrom]
      by_cases hv : v = e.sclOut
      · rw [if_pos hv, if_pos hv, ← hv]
        refine hi l m ?_
        obtain ⟨rfl, rfl⟩ | ⟨a, b, rfl, rfl, ho⟩ := paired_cases h
        · trivial
        · rw [hv, ho.scl]
          exact ho.redundantScl
      · rw [if_neg hv, if_neg hv]
        cases v with
        | true =>
          simp only [if_true]
          exact hi _ _ (open_rise e)
        | false =>
          obtain ⟨rfl, rfl⟩ | ⟨a, b, rfl, rfl, ho⟩ := paired_cases h
          · exact hi none none trivial
          · have hr := hi none none trivial
            simp only [Bool.false_eq_true, if_false, shownOnLine, hr, Bool.and_true]
            cases hs : b.sampled with
            | true => simp [ho.heard hs]
            | false =>
              obtain ⟨h1, h2⟩ := ho.own hs
              rw [← h1] at h2
              cases ha : a.level with
              | true => simp [h2 ha]
              | false => cases b.level <;> decide
    | rd v =>
      simp only [Engine.hears, Bool.and_eq_true, beq_iff_eq] at hh
      have hi := ih e.sdard.2 (l.map fun q => e.partner.heard q v) (m.map fun q => q.hear v) (by
        obtain ⟨rfl, rfl⟩ | ⟨a, b, rfl, rfl, ho⟩ := paired_cases h
        · trivial
        · exact ho.sample hh.1) hh.2
      rwa [pins_sdard] at hi

/-- The next event is a sample. -/
def sampledNext (tr : List Event) : Bool :=
  match tr with
  | [] => false
  | .sda _ :: _ => false
  | .scl _ :: _ => false
  | .rd _ :: _ => true

/-- At every rise of the clock that the master does not sample right after, the line has the master's own level, and at
every change of the data output with the clock high the line moves. -/
def Engine.Quiet (e : Engine) (tr : List Event) : Prop :=
  match tr with
  | [] => True
  | .sda v :: rest =>
    (v ≠ e.sdaOut → e.sclOut = true → e.condition v = [if v then .stop else .start]) ∧ Engine.Quiet (e.driveSda v) rest
  | .scl v :: rest =>
    (v = true → e.sclOut = false → sampledNext rest = true ∨ (e.driveScl true).lineLevel = e.sdaOut) ∧
    Engine.Quiet (e.driveScl v) rest
  | .rd _ :: rest => Engine.Quiet e.sdard.2 rest

/-- R88: on a quiet trace the line shows exactly what the master makes and hears. -/
theorem line_quiet (tr : List Event) (e : Engine) (l m : Option Pulse) (h : e.Paired l m)
    (hq : ∀ a b, l = some a → m = some b → a.level = b.level ∨ sampledNext tr = true) (hh : e.hears tr = true)
    (hqt : e.Quiet tr) : symbolsFrom e l tr = masterSymbolsFrom e.pins m tr := by
  induction tr generalizing e l m with
  | nil => rfl
  | cons x rest ih =>
    have hnone : ∀ a b : Pulse, (none : Option Pulse) = some a → (none : Option Pulse) = some b →
        a.level = b.level ∨ sampledNext rest = true := fun _ _ h => nomatch h
    cases x with
    | sda v =>
      have hi := fun l m hp hl => ih (e.driveSda v) l m hp hl hh hqt.2
      rw [pins_driveSda] at hi
      rw [show e.pins = (e.sdaOut, e.sclOut) from rfl]
      simp only [symbolsFrom, masterSymbolsFrom]
      by_cases hv : v = e.sdaOut
      · rw [if_pos hv, if_pos hv]
        subst hv
        obtain ⟨rfl, rfl⟩ | ⟨a, b, rfl, rfl, ho⟩ := paired_cases h
        · exact hi none none trivial hnone
        · refine hi (some a) (some b) ho.redundantSda fun a' b' ha hb => Or.inl ?_
          cases ha
          cases hb
          exact (hq a b rfl rfl).resolve_right (by simp [sampledNext])
      · rw [if_neg hv, if_neg hv]
        cases hc : e.sclOut with
        | true =>
          rw [hc] at hi
          simp only [if_true]
          rw [hi none none trivial hnone, hqt.1 hv hc]
          rfl
        | false =>
          rw [hc] at hi
          obtain ⟨rfl, rfl⟩ | ⟨a, b, rfl, rfl, ho⟩ := paired_cases h
          · exact hi none none trivial hnone
          · exact absurd ho.scl (by simp [hc])
    | scl v =>
      have hi := fun l m hp hl => ih (e.driveScl v) l m hp hl hh hqt.2
      rw [pins_driveScl] at hi
      rw [show e.pins = (e.sdaOut, e.sclOut) from rfl]
      simp only [symbolsFrom, masterSymbolsFrom]
      have hlev : ∀ a b, l = some a → m = some b → a.level = b.level := fun a b ha hb =>
        (hq a b ha hb).resolve_right (by simp [sampledNext])
      by_cases hv : v = e.sclOut
      · rw [if_pos hv, if_pos hv, ← hv]
        obtain ⟨rfl, rfl⟩ | ⟨a, b, rfl, rfl, ho⟩ := paired_cases h
        · exact hi none none trivial hnone
        · refine hi (some a) (some b) ?_ fun a' b' ha hb => Or.inl (hlev a' b' ha hb)
          rw [hv, ho.scl]
          exact ho.redundantScl
      · rw [if_neg hv, if_neg hv]
        cases v with
        | true =>
          simp only [if_true]
          refine hi _ _ (open_rise e) fun a b ha hb => ?_
          cases ha
          cases hb
          exact (hqt.1 rfl (by simpa using hv)).symm
        | false =>
          obtain ⟨rfl, rfl⟩ | ⟨a, b, rfl, rfl, ho⟩ := paired_cases h
          · exact hi none none trivial hnone
          · simp only [Bool.false_eq_true, if_false]
            rw [hi none none trivial hnone, hlev a b rfl rfl]
    | rd v =>
      simp only [Engine.hears, Bool.and_eq_true, beq_iff_eq] at hh
      refine ih e.sdard.2 (l.map fun q => e.partner.heard q v) (m.map fun q => q.hear v) ?_ ?_ hh.2 hqt
      · obtain ⟨rfl, rfl⟩ | ⟨a, b, rfl, rfl, ho⟩ := paired_cases h
        · trivial
        · exact ho.sample hh.1
      · intro a' b' ha hb
        obtain ⟨rfl, rfl⟩ | ⟨a, b, rfl, rfl, ho⟩ := paired_cases h
        · cases ha
        · cases ha
          cases hb
          refine Or.inl ((ho.sample hh.1).heard ?_)
          unfold Pulse.hear
          split
          · assumption
          · rfl

theorem symbols_of_quiet {e : Engine} {tr : List Event} (hh : e.hears tr = true) (hq : e.Quiet tr) :
    symbols e tr = masterSymbols e.pins tr :=
  line_quiet tr e none none trivial (fun _ _ h => nomatch h) hh hq

theorem quiet_append {e : Engine} {t1 t2 : List Event} (h1 : e.Quiet t1) (h2 : (e.replay t1).Quiet t2) :
    e.Quiet (t1 ++ t2) := by
  induction t1 generalizing e with
  | nil => exact h2
  | cons x rest ih =>
    cases x with
    | sda v => exact ⟨h1.1, ih (e := e.driveSda v) h1.2 h2⟩
    | scl v =>
      refine ⟨fun hv hc => (h1.1 hv hc).imp_left fun hs => ?_, ih (e := e.driveScl v) h1.2 h2⟩
      cases rest with
      | nil => cases hs
      | cons y more => cases y <;> exact hs
    | rd v => exact ih (e := e.sdard.2) h1 h2

/-- A change of the data output moves the line where the partner's output is released: before a fall, after a rise. -/
theorem condition_moves (e : Engine) (v : Bool) (hv : v ≠ e.sdaOut) (h0 : v = false → e.partnerOutput = true)
    (h1 : v = true → (e.driveSda true).partnerOutput = true) :
    e.condition v = [if v then .stop else .start] := by
  unfold Engine.condition
  cases v with
  | false =>
    have hs : e.sdaOut = true := by simpa using hv.symm
    simp [Engine.lineLevel, wiredAnd, hs, h0 rfl]
  | true =>
    have h := h1 rfl
    rw [if_pos rfl, Engine.lineLevel, h]
    rfl

/-- The absent partner leaves every trace quiet (R71). -/
theorem quiet_absent (tr : List Event) (e : Engine) (h : e.partner = .absent) : e.Quiet tr := by
  induction tr generalizing e with
  | nil => trivial
  | cons x rest ih =>
    cases x with
    | sda v =>
      refine ⟨fun hv _ => condition_moves e v hv (fun _ => ?_) (fun _ => ?_), ih (e.driveSda v) (by simp [h, Partner.react])⟩
      · simp [Engine.partnerOutput, h, Partner.output]
      · simp [Engine.partnerOutput, h, Partner.react, Partner.output]
    | scl v =>
      refine ⟨fun _ _ => Or.inr ?_, ih (e.driveScl v) (by simp [h, Partner.react])⟩
      simp [Engine.lineLevel, Engine.partnerOutput, wiredAnd, h, Partner.react, Partner.output]
    | rd v => exact ih e.sdard.2 h

/-- With the data line held low the line shows the master's pulses as zeros, and nothing else (R216). -/
theorem line_heldLow (tr : List Event) (e : Engine) (l m : Option Pulse) (h : e.partner = .heldLow)
    (hl : (l = none ∧ m = none) ∨ ∃ a b : Pulse, l = some a ∧ m = some b ∧ a.level = false) :
    symbolsFrom e l tr = heldLowSymbols (masterSymbolsFrom e.pins m tr) := by
  induction tr generalizing e l m with
  | nil => rfl
  | cons x rest ih =>
    rw [show e.pins = (e.sdaOut, e.sclOut) from rfl]
    cases x with
    | sda v =>
      have hi := fun l m => ih (e.driveSda v) l m (by simp [h, Partner.react])
      rw [pins_driveSda] at hi
      have hn := hi none none (Or.inl ⟨rfl, rfl⟩)
      have hc : e.condition v = [] := by
        cases v <;> simp [Engine.condition, Engine.lineLevel, Engine.partnerOutput, wiredAnd, h, Partner.react, Partner.output]
      simp only [symbolsFrom, masterSymbolsFrom, hc, List.nil_append]
      by_cases hv : v = e.sdaOut
      · rw [if_pos hv, if_pos hv]
        have := hi l m hl
        rwa [hv] at this ⊢
      · rw [if_neg hv, if_neg hv]
        cases hs : e.sclOut with
        | true =>
          rw [hs] at hn
          simp only [if_true, hn]
          cases v <;> rfl
        | false =>
          have := hi l m hl
          rw [hs] at this
          exact this
    | scl v =>
      have hi := fun l m => ih (e.driveScl v) l m (by simp [h, Partner.react])
      rw [pins_driveScl] at hi
      simp only [symbolsFrom, masterSymbolsFrom]
      by_cases hv : v = e.sclOut
      · rw [if_pos hv, if_pos hv]
        have := hi l m hl
        rwa [hv] at this ⊢
      · rw [if_neg hv, if_neg hv]
        cases v with
        | true =>
          refine hi _ _ (Or.inr ⟨_, _, rfl, rfl, ?_⟩)
          simp [Engine.lineLevel, Engine.partnerOutput, wiredAnd, h, Partner.react, Partner.output]
        | false =>
          have hn := hi none none (Or.inl ⟨rfl, rfl⟩)
          obtain ⟨rfl, rfl⟩ | ⟨a, b, rfl, rfl, ha⟩ := hl
          · exact hn
          · simp only [Bool.false_eq_true, if_false, ha, hn]
            rfl
    | rd v =>
      refine ih e.sdard.2 _ _ h ?_
      obtain ⟨rfl, rfl⟩ | ⟨a, b, rfl, rfl, ha⟩ := hl
      · exact Or.inl ⟨rfl, rfl⟩
      · rw [h]
        exact Or.inr ⟨a, _, rfl, rfl, ha⟩

/-! ### One pulse at a time -/

/-- A fresh pulse in which the master samples the line has the sampled level. -/
theorem heard_fresh (p : Partner) (a v : Bool) (h : p ≠ .oracle → a = v) :
    (p.heard { level := a, sampled := false } v).level = v := by
  cases p <;> first | rfl | exact h (by simp)

/-- A data change with the clock low is no symbol. -/
theorem line_dataLow (e : Engine) (hc : e.sclOut = false) (v : Bool) (rest : List Event) :
    symbolsFrom e none (.sda v :: rest) = symbolsFrom (e.driveSda v) none rest := by
  simp [symbolsFrom, hc]

/-- A pulse the master samples shows the sampled level. -/
theorem line_sampledPulse (e : Engine) (hc : e.sclOut = false) (v : Bool) (rest : List Event)
    (hv : v = (e.driveScl true).sdaLine) :
    symbolsFrom e none (.scl true :: .rd v :: .scl false :: rest) =
      .bit v :: symbolsFrom ((e.driveScl true).sdard.2.driveScl false) none rest := by
  have h := heard_fresh (e.driveScl true).partner _ v (fun ho => (lineLevel_eq_sdaLine _ ho).trans hv.symm)
  rw [symbolsFrom, if_neg (by simp [hc]), if_pos rfl, symbolsFrom.eq_def]
  simp only [Option.map_some]
  rw [symbolsFrom, if_neg (by simp)]
  simp only [Bool.false_eq_true, if_false, h]

/-- A pulse the master does not sample shows the line level at the rise of the clock. -/
theorem line_barePulse (e : Engine) (hc : e.sclOut = false) (rest : List Event) :
    symbolsFrom e none (.scl true :: .scl false :: rest) =
      .bit (e.driveScl true).lineLevel :: symbolsFrom ((e.driveScl true).driveScl false) none rest := by
  rw [symbolsFrom, if_neg (by simp [hc]), if_pos rfl, symbolsFrom, if_neg (by simp)]
  simp only [Bool.false_eq_true, if_false]

/-- What a data drive with the clock high is to the master, which releases or drives low (R88). -/
def dataChange (v before : Bool) : List Symbol := if v = before then [] else if v then [.stop] else [.start]

/-- Entered with the clock high, the first data change is a start or stop condition where the line moves, and the first
pulse is none. -/
theorem line_dataHigh (e : Engine) (hc : e.sclOut = true) (v : Bool) (rest : List Event) :
    symbolsFrom e none (.sda v :: .scl true :: .scl false :: rest) =
      (if v = e.sdaOut then [] else e.condition v) ++
        symbolsFrom (((e.driveSda v).driveScl true).driveScl false) none rest := by
  simp only [symbolsFrom, hc, driveSda_sclOut, driveScl_sclOut]
  cases v <;> cases e.sdaOut <;> rfl

theorem master_dataHigh (a v : Bool) (rest : List Event) :
    masterSymbolsFrom (a, true) none (.sda v :: .scl true :: .scl false :: rest) =
      dataChange v a ++ masterSymbolsFrom (v, false) none rest := by
  cases a <;> cases v <;> simp [masterSymbolsFrom, dataChange]

/-- `P_SDA` at each rise of the clock while the bits `vs` are transmitted. -/
def Engine.outputsAtRises (e : Engine) (vs : List Bool) : List Bool :=
  match vs with
  | [] => []
  | v :: rest => ((e.driveSda v).driveScl true).partnerOutput ::
      Engine.outputsAtRises (((e.driveSda v).driveScl true).driveScl false) rest

/-- Transmitted bits on the line: each is the AND of the master's and the partner's level at its rise of the clock. -/
theorem line_bits (vs : List Bool) (e : Engine) (hc : e.sclOut = false) (rest : List Event) :
    symbolsFrom e none ((vs.flatMap fun v => [.sda v, .scl true, .scl false]) ++ rest) =
      List.zipWith (fun x p => Symbol.bit (x && p)) vs (e.outputsAtRises vs) ++
        symbolsFrom (e.replay (vs.flatMap fun v => [.sda v, .scl true, .scl false])) none rest := by
  induction vs generalizing e with
  | nil => rfl
  | cons v more ih =>
    simp only [List.flatMap_cons, List.cons_append, List.nil_append, Engine.outputsAtRises, List.zipWith_cons_cons]
    rw [line_dataLow e hc, line_barePulse (e.driveSda v) hc, ih _ rfl]
    rfl

theorem replay_bits_sclOut (vs : List Bool) (e : Engine) (hc : e.sclOut = false) :
    (e.replay (vs.flatMap fun v => [.sda v, .scl true, .scl false])).sclOut = false := by
  induction vs generalizing e with
  | nil => exact hc
  | cons v more ih => exact ih _ rfl

theorem symbolsFrom_seq (tr : List Event) (e : Engine) (q : Sequencer) (l : Option Pulse) :
    symbolsFrom { e with seq := q } l tr = symbolsFrom e l tr := by
  induction tr generalizing e l with
  | nil => rfl
  | cons x rest ih =>
    cases x with
    | sda v =>
      have hi := ih (e.driveSda v)
      simp only [symbolsFrom]
      rw [← hi l, ← hi none]
      rfl
    | scl v =>
      have hi := ih (e.driveScl v)
      simp only [symbolsFrom]
      rw [← hi l, ← hi none, ← hi (some { level := (e.driveScl v).lineLevel, sampled := false })]
      rfl
    | rd v => exact ih e.sdard.2 _

/-- The sequencer is not part of what a trace carried out again does to the partner. -/
theorem partnerOutput_replay_seq (e : Engine) (q : Sequencer) (tr : List Event) :
    (({ e with seq := q } : Engine).replay tr).partnerOutput = (e.replay tr).partnerOutput := by
  rw [replay_seq]
  rfl

/-- Received bits on the line are the sampled levels. -/
theorem line_samples (n : Nat) (e : Engine) (hc : e.sclOut = false) (rest : List Event) :
    symbolsFrom e none (((Engine.rxLevels n e).flatMap fun v => [.scl true, .rd v, .scl false]) ++ rest) =
      (Engine.rxLevels n e).map Symbol.bit ++
        symbolsFrom (e.replay ((Engine.rxLevels n e).flatMap fun v => [.scl true, .rd v, .scl false])) none rest := by
  induction n generalizing e with
  | zero => rfl
  | succ k ih =>
    have h := ih e.rxBit (by simp [Engine.rxBit])
    obtain ⟨q, he⟩ : ∃ q, e.rxBit = { ((e.driveScl true).sdard.2.driveScl false) with seq := q } := ⟨_, rfl⟩
    rw [Engine.rxLevels, List.flatMap_cons, List.map_cons]
    generalize Engine.rxLevels k e.rxBit = vs at h
    rw [he, replay_seq, symbolsFrom_seq, symbolsFrom_seq] at h
    simp only [List.cons_append, List.nil_append]
    rw [line_sampledPulse e hc e.rxBitLevel _ rfl, h]
    exact congrArg (Symbol.bit e.rxBitLevel :: vs.map Symbol.bit ++ ·) (symbolsFrom_seq _ _ q _)

end Sys2Proof.Machine
end

