-- ==== Sys2Proof/Laws/Transactions.lean ====
section
/-! SUPPORT. Whole transactions of layer 2 with a device partner (R63 to R68, R72): the header, the payload, the received
bytes, and a device that is not addressed. -/

namespace Sys2Proof.Machine

theorem txbAcc_device (e : Engine) (b : Byte) (d d' : Device) (ack : Bool) (hp : e.partner = .device d)
    (hc : e.sclOut = false) (h : d.Takes b ack d') :
    e.ackLevel b = ack ∧ (e.txbAcc b).partner = .device d' ∧ (e.txbAcc b).sclOut = false := by
  obtain ⟨h1, h2⟩ := txb_device e b d d' ack hp hc h
  have h3 := congrArg Prod.snd (txb_pins e b)
  exact ⟨h1, by simpa [Engine.txbAcc] using h2, by simpa [Engine.txbAcc, Engine.pins] using h3⟩

theorem atRest_pSda (d : Device) (h : d.atRest = true) : d.pSda = true := by
  simp only [Device.atRest, Bool.and_eq_true, beq_iff_eq] at h
  exact h.1.1.2

/-- The start condition, the address byte and the register address, with the device that is addressed. -/
theorem header_device (e : Engine) (d : Device) (r : RegAddr) (hp : e.partner = .device d) (hb : e.pins = idleBus)
    (hd : d.atRest = true) :
    e.openTransaction.start.ackLevel (addrByte d.pa dirWrite) = d.nackAt.contains d.count ∧
    (e.addressed d.pa).ackLevel r = d.nackAt.contains (d.count + 1) ∧
    ((e.addressed d.pa).txbAcc r).sclOut = false ∧
    ((e.addressed d.pa).txbAcc r).partner =
      .device { d with phase := .wdata, bit := 0, sh := r, pscl := false, psda := true, rw := false, ptr := r,
                       count := d.count + 2 } := by
  have h0 := start_device e.openTransaction d hp hb hd
  have hs := atRest_pSda d hd
  obtain ⟨a1, a2, a3⟩ := txbAcc_device e.openTransaction.start (addrByte d.pa dirWrite) _ _ _ h0 rfl
    (takes_address_write _ ⟨rfl, rfl, hs, rfl⟩)
  obtain ⟨b1, b2, b3⟩ := txbAcc_device _ r _ _ _ a2 a3 (takes_pointer _ r ⟨rfl, rfl, hs, rfl⟩)
  exact ⟨a1, b1, b3, b2⟩

/-- A write transaction with the device that is addressed (R68, R72). -/
theorem writeTransaction_device (e : Engine) (d : Device) (a : DevAddr) (r : RegAddr) (bs : List Byte)
    (hp : e.partner = .device d) (hb : e.pins = idleBus) (hd : d.atRest = true) (ha : d.pa = a) :
    e.writeAcks a r bs = (List.range (bs.length + 2)).map (fun j => d.nackAt.contains (d.count + j)) ∧
    ∃ d', (e.writeTransaction a r bs).partner = .device d' ∧ d'.regs = (d.withBytes r bs).regs ∧
      d'.ptr = r + BitVec.ofNat 8 bs.length ∧ d'.atRest = true ∧ d'.pa = a ∧ d'.nackAt = d.nackAt ∧
      d'.count = d.count + (bs.length + 2) := by
  subst ha
  have hs := atRest_pSda d hd
  obtain ⟨h1, h2, h3, h4⟩ := header_device e d r hp hb hd
  obtain ⟨k1, k2, v, x, k3⟩ := sendBytes_device _ bs _ h4 h3 ⟨rfl, rfl, hs, rfl⟩
  obtain ⟨b, n, hst⟩ := stop_device _ _ k3 k2 ⟨Or.inr (Or.inl rfl), Or.inr rfl, hs, rfl⟩
  constructor
  · rw [Engine.writeAcks, h1, h2, k1, List.range_succ_eq_map (n := bs.length + 1),
      List.range_succ_eq_map (n := bs.length)]
    simp [Function.comp_def, Nat.add_assoc]
    intro j hj
    rw [Nat.add_comm j 2]
  · refine ⟨_, hst, withBytes_regs _ d r bs rfl, rfl, by simp [Device.atRest], rfl, rfl, ?_⟩
    simp only
    omega

/-- A read transaction with the device that is addressed (R68, R72). -/
theorem readTransaction_device (e : Engine) (d : Device) (r : RegAddr) (n : Nat) (hn : n < 256) (hn0 : n ≠ 0)
    (hp : e.partner = .device d) (hb : e.pins = idleBus) (hd : d.atRest = true) :
    e.readAcks d.pa r =
      (d.nackAt.contains d.count, d.nackAt.contains (d.count + 1), d.nackAt.contains (d.count + 2)) ∧
    (e.readTransaction d.pa r n).1 = (List.range n).map (fun j => d.reg (r + BitVec.ofNat 8 j)) ∧
    ∃ d', (e.readTransaction d.pa r n).2.partner = .device d' ∧ d'.atRest = true ∧ d'.regs = d.regs ∧
      d'.ptr = r + BitVec.ofNat 8 n ∧ d'.pa = d.pa ∧ d'.nackAt = d.nackAt ∧ d'.count = d.count + 3 := by
  have hs := atRest_pSda d hd
  obtain ⟨h1, h2, h3, h4⟩ := header_device e d r hp hb hd
  have hst := restart_device _ _ h4 h3 ⟨Or.inr (Or.inl rfl), Or.inr rfl, hs, rfl⟩
  obtain ⟨a1, a2, a3⟩ := txbAcc_device _ (addrByte d.pa dirRead) _ _ _ hst rfl
    (takes_address_read _ ⟨rfl, rfl, hs, rfl⟩)
  obtain ⟨m, rfl⟩ : ∃ m, n = m + 1 := ⟨n - 1, by omega⟩
  obtain ⟨k1, k2, v, mm, k3⟩ := recvBytes_device (m + 1) m (e.readHeader d.pa r) _ hn (by simp) a2 a3
    ⟨rfl, rfl, rfl, rfl⟩ rfl
  obtain ⟨b, n, hst2⟩ := stop_device _ _ k3 k2 ⟨Or.inr (Or.inr rfl), Or.inl rfl, rfl, rfl⟩
  refine ⟨?_, ?_, _, hst2, ?_, rfl, rfl, rfl, rfl, rfl⟩
  · simp [Engine.readAcks, h1, h2, a1]
  · rw [Engine.readTransaction]
    exact k1
  · simp [Device.atRest]

/-- The header with a device at another address: it waits, and every sample reads 1 (R67). -/
theorem header_other (e : Engine) (d : Device) (a : DevAddr) (r : RegAddr) (hp : e.partner = .device d)
    (hb : e.pins = idleBus) (hd : d.atRest = true) (ha : a ≠ d.pa) :
    e.openTransaction.start.ackLevel (addrByte a dirWrite) = true ∧
    (e.addressed a).ackLevel r = true ∧
    ((e.addressed a).txbAcc r).sclOut = false ∧
    ∃ sh, ((e.addressed a).txbAcc r).partner =
      .device { d with phase := .wait, bit := 8, sh := sh, pscl := false, psda := true } := by
  have h0 := start_device e.openTransaction d hp hb hd
  have hs := atRest_pSda d hd
  obtain ⟨a1, a2, a3⟩ := txbAcc_device e.openTransaction.start (addrByte a dirWrite) _ _ _ h0 rfl
    (takes_other_address _ a dirWrite ⟨rfl, rfl, hs, rfl⟩ ha)
  obtain ⟨b1, b2, b3⟩ := txbAcc_device _ r _ _ _ a2 a3 (takes_wait _ r rfl hs rfl)
  exact ⟨a1, b1, b3, _, b2⟩

/-- The payload loop with a device that waits. -/
theorem sendBytes_wait (e : Engine) (bs : List Byte) (d : Device) (hp : e.partner = .device d) (hc : e.sclOut = false)
    (h1 : d.phase = .wait) (h2 : d.pSda = true) (h3 : d.pscl = false) :
    (∀ v ∈ e.ackLevels bs, v = true) ∧ (e.sendBytes bs).sclOut = false ∧
    ∃ x, (e.sendBytes bs).partner = .device { d with psda := x } := by
  induction bs generalizing e d with
  | nil => exact ⟨by simp [Engine.ackLevels], hc, d.psda, hp⟩
  | cons b rest ih =>
    obtain ⟨b1, b2, b3⟩ := txbAcc_device e b _ _ _ hp hc (takes_wait _ b h1 h2 h3)
    obtain ⟨i1, i2, x, i3⟩ := ih (e.txbAcc b).nextIdx _ b2 b3 h1 h2 h3
    exact ⟨by simp [Engine.ackLevels, b1]; simpa using i1, i2, x, i3⟩

/-- The receive loop with a device that waits. -/
theorem recvBytes_wait (n left : Nat) (e : Engine) (d : Device) (hp : e.partner = .device d) (hc : e.sclOut = false)
    (h1 : d.phase = .wait) (h2 : d.pSda = true) (h3 : d.pscl = false) :
    (∀ vs ∈ Engine.recvLevels n left e, ∀ v ∈ vs, v = true) ∧ (Engine.recvBytes n left e).2.sclOut = false ∧
    ∃ x, (Engine.recvBytes n left e).2.partner = .device { d with psda := x } := by
  induction left generalizing e d with
  | zero => exact ⟨by simp [Engine.recvLevels], hc, d.psda, hp⟩
  | succ m ih =>
    obtain ⟨b1, y, b2⟩ := rxb_device_wait e (!(decide (e.seq.idx.toNat = n - 1))) d hp hc h1 h2 h3
    have hc2 := congrArg Prod.snd (rxb_pins e (!(decide (e.seq.idx.toNat = n - 1))))
    obtain ⟨i1, i2, x, i3⟩ := ih (e.rxb (!(decide (e.seq.idx.toNat = n - 1)))).2.nextIdx _ b2 hc2 h1 h2 h3
    refine ⟨?_, i2, x, i3⟩
    intro vs hvs v hv
    simp only [Engine.recvLevels, List.mem_cons] at hvs
    rcases hvs with rfl | hvs
    · rw [b1] at hv
      simpa using hv
    · exact i1 vs hvs v hv

/-- A device as it was but for its bus state, at rest. -/
structure Device.Untouched (d d' : Device) : Prop where
  regs : d'.regs = d.regs
  ptr : d'.ptr = d.ptr
  atRest : d'.atRest = true
  pa : d'.pa = d.pa
  nackAt : d'.nackAt = d.nackAt
  count : d'.count = d.count

theorem Device.Untouched.trans {d1 d2 d3 : Device} (h : d1.Untouched d2) (k : d2.Untouched d3) : d1.Untouched d3 :=
  ⟨k.regs.trans h.regs, k.ptr.trans h.ptr, k.atRest, k.pa.trans h.pa, k.nackAt.trans h.nackAt, k.count.trans h.count⟩

/-- A write transaction to another address than the device's: every sample reads 1 (R67, R68). -/
theorem writeTransaction_other (e : Engine) (d : Device) (a : DevAddr) (r : RegAddr) (bs : List Byte)
    (hp : e.partner = .device d) (hb : e.pins = idleBus) (hd : d.atRest = true) (ha : a ≠ d.pa) :
    (∀ v ∈ e.writeAcks a r bs, v = true) ∧
    ∃ d', (e.writeTransaction a r bs).partner = .device d' ∧ d.Untouched d' := by
  have hs := atRest_pSda d hd
  obtain ⟨h1, h2, h3, sh, h4⟩ := header_other e d a r hp hb hd ha
  obtain ⟨k1, k2, x, k3⟩ := sendBytes_wait _ bs _ h4 h3 rfl hs rfl
  obtain ⟨b, n, hst⟩ := stop_device _ _ k3 k2 ⟨Or.inr (Or.inr rfl), Or.inl rfl, hs, rfl⟩
  refine ⟨fun v hv => ?_, _, hst, rfl, rfl, by simp [Device.atRest], rfl, rfl, rfl⟩
  simp only [Engine.writeAcks, List.mem_cons] at hv
  rcases hv with rfl | rfl | hv
  · exact h1
  · exact h2
  · exact k1 v hv

/-- A read transaction to another address than the device's: every sample reads 1 (R67, R68). -/
theorem readTransaction_other (e : Engine) (d : Device) (a : DevAddr) (r : RegAddr) (n : Nat)
    (hp : e.partner = .device d) (hb : e.pins = idleBus) (hd : d.atRest = true) (ha : a ≠ d.pa) :
    e.readAcks a r = (true, true, true) ∧
    (∀ vs ∈ Engine.recvLevels n n (e.readHeader a r), ∀ v ∈ vs, v = true) ∧
    ∃ d', (e.readTransaction a r n).2.partner = .device d' ∧ d.Untouched d' := by
  have hs := atRest_pSda d hd
  obtain ⟨h1, h2, h3, sh, h4⟩ := header_other e d a r hp hb hd ha
  have hst := restart_device _ _ h4 h3 ⟨Or.inr (Or.inr rfl), Or.inl rfl, hs, rfl⟩
  obtain ⟨a1, a2, a3⟩ := txbAcc_device _ (addrByte a dirRead) _ _ _ hst rfl
    (takes_other_address _ a dirRead ⟨rfl, rfl, hs, rfl⟩ ha)
  obtain ⟨k1, k2, x, k3⟩ := recvBytes_wait n n (e.readHeader a r) _ a2 a3 rfl hs rfl
  obtain ⟨b, m, hst2⟩ := stop_device _ _ k3 k2 ⟨Or.inr (Or.inr rfl), Or.inl rfl, hs, rfl⟩
  exact ⟨by simp [Engine.readAcks, h1, h2, a1], k1, _, hst2, rfl, rfl, by simp [Device.atRest], rfl, rfl, rfl⟩

end Sys2Proof.Machine
end

