-- ==== Sys2Proof/Laws/LineDevice.lean ====
section
/-! SUPPORT. A device at rest leaves the register transactions quiet on the line (R88): it pulls the line low only where
the master listens (R64 to R67, R72). -/

namespace Sys2Proof.Machine

theorem quiet_seq (e : Engine) (q : Sequencer) (tr : List Event) :
    ({ e with seq := q } : Engine).Quiet tr ↔ e.Quiet tr := by
  induction tr generalizing e with
  | nil => exact Iff.rfl
  | cons x rest ih =>
    cases x with
    | sda v => exact and_congr Iff.rfl (ih (e.driveSda v))
    | scl v => exact and_congr Iff.rfl (ih (e.driveScl v))
    | rd v => exact ih e.sdard.2

/-- Quiet, one run after another. -/
theorem Engine.Ran.quiet {e e1 : Engine} {t1 t2 : List Event} (h : e.Ran e1 t1) (h1 : e.Quiet t1) (h2 : e1.Quiet t2) :
    e.Quiet (t1 ++ t2) := by
  rw [h.replays, quiet_seq] at h2
  exact quiet_append h1 h2

theorem quiet_of_seq {e e1 : Engine} {tr : List Event} (h : e1 = { e with seq := e1.seq }) (hq : e.Quiet tr) :
    e1.Quiet tr := by
  rw [h, quiet_seq]
  exact hq

/-- A data drive with the clock low is no condition. -/
theorem quiet_dataLow {e : Engine} {v : Bool} {tr : List Event} (hc : e.sclOut = false)
    (h : (e.driveSda v).Quiet tr) : e.Quiet (.sda v :: tr) :=
  ⟨fun _ hc' => absurd (hc.symm.trans hc') (by decide), h⟩

/-- `START` on the idle bus raises no clock, and the line falls with the data output. -/
theorem quiet_start_idle (e : Engine) (d : Device) (hp : e.partner = .device d) (hb : e.pins = idleBus)
    (hd : d.atRest = true) : e.Quiet startTrace := by
  simp only [Engine.pins, idleBus, Prod.mk.injEq] at hb
  obtain ⟨hs, hc⟩ := hb
  refine ⟨fun hv _ => absurd hs.symm hv, fun _ hf => absurd (hc.symm.trans hf) (by decide),
    fun hv _ => condition_moves _ _ hv (fun _ => ?_) (fun h => nomatch h), (fun h => nomatch h), trivial⟩
  obtain ⟨pa, regs, ptr, phase, bit, sh, rw, mack, pSda, pscl, psda, nackAt, count⟩ := d
  simp only [Device.atRest, Bool.and_eq_true, beq_iff_eq] at hd
  obtain ⟨⟨⟨h1, h2⟩, h3⟩, h4⟩ := hd
  subst h1 h2 h3 h4
  simp [Engine.partnerOutput, hp, hc, Partner.react, Device.react, Device.edge, wiredAnd, Partner.output]

/-- The output of a device between bytes or in its address phase stays released over a rise of the clock. -/
theorem Device.Between.rise {d : Device} (h : d.Between) (v : Bool) :
    ((d.react v false).react v true).pSda = true := by
  obtain ⟨pa, regs, ptr, phase, bit, sh, rw, mack, pSda, pscl, psda, nackAt, count⟩ := d
  obtain ⟨h1, h2, h3, h4⟩ := h
  simp only at h1 h2 h3 h4
  subst h3 h4
  rcases h1 with rfl | rfl | rfl <;> rcases h2 with h2 | rfl <;> (try cases h2) <;>
    simp [Device.react, Device.edge, Device.onRise, Device.shiftIn, wiredAnd]

/-- A repeated `START` with the device between bytes. -/
theorem quiet_restart (e : Engine) (d : Device) (hp : e.partner = .device d) (hc : e.sclOut = false) (h : d.Between) :
    e.Quiet startTrace := by
  refine quiet_dataLow hc ⟨fun _ _ => Or.inr ?_,
    fun hv _ => condition_moves _ _ hv (fun _ => ?_) (fun h => nomatch h), (fun h => nomatch h), trivial⟩
  · simp [Engine.lineLevel, Engine.partnerOutput, wiredAnd, hp, hc, Partner.react, Partner.output, h.rise true]
  · simp [Engine.partnerOutput, hp, hc, Partner.react, Partner.output, h.rise true]

/-- `STOP` with the device between bytes: the line rises with the data output. -/
theorem quiet_stop (e : Engine) (d : Device) (hp : e.partner = .device d) (hc : e.sclOut = false) (h : d.Between) :
    e.Quiet stopTrace := by
  refine quiet_dataLow hc ⟨fun _ _ => Or.inr rfl,
    fun hv _ => condition_moves _ _ hv (fun h => nomatch h) (fun _ => ?_), trivial⟩
  obtain ⟨b, n, hst⟩ := stop_device e d hp hc h
  have hs : (((e.driveSda false).driveScl true).driveSda true).partner = e.stop.partner := rfl
  rw [Engine.partnerOutput, hs, hst]
  rfl

/-- A receiving device holds its output released over each rise of the clock in the eight data pulses (R66). -/
theorem receive_rise (d : Device) (v : Bool) (hp : d.receives = true) (hb : d.bit < 8) (hs : d.pSda = true)
    (hc : d.pscl = false) : ((d.react v false).react v true).pSda = true := by
  obtain ⟨pa, regs, ptr, phase, bit, sh, rw, mack, pSda, pscl, psda, nackAt, count⟩ := d
  simp only at hb hs hc
  subst hs hc
  cases phase <;> simp only [Device.receives, Bool.false_eq_true] at hp <;>
    simp [Device.react, Device.edge, Device.onRise, Device.shiftIn, wiredAnd, hb]

theorem wait_rise (d : Device) (v : Bool) (hp : d.phase = .wait) (hs : d.pSda = true) (hc : d.pscl = false) :
    ((d.react v false).react v true).pSda = true := by
  obtain ⟨pa, regs, ptr, phase, bit, sh, rw, mack, pSda, pscl, psda, nackAt, count⟩ := d
  simp only at hp hs hc
  subst hp hs hc
  simp [Device.react, Device.edge, Device.onRise, wiredAnd]

/-- Transmitted bits, with a device that is released at each rise of the clock. -/
theorem quiet_bits (vs : List Bool) (e : Engine) (d : Device) (hp : e.partner = .device d) (hc : e.sclOut = false)
    (h : ∀ k v, k < vs.length → ((((vs.take k).foldl Device.pulse d).react v false).react v true).pSda = true) :
    e.Quiet (vs.flatMap fun v => [.sda v, .scl true, .scl false]) := by
  induction vs generalizing e d with
  | nil => trivial
  | cons v rest ih =>
    refine quiet_dataLow hc ⟨fun _ _ => Or.inr ?_, fun hv => (by cases hv), ?_⟩
    · have h0 := h 0 v (by simp)
      simp only [List.take_zero, List.foldl_nil] at h0
      simp [Engine.lineLevel, Engine.partnerOutput, wiredAnd, hp, hc, Partner.react, Partner.output, h0]
    · refine ih _ (d.pulse v) (by simp [hp, hc, Partner.react, Device.pulse]) rfl fun k w hk => ?_
      have := h (k + 1) w (by simpa using hk)
      simpa using this

/-- A device that takes the next transmitted byte: in its address phase, or between bytes. -/
def Device.Listens (d : Device) : Prop := d.Open .addr ∨ d.Between

theorem Device.Listens.pSda {d : Device} (h : d.Listens) : d.pSda = true := h.elim Device.Open.pSda Device.Between.pSda

theorem Device.Listens.pscl {d : Device} (h : d.Listens) : d.pscl = false := h.elim Device.Open.pscl Device.Between.pscl

/-- `TXB` is quiet with a device that listens. -/
theorem quiet_txTrace (e : Engine) (b : Byte) (v : Bool) (d : Device) (hp : e.partner = .device d)
    (hc : e.sclOut = false) (h : d.Listens) : e.Quiet (txTrace b v) := by
  refine quiet_append (quiet_bits (bitsOf b) e d hp hc fun k w hk => ?_)
    (quiet_dataLow (replay_bits_sclOut _ _ hc) ⟨fun _ _ => Or.inl rfl, fun hv => (by cases hv), trivial⟩)
  have hk8 : k < 8 := hk
  have hrec : d.receives = true → d.bit = 0 →
      ((((bitsOf b).take k).foldl Device.pulse d).react w false |>.react w true).pSda = true := by
    intro hr hb
    obtain ⟨x, hx⟩ := pulses_receive d ((bitsOf b).take k) hr
      (by rw [List.length_take, hb]; omega) h.pSda h.pscl
    rw [hx]
    refine receive_rise _ w hr ?_ h.pSda h.pscl
    show d.bit + ((bitsOf b).take k).length < 8
    rw [List.length_take, hb]
    omega
  rcases h with h | h
  · exact hrec (by simp [Device.receives, h.phase]) h.bit
  · by_cases hw : d.phase = .wait
    · obtain ⟨x, hx⟩ := pulses_wait d ((bitsOf b).take k) hw h.pSda h.pscl
      rw [hx]
      exact wait_rise _ w hw h.pSda h.pscl
    · refine hrec ?_ (h.bit.resolve_left hw)
      rcases h.phase with hq | hq | hq
      · simp [Device.receives, hq]
      · simp [Device.receives, hq]
      · exact absurd hq hw

/-- A byte that is no address leaves the device between bytes (R67). -/
theorem takes_between (d : Device) (b : Byte) (h : d.Between) : ∃ ack d', d.Takes b ack d' ∧ d'.Between := by
  by_cases hw : d.phase = .wait
  · exact ⟨_, _, takes_wait d b hw h.pSda h.pscl, Or.inr (Or.inr hw), Or.inl hw, h.pSda, h.pscl⟩
  · have hb := h.bit.resolve_left hw
    rcases h.phase with hq | hq | hq
    · exact ⟨_, _, takes_pointer d b ⟨hq, hb, h.pSda, h.pscl⟩, Or.inr (Or.inl rfl), Or.inr hb, h.pSda, h.pscl⟩
    · exact ⟨_, _, takes_data d b ⟨hq, hb, h.pSda, h.pscl⟩, Or.inr (Or.inl hq), Or.inr hb, h.pSda, h.pscl⟩
    · exact absurd hq hw

/-- The address byte for writing leaves the device between bytes, addressed or not. -/
theorem takes_address_for_write (d : Device) (a : DevAddr) (h : d.Open .addr) :
    ∃ ack d', d.Takes (addrByte a dirWrite) ack d' ∧ d'.Between := by
  by_cases ha : a = d.pa
  · subst ha
    exact ⟨_, _, takes_address_write d h, Or.inl rfl, Or.inr h.bit, h.pSda, h.pscl⟩
  · exact ⟨_, _, takes_other_address d a dirWrite h ha, Or.inr (Or.inr rfl), Or.inl rfl, h.pSda, h.pscl⟩

/-- The address byte for reading leaves the device about to send, or waiting. -/
theorem takes_address_for_read (d : Device) (a : DevAddr) (h : d.Open .addr) :
    ∃ ack d', d.Takes (addrByte a dirRead) ack d' ∧ (d'.Sends ∨ (d'.Between ∧ d'.phase = .wait)) := by
  by_cases ha : a = d.pa
  · subst ha
    exact ⟨_, _, takes_address_read d h, Or.inl ⟨rfl, h.bit, rfl, h.pscl⟩⟩
  · exact ⟨_, _, takes_other_address d a dirRead h ha,
      Or.inr ⟨⟨Or.inr (Or.inr rfl), Or.inl rfl, h.pSda, h.pscl⟩, rfl⟩⟩

/-- The payload loop is quiet with a device between bytes, and leaves it so. -/
theorem quiet_sendBytes (bs : List Byte) (e : Engine) (d : Device) (hp : e.partner = .device d) (hc : e.sclOut = false)
    (h : d.Between) : e.Quiet (sendTrace bs (e.ackLevels bs)) ∧ (e.sendBytes bs).sclOut = false ∧
      ∃ d', (e.sendBytes bs).partner = .device d' ∧ d'.Between := by
  induction bs generalizing e d with
  | nil => exact ⟨trivial, hc, d, hp, h⟩
  | cons b rest ih =>
    obtain ⟨ack, d', ht, hb⟩ := takes_between d b h
    obtain ⟨-, k1, k2⟩ := txbAcc_device e b d d' ack hp hc ht
    obtain ⟨i1, i2⟩ := ih (e.txbAcc b).nextIdx d' k1 k2 hb
    have hr : e.Ran (e.txbAcc b).nextIdx (txTrace b (e.ackLevel b)) := (txbAcc_ran e b).seq rfl rfl
    exact ⟨hr.quiet (quiet_txTrace e b _ d hp hc (Or.inr h)) i1, i2⟩

/-- The start condition and the address byte for writing, on the idle bus with a device at rest. -/
theorem quiet_addressed (e : Engine) (a : DevAddr) (d : Device) (hp : e.partner = .device d) (hb : e.pins = idleBus)
    (hd : d.atRest = true) :
    e.Ran (e.addressed a) (startTrace ++ txTrace (addrByte a dirWrite) (e.openTransaction.start.ackLevel (addrByte a dirWrite))) ∧
    e.Quiet (startTrace ++ txTrace (addrByte a dirWrite) (e.openTransaction.start.ackLevel (addrByte a dirWrite))) ∧
    (e.addressed a).sclOut = false ∧ ∃ d', (e.addressed a).partner = .device d' ∧ d'.Between := by
  have h0 : e.Ran e.openTransaction.start startTrace :=
    ((Engine.Ran.refl e).seq (e2 := e.openTransaction) rfl rfl).trans (start_ran _)
  have ho : Device.Open { d with phase := .addr, bit := 0, sh := 0#8, pscl := false, psda := false } .addr :=
    ⟨rfl, rfl, atRest_pSda d hd, rfl⟩
  have hs := start_device e.openTransaction d hp hb hd
  obtain ⟨ack, d', ht, hbt⟩ := takes_address_for_write _ a ho
  obtain ⟨-, k1, k2⟩ := txbAcc_device e.openTransaction.start _ _ d' ack hs rfl ht
  exact ⟨h0.trans (txbAcc_ran _ _),
    h0.quiet (quiet_start_idle e d hp hb hd) (quiet_txTrace _ _ _ _ hs rfl (Or.inl ho)), k2, d', k1, hbt⟩

/-- A write transaction is quiet with a device at rest, which it leaves at rest. -/
theorem quiet_writeTransaction (e : Engine) (a : DevAddr) (r : RegAddr) (bs : List Byte) (d : Device)
    (hp : e.partner = .device d) (hb : e.pins = idleBus) (hd : d.atRest = true) :
    e.Quiet (writeTrace a r bs (e.writeAcks a r bs)) ∧
    ∃ d', (e.writeTransaction a r bs).partner = .device d' ∧ d'.atRest = true := by
  obtain ⟨r1, q1, c1, d1, p1, b1⟩ := quiet_addressed e a d hp hb hd
  obtain ⟨ack, d2, ht, b2⟩ := takes_between d1 r b1
  obtain ⟨-, p2, c2⟩ := txbAcc_device _ r d1 d2 ack p1 c1 ht
  have r2 := r1.trans (txbAcc_ran _ r)
  have q2 := r1.quiet q1 (quiet_txTrace _ r ((e.addressed a).ackLevel r) d1 p1 c1 (Or.inr b1))
  obtain ⟨q3, c3, d3, p3, b3⟩ := quiet_sendBytes bs _ d2 p2 c2 b2
  have q4 := (r2.trans (sendBytes_ran _ bs)).quiet (r2.quiet q2 q3) (quiet_stop _ d3 p3 c3 b3)
  obtain ⟨x, n, hst⟩ := stop_device _ _ p3 c3 b3
  refine ⟨?_, _, hst, by simp [Device.atRest]⟩
  simpa [writeTrace, sendTrace, Engine.writeAcks, List.append_assoc] using q4

/-- The sampled pulses of `RXB` are quiet. -/
theorem quiet_samples (vs : List Bool) (e : Engine) :
    e.Quiet (vs.flatMap fun v => [.scl true, .rd v, .scl false]) := by
  induction vs generalizing e with
  | nil => trivial
  | cons v rest ih => exact ⟨fun _ _ => Or.inl rfl, fun hv => (by cases hv), ih _⟩

/-- A device about to send, or waiting. -/
def Device.Answers (d : Device) : Prop := d.Sends ∨ (d.Between ∧ d.phase = .wait)

/-- `RXB` is quiet with a device that sends or waits, and leaves it so; without an acknowledgment it waits (R67). -/
theorem quiet_rxb (e : Engine) (k : Bool) (d : Device) (hp : e.partner = .device d) (hc : e.sclOut = false)
    (h : d.Answers) : e.Quiet (rxTrace e.dataLevels k) ∧
      ∃ d', (e.rxb k).2.partner = .device d' ∧ d'.Answers ∧ (k = false → d'.Between) := by
  have hr := rxToAck_ran e
  have hq : e.Quiet ([.sda true] ++ e.dataLevels.flatMap fun v => [.scl true, .rd v, .scl false]) :=
    quiet_dataLow hc (quiet_samples _ (e.driveSda true))
  have hso := rxToAck_sdaOut e
  obtain ⟨d8, p8, hrise, d', hd', ha⟩ : ∃ d8, e.rxToAck.partner = .device d8 ∧ (d8.react true true).pSda = true ∧
      ∃ d', (e.rxb k).2.partner = .device d' ∧ d'.Answers ∧ (k = false → d'.Between) := by
    rcases h with h | ⟨hb, hw⟩
    · refine ⟨_, (rxToAck_device e d hp hc h).2, ?_, _, (rxb_device e k d hp hc h).2, ?_⟩
      · have h1 := h.phase
        have h4 := h.pscl
        simp [Device.react, Device.edge, Device.onRise, wiredAnd, h1, h4]
      · cases k
        · exact ⟨Or.inr ⟨⟨Or.inr (Or.inr rfl), Or.inl rfl, rfl, h.pscl⟩, rfl⟩,
            fun _ => ⟨Or.inr (Or.inr rfl), Or.inl rfl, rfl, h.pscl⟩⟩
        · exact ⟨Or.inl ⟨h.phase, h.bit, rfl, h.pscl⟩, fun h => nomatch h⟩
    · obtain ⟨-, x, hx⟩ := rxToAck_wait e d hp hc hw hb.pSda hb.pscl
      obtain ⟨-, y, hy⟩ := rxb_device_wait e k d hp hc hw hb.pSda hb.pscl
      have hbt : Device.Between { d with psda := y } := ⟨Or.inr (Or.inr hw), Or.inl hw, hb.pSda, hb.pscl⟩
      refine ⟨_, hx, ?_, _, hy, Or.inr ⟨hbt, hw⟩, fun _ => hbt⟩
      have h3 := hb.pSda
      have h4 := hb.pscl
      simp [Device.react, Device.edge, Device.onRise, wiredAnd, hw, h3, h4]
  refine ⟨?_, d', hd', ha⟩
  have ht : e.rxToAck.Quiet ((if k then [.sda false] else []) ++ [.scl true, .scl false]) := by
    cases k
    · refine ⟨fun _ _ => Or.inr ?_, fun hv => (by cases hv), trivial⟩
      simp [Engine.lineLevel, Engine.partnerOutput, wiredAnd, hso, p8, Partner.react, Partner.output, hrise]
    · exact quiet_dataLow (rxToAck_sclOut e) ⟨fun _ _ => Or.inr rfl, fun hv => (by cases hv), trivial⟩
  have := hr.quiet hq ht
  simpa [rxTrace, List.append_assoc] using this

/-- The receive loop is quiet with a device that sends or waits; after a last byte it waits. -/
theorem quiet_recvBytes (n left : Nat) (e : Engine) (d : Device) (hn : n < 256) (hi : e.seq.idx.toNat + left = n)
    (hp : e.partner = .device d) (hc : e.sclOut = false) (h : d.Answers) :
    e.Quiet (recvTrace (Engine.recvLevels n left e) (recvFlags left)) ∧ (Engine.recvBytes n left e).2.sclOut = false ∧
    ∃ d', (Engine.recvBytes n left e).2.partner = .device d' ∧ (left ≠ 0 → d'.Between) := by
  induction left generalizing e d with
  | zero => exact ⟨trivial, hc, d, hp, fun h => absurd rfl h⟩
  | succ k ih =>
    have hk : (decide (e.seq.idx.toNat = n - 1)) = decide (k = 0) := by
      simp only [decide_eq_decide]
      omega
    rw [recvFlags_succ, Engine.recvLevels, recvTrace_cons, Engine.recvBytes, hk]
    obtain ⟨q1, d', p1, a1, b1⟩ := quiet_rxb e (!decide (k = 0)) d hp hc h
    have hr : e.Ran (e.rxb (!decide (k = 0))).2.nextIdx (rxTrace e.dataLevels (!decide (k = 0))) :=
      (rxb_ran e _).seq rfl rfl
    obtain ⟨q2, c2, d2, p2, b2⟩ := ih (e.rxb (!decide (k = 0))).2.nextIdx d'
      (by simp [BitVec.toNat_add]; omega) p1 (congrArg Prod.snd (rxb_pins e _)) a1
    refine ⟨hr.quiet q1 q2, c2, d2, p2, fun _ => ?_⟩
    by_cases h0 : k = 0
    · subst h0
      have hd : d2 = d' := by
        have := p2.symm.trans p1
        cases this
        rfl
      rw [hd]
      exact b1 rfl
    · exact b2 h0

/-- A read transaction of one byte or more is quiet with a device at rest. -/
theorem quiet_readTransaction (e : Engine) (a : DevAddr) (r : RegAddr) (n : Nat) (hn : n < 256) (h0 : n ≠ 0) (d : Device)
    (hp : e.partner = .device d) (hb : e.pins = idleBus) (hd : d.atRest = true) :
    e.Quiet (readHeaderTrace a r (e.readAcks a r) ++ recvTrace (Engine.recvLevels n n (e.readHeader a r)) (recvFlags n) ++
      stopTrace) := by
  obtain ⟨r1, q1, c1, d1, p1, b1⟩ := quiet_addressed e a d hp hb hd
  obtain ⟨ack, d2, ht, b2⟩ := takes_between d1 r b1
  obtain ⟨-, p2, c2⟩ := txbAcc_device _ r d1 d2 ack p1 c1 ht
  have r2 := r1.trans (txbAcc_ran _ r)
  have q2 := r1.quiet q1 (quiet_txTrace _ r ((e.addressed a).ackLevel r) d1 p1 c1 (Or.inr b1))
  have q3 := r2.quiet q2 (quiet_restart _ d2 p2 c2 b2)
  have r3 := r2.trans (start_ran _)
  have p3 := restart_device _ d2 p2 c2 b2
  have ho : Device.Open { d2 with phase := .addr, bit := 0, sh := 0#8, psda := false } .addr :=
    ⟨rfl, rfl, b2.pSda, b2.pscl⟩
  obtain ⟨ack4, d4, ht4, a4⟩ := takes_address_for_read _ a ho
  obtain ⟨-, p4, c4⟩ := txbAcc_device _ (addrByte a dirRead) _ d4 ack4 p3 rfl ht4
  have q4 := r3.quiet q3 (quiet_txTrace _ (addrByte a dirRead)
    (((e.addressed a).txbAcc r).start.ackLevel (addrByte a dirRead)) _ p3 rfl (Or.inl ho))
  have qh : e.Quiet (readHeaderTrace a r (e.readAcks a r)) := by
    simpa [readHeaderTrace, Engine.readAcks, List.append_assoc] using q4
  have rh := readHeader_ran e a r
  obtain ⟨qr, c5, d5, p5, b5⟩ := quiet_recvBytes n n (e.readHeader a r) d4 hn (by simp) p4 c4 a4
  exact (rh.trans (recvBytes_ran n n _ hn (by simp))).quiet (rh.quiet qh qr) (quiet_stop _ d5 p5 c5 (b5 h0))

end Sys2Proof.Machine
end

