-- ==== Sys2Proof/Laws/PerInstr.lean ====
section
/-! SUPPORT. One lemma per command: the word of a command matches its own row of the opcode map (R82). -/

namespace Sys2Proof.Laws.EncodingRow

/-- `(encode i & mask) = match` for the row the command belongs to (R82). -/
def Statement (i : Instr) : Prop := encode i &&& i.row.mask = i.row.code

/-- From the five fields of a row: a masked packed word. -/
theorem of_fields (op : Byte) (k k' : Bool) (a a' : DevAddr) (r r' : RegAddr) (n n' : Byte) (mask code : Word)
    (hm : mask = packWord 0xFF#8 k' a' r' n') (hc : code = packWord op (k && k') (a &&& a') (r &&& r') (n &&& n')) :
    packWord op k a r n &&& mask = code := by
  have h : op &&& 0xFF#8 = op := BitVec.and_allOnes
  rw [hm, hc, packWord_and, h]

theorem sdahi : Statement .sdahi := by unfold Statement; decide

theorem sdalo : Statement .sdalo := by unfold Statement; decide

theorem sclhi : Statement .sclhi := by unfold Statement; decide

theorem scllo : Statement .scllo := by unfold Statement; decide

theorem sdard : Statement .sdard := by unfold Statement; decide

theorem start : Statement .start := by unfold Statement; decide

theorem stop : Statement .stop := by unfold Statement; decide

theorem txb (b : Byte) : Statement (.txb b) :=
  of_fields _ _ _ _ _ _ _ _ _ _ _ (show _ = packWord 0xFF#8 true 0x7F#7 0#8 0xFF#8 by simp only [Instr.row]; decide) (by simp [Instr.row]; decide)

theorem rxb (k : Bool) : Statement (.rxb k) :=
  of_fields _ _ _ _ _ _ _ _ _ _ _ (show _ = packWord 0xFF#8 false 0x7F#7 0xFF#8 0xFF#8 by simp only [Instr.row]; decide) (by simp [Instr.row]; decide)

theorem wrregs (a : DevAddr) (r : RegAddr) (n : Byte) : Statement (.wrregs a r n) :=
  of_fields _ _ _ _ _ _ _ _ _ _ _ (show _ = packWord 0xFF#8 true 0#7 0#8 0#8 by simp only [Instr.row]; decide) (by simp [Instr.row]; decide)

theorem rdregs (a : DevAddr) (r : RegAddr) (n : Byte) : Statement (.rdregs a r n) :=
  of_fields _ _ _ _ _ _ _ _ _ _ _ (show _ = packWord 0xFF#8 true 0#7 0#8 0#8 by simp only [Instr.row]; decide) (by simp [Instr.row]; decide)

theorem wrreg (a : DevAddr) (r : RegAddr) (d : Byte) : Statement (.wrreg a r d) :=
  of_fields _ _ _ _ _ _ _ _ _ _ _ (show _ = packWord 0xFF#8 true 0#7 0#8 0#8 by simp only [Instr.row]; decide) (by simp [Instr.row]; decide)

theorem rdreg (a : DevAddr) (r : RegAddr) : Statement (.rdreg a r) :=
  of_fields _ _ _ _ _ _ _ _ _ _ _ (show _ = packWord 0xFF#8 true 0#7 0#8 0xFF#8 by simp only [Instr.row]; decide) (by simp [Instr.row]; decide)

theorem oscwr : Statement .oscwr := by unfold Statement; decide

theorem oscrd : Statement .oscrd := by unfold Statement; decide

end Sys2Proof.Laws.EncodingRow
end

