-- ==== Sys2Proof/Laws/Steady.lean ====
section
/-! SUPPORT. A partner that is no device and whose level is always the same (R71, R216): every sample of layer 2 reads that
level. -/

namespace Sys2Proof.Machine

/-- The partner is no device and its level is `c` at every sample. -/
structure Partner.Steady (p : Partner) (c : Bool) : Prop where
  noDevice : ∀ d, p ≠ .device d
  level : ∀ n, p.level n = c

theorem absent_steady : Partner.absent.Steady true := ⟨by simp, fun _ => rfl⟩

theorem heldLow_steady : Partner.heldLow.Steady false := ⟨by simp, fun _ => rfl⟩

variable {p : Partner} {c : Bool}

theorem Partner.Steady.ran (h : p.Steady c) {e e' : Engine} {tr : List Event} (hr : e.Ran e' tr) (he : e.partner = p) :
    e'.partner = p :=
  (hr.partner (by rw [he]; exact h.noDevice)).trans he

theorem Partner.Steady.ackLevel (h : p.Steady c) (e : Engine) (he : e.partner = p) (b : Byte) : e.ackLevel b = c := by
  rw [ackLevel_of_not_device _ _ (by rw [he]; exact h.noDevice), he, h.level]

theorem Partner.Steady.ackLevels (h : p.Steady c) (e : Engine) (he : e.partner = p) (bs : List Byte) :
    e.ackLevels bs = List.replicate bs.length c := by
  induction bs generalizing e with
  | nil => rfl
  | cons b rest ih =>
    rw [Engine.ackLevels, h.ackLevel e he b, ih (e.txbAcc b).nextIdx (show (e.txbAcc b).partner = p from h.ran (txbAcc_ran e b) he)]
    rfl

theorem Partner.Steady.addressed (h : p.Steady c) (e : Engine) (he : e.partner = p) (a : DevAddr) :
    (e.addressed a).partner = p :=
  h.ran (txbAcc_ran _ _) (h.ran (start_ran e.openTransaction) he)

theorem Partner.Steady.writeAcks (h : p.Steady c) (e : Engine) (he : e.partner = p) (a : DevAddr) (r : RegAddr)
    (bs : List Byte) : e.writeAcks a r bs = List.replicate (bs.length + 2) c := by
  have h2 := h.addressed e he a
  rw [Engine.writeAcks, h.ackLevel _ (h.ran (start_ran e.openTransaction) he), h.ackLevel _ h2,
    h.ackLevels _ (h.ran (txbAcc_ran (e.addressed a) r) h2)]
  rfl

theorem Partner.Steady.readAcks (h : p.Steady c) (e : Engine) (he : e.partner = p) (a : DevAddr) (r : RegAddr) :
    e.readAcks a r = (c, c, c) := by
  have h2 := h.addressed e he a
  have h3 := h.ran (txbAcc_ran (e.addressed a) r) h2
  simp [Engine.readAcks, h.ackLevel _ (h.ran (start_ran e.openTransaction) he), h.ackLevel _ h2,
    h.ackLevel _ (h.ran (start_ran ((e.addressed a).txbAcc r)) h3)]

theorem Partner.Steady.dataLevels (h : p.Steady c) (e : Engine) (he : e.partner = p) :
    e.dataLevels = List.replicate 8 c := by
  rw [dataLevels_of_not_device e (by rw [he]; exact h.noDevice), he]
  simp only [h.level]
  simp [List.range_succ, List.replicate_succ]

theorem Partner.Steady.recvLevels (h : p.Steady c) (n left : Nat) (e : Engine) (he : e.partner = p) :
    Engine.recvLevels n left e = List.replicate left (List.replicate 8 c) := by
  induction left generalizing e with
  | zero => rfl
  | succ k ih =>
    rw [Engine.recvLevels, ih ((e.rxb _).2.nextIdx) (show (e.rxb _).2.partner = p from h.ran (rxb_ran e _) he),
      h.dataLevels e he]
    rfl

theorem Partner.Steady.readLevels (h : p.Steady c) (s : State) (he : s.eng.partner = p) (a : DevAddr) (r : RegAddr)
    (n : Nat) : s.readLevels a r n = List.replicate n (List.replicate 8 c) :=
  h.recvLevels n n _ (h.ran (readHeader_ran s.eng a r) he)

/-- WRREGS as a procedure: its flag is the complement of the level. -/
theorem Partner.Steady.wrregs_ok (h : p.Steady c) (s : State) (he : s.eng.partner = p) (a : DevAddr) (r : RegAddr)
    (bs : List Byte) : (s.wrregs a r bs).ok = !c ∧ (s.wrregs a r bs).eng.partner = p := by
  constructor
  · rw [wrregs_flag, h.writeAcks s.eng he]
    cases c <;> simp [List.replicate_succ]
  · exact h.ran (writeTransaction_ran s.eng a r bs) he

/-- RDREGS as a procedure: its flag is the complement of the level. -/
theorem Partner.Steady.rdregs_ok (h : p.Steady c) (s : State) (he : s.eng.partner = p) (a : DevAddr) (r : RegAddr)
    (n : Nat) : (s.rdregs a r n).ok = !c := by
  rw [rdregs_flag, h.readAcks s.eng he]
  simp

end Sys2Proof.Machine
end

