-- ==== Sys2Proof/Tests/Slice0.lean ====
section
/-! SUPPORT. Tests of the model against the vectors of 95_test_vectors.md (named V1 to V78 as there) and the encodings of
30_encoding.md, and for each statement that has hypotheses a named witness that meets them (`witness_<statement>`). -/

namespace Sys2Proof.Tests

open Sys2Proof Sys2Proof.Machine

/-! ### Helpers -/

/-- A controller after its boot read, with the given pins, partner and first bytes of BUF. -/
def onBus (p : Pins) (q : Partner) (bytes : List Byte) : State :=
  { State.reset with
    busy := false
    eng := { Engine.reset with sdaOut := p.1, sclOut := p.2, partner := q }
    buf := Memory.fill [] 0 bytes }

/-- What one step makes of a launched word. -/
def ran (s : State) (w : Nat) : Option State :=
  match step (s.withFetchWord 32 w) with
  | .next t => some t
  | .fault _ => none
  | .refused _ => none

/-- Symbols written as the vectors write them: a byte with the level of its ninth pulse. -/
def onWire (bs : List (Byte × Bool)) : List Symbol := bs.flatMap fun x => frameByte x.1 x.2

/-- The zero registers of `RefPartner(0x55, zeros)`. -/
def zeros : Vector Byte 256 := Vector.replicate 256 0x00#8

/-- The block of T6. -/
def block : List Byte := [0x01#8, 0xC2#8, 0xBC#8, 0x81#8, 0x83#8, 0x02#8]

/-- `regs[7..12]` the block of T6, as V51 has them. -/
def blockRegs : Vector Byte 256 :=
  (((((zeros.set 7 0x01#8).set 8 0xC2#8).set 9 0xBC#8).set 10 0x81#8).set 11 0x83#8).set 12 0x02#8

/-- `RefPartner(0x55, regs)`. -/
def refPartner (regs : Vector Byte 256) : Partner := .device (Device.create 0x55#7 regs [])

/-- The register of a device partner. -/
def partnerReg (s : State) (i : Byte) : Option Byte :=
  match s.eng.partner with
  | .device d => some (d.reg i)
  | .oracle => none
  | .absent => none
  | .heldLow => none

/-- The idle bus, the block in BUF, and the given partner. -/
def idleWith (q : Partner) : State := onBus idleBus q block

/-! ### Well-formedness -/

/-- R141: a read of zero bytes is ill formed, and the step refuses it (V53, V77). -/
theorem test_wellformed_refuses_zero_read : (Instr.rdregs 0x55#7 7#8 0#8).wf = false := by decide

theorem test_zero_read_refused_by_step :
    step ((onBus idleBus .absent []).withFetchWord 32 0x21550700) =
      .refused (.zeroCountRead { onBus idleBus .absent [] with cmd := 0x21550700#32 }) := by rfl

/-- R140: a write of zero bytes is well formed. -/
theorem test_wellformed_allows_zero_write : (Instr.wrregs 0x55#7 7#8 0#8).wf = true := by decide

/-! ### Decoding: words written out from R80 to R82 -/

theorem test_decode_sdahi : decode 0x01000000#32 = .ok .sdahi := by rfl
theorem test_decode_sdalo : decode 0x02000000#32 = .ok .sdalo := by rfl
theorem test_decode_sclhi : decode 0x03000000#32 = .ok .sclhi := by rfl
theorem test_decode_scllo : decode 0x04000000#32 = .ok .scllo := by rfl
theorem test_decode_sdard : decode 0x05000000#32 = .ok .sdard := by rfl
theorem test_decode_start : decode 0x10000000#32 = .ok .start := by rfl
theorem test_decode_stop : decode 0x11000000#32 = .ok .stop := by rfl

/-- V30: the byte in bits 15:8. -/
theorem test_decode_txb : decode 0b00010010_00000000_10101010_00000000#32 = .ok (.txb 0xAA#8) := by rfl

/-- V40: `k` in bit 23. -/
theorem test_decode_rxb_ack : decode 0b00010011_10000000_00000000_00000000#32 = .ok (.rxb true) := by rfl

/-- V41. -/
theorem test_decode_rxb_nack : decode 0x13000000#32 = .ok (.rxb false) := by rfl

/-- V46: `a` in bits 22:16, `r` in 15:8, `n` in 7:0. -/
theorem test_decode_wrregs :
    decode 0b00100000_01010101_00000111_00000110#32 = .ok (.wrregs 0x55#7 7#8 6#8) := by rfl

/-- V56. -/
theorem test_decode_rdregs : decode 0x2155FE04#32 = .ok (.rdregs 0x55#7 254#8 4#8) := by rfl

/-- V57: the data byte in the place of `n`. -/
theorem test_decode_wrreg : decode 0x22558910#32 = .ok (.wrreg 0x55#7 137#8 0x10#8) := by rfl

/-- V58. -/
theorem test_decode_rdreg : decode 0x23558900#32 = .ok (.rdreg 0x55#7 137#8) := by rfl

theorem test_decode_oscwr : decode 0b00110000_00000000_00000000_00000000#32 = .ok .oscwr := by rfl
theorem test_decode_oscrd : decode 0x31000000#32 = .ok .oscrd := by rfl

/-- The encoder lays the same words out. -/
theorem test_encode_wrregs : encode (.wrregs 0x55#7 7#8 6#8) = 0x20550706#32 := by decide
theorem test_encode_txb : encode (.txb 0xAA#8) = 0x1200AA00#32 := by decide

/-- V70 to V76, V78: words that match no row. -/
theorem test_decode_v70 : decode 0x00000000#32 = .error (.unassignedOp 0x00#8) := by rfl
theorem test_decode_v71 : decode 0x06000000#32 = .error (.unassignedOp 0x06#8) := by rfl
theorem test_decode_v72 : decode 0x10000001#32 = .error (.mustBeZero 0x10#8) := by rfl
theorem test_decode_v73 : decode 0x12AA0000#32 = .error (.mustBeZero 0x12#8) := by rfl
theorem test_decode_v74 : decode 0x13000001#32 = .error (.mustBeZero 0x13#8) := by rfl
theorem test_decode_v75 : decode 0x20D50706#32 = .error (.mustBeZero 0x20#8) := by rfl
theorem test_decode_v76 : decode 0x23558901#32 = .error (.mustBeZero 0x23#8) := by rfl
theorem test_decode_v78 : decode 0xFF000000#32 = .error (.unassignedOp 0xFF#8) := by rfl

/-! ### Layer 0 -/

theorem test_sdahi_v1 : (ran (onBus (false, false) .absent []) 0x01000000).map (fun t => (t.eng.trace, t.eng.pins)) =
    some ([.sda true], (true, false)) := by decide

/-- V2: a redundant drive is in the trace and not in the waveform. -/
theorem test_sdahi_v2 : (ran (onBus (true, true) .absent []) 0x01000000).map
    (fun t => (t.eng.trace, wave (true, true) t.eng.trace)) = some ([.sda true], []) := by decide

/-- V3: the data line falls with the clock high: a start condition. -/
theorem test_sdalo_v3 : (ran (onBus (true, true) .absent []) 0x02000000).map
    (fun t => (t.eng.pins, masterSymbols (true, true) t.eng.trace)) = some ((false, true), [.start]) := by decide

theorem test_sclhi_v5 : (ran (onBus (false, false) .absent []) 0x03000000).map (fun t => (t.eng.trace, t.eng.pins)) =
    some ([.scl true], (false, true)) := by decide

theorem test_scllo_v7 : (ran (onBus (true, true) .absent []) 0x04000000).map (fun t => (t.eng.trace, t.eng.pins)) =
    some ([.scl false], (true, false)) := by decide

theorem test_sdard_v9 : (ran (onBus (true, true) .absent []) 0x05000000).map (fun t => (t.eng.trace, t.rdata)) =
    some ([.rd true], 0x01#8) := by decide

/-- V10: the master's own low, whatever the partner drives. -/
theorem test_sdard_v10 : (ran (onBus (false, true) .oracle []) 0x05000000).map (fun t => (t.eng.trace, t.rdata)) =
    some ([.rd false], 0x00#8) := by decide

/-! ### Layer 1 -/

/-- V22: the waveform of a repeated start from (0, 0). -/
theorem test_start_v22 : (ran (onBus (false, false) .absent []) 0x10000000).map
    (fun t => (t.eng.pins, wave (false, false) t.eng.trace)) =
    some ((false, false), [.sda true, .scl true, .sda false, .scl false]) := by decide

/-- V23: from data low and clock high a stop condition comes first. -/
theorem test_start_v23 : (ran (onBus (false, true) .absent []) 0x10000000).map
    (fun t => (wave (false, true) t.eng.trace, masterSymbols (false, true) t.eng.trace)) =
    some ([.sda true, .sda false, .scl false], [.stop, .start]) := by decide

/-- R216: with the data line held low `START` makes a start condition that does not appear on the line. -/
theorem test_start_held_low : (ran (onBus (true, true) .heldLow []) 0x10000000).map
    (fun t => (masterSymbols (true, true) t.eng.trace, symbols (onBus (true, true) .heldLow []).eng t.eng.trace)) =
    some ([.start], []) := by decide

/-- V25. -/
theorem test_stop_v25 : (ran (onBus (false, false) .absent []) 0x11000000).map
    (fun t => (t.eng.pins, wave (false, false) t.eng.trace)) = some ((true, true), [.scl true, .sda true]) := by decide

/-- V26: on the idle bus an empty pair. -/
theorem test_stop_v26 : (ran (onBus (true, true) .absent []) 0x11000000).map
    (fun t => masterSymbols (true, true) t.eng.trace) = some [.start, .stop] := by decide

/-- A reference partner right after a start condition (R64). -/
def addressed : Partner :=
  .device { Device.create 0x55#7 zeros [] with phase := .addr, pscl := false, psda := false }

/-- V30: 0xAA with an acknowledging partner, event by event. -/
theorem test_txb_v30 : (ran (onBus (false, false) addressed []) 0x1200AA00).map (fun t => (t.eng.trace, t.ok)) =
    some ([.sda true, .scl true, .scl false, .sda false, .scl true, .scl false, .sda true, .scl true, .scl false,
      .sda false, .scl true, .scl false, .sda true, .scl true, .scl false, .sda false, .scl true, .scl false,
      .sda true, .scl true, .scl false, .sda false, .scl true, .scl false, .sda true, .scl true, .rd false,
      .scl false], true) := by decide +kernel

/-- V36: with the data line held low the acknowledgment reads 0, the master makes `FF/0` and the line shows `00/0`. -/
theorem test_txb_v36 : (ran (onBus (false, false) .heldLow []) 0x1200FF00).map
    (fun t => (t.ok, masterSymbols (false, false) t.eng.trace, symbols (onBus (false, false) .heldLow []).eng t.eng.trace)) =
    some (true, onWire [(0xFF#8, false)], onWire [(0x00#8, false)]) := by decide +kernel

/-- V38: launched on the idle bus, the first bit is a start condition and eight pulses follow. -/
theorem test_txb_v38 : (ran (onBus (true, true) .absent []) 0x12000000).map
    (fun t => (t.eng.trace.length, t.eng.pins, t.ok, wave (true, true) t.eng.trace)) =
    some (28, (true, false), false, [.sda false, .scl false, .scl true, .scl false, .scl true, .scl false, .scl true,
      .scl false, .scl true, .scl false, .scl true, .scl false, .scl true, .scl false, .scl true, .scl false,
      .sda true, .scl true, .scl false]) := by decide +kernel

/-- A reference partner about to send a byte (R67). -/
def sending (b : Byte) : Partner :=
  .device { Device.create 0x55#7 blockRegs [] with
    phase := .rdata, rw := true, sh := b, pSda := b.getLsbD 7, pscl := false, psda := true, ptr := 8#8 }

/-- V40: `RXB 1` with a partner that sends 0xC2; OK keeps its value. -/
theorem test_rxb_v40 : (ran (onBus (true, false) (sending 0xC2#8) []) 0x13800000).map
    (fun t => (t.rdata, t.eng.pins, t.ok, samples t.eng.trace)) =
    some (0xC2#8, (false, false), true, [true, true, false, false, false, false, true, false]) := by decide +kernel

/-- V41: `RXB 0` with a partner that sends 0xBC: no data primitive before the ninth pulse. -/
theorem test_rxb_v41 : (ran (onBus (false, false) (sending 0xBC#8) []) 0x13000000).map
    (fun t => (t.rdata, t.eng.pins, t.eng.trace.length, t.eng.trace.drop 25)) =
    some (0xBC#8, (true, false), 27, [.scl true, .scl false]) := by decide +kernel

/-! ### Layer 2 -/

/-- V48: a write that wraps at register 255. -/
theorem test_wrregs_v48 : (ran (onBus idleBus (refPartner zeros) [0xA1#8, 0xA2#8, 0xA3#8, 0xA4#8]) 0x2055FE04).map
    (fun t => (t.ok, t.eng.trace.length, [254#8, 255#8, 0#8, 1#8, 2#8].map (partnerReg t))) =
    some (true, 175, [some 0xA1#8, some 0xA2#8, some 0xA3#8, some 0xA4#8, some 0x00#8]) := by decide +kernel

/-- V49: another address; all bytes are sent although the first was not acknowledged. -/
theorem test_wrregs_v49 : (ran (onBus idleBus (refPartner blockRegs) [0x01#8, 0x02#8]) 0x202A0702).map
    (fun t => (t.ok, masterSymbols idleBus t.eng.trace, partnerReg t 7#8)) =
    some (false, [.start] ++ onWire [(0x54#8, true), (0x07#8, true), (0x01#8, true), (0x02#8, true)] ++ [.stop],
      some 0x01#8) := by decide +kernel

/-- V51: the frame on the line. -/
theorem test_rdregs_v51 : (ran (onBus idleBus (refPartner blockRegs) []) 0x21550706).map
    (fun t => (t.ok, t.buf, symbols (onBus idleBus (refPartner blockRegs) []).eng t.eng.trace)) =
    some (true, [(0, 0x01#8), (1, 0xC2#8), (2, 0xBC#8), (3, 0x81#8), (4, 0x83#8), (5, 0x02#8)],
      [.start] ++ onWire [(0xAA#8, false), (0x07#8, false)] ++ [.start] ++
        onWire [(0xAB#8, false), (0x01#8, false), (0xC2#8, false), (0xBC#8, false), (0x81#8, false), (0x83#8, false),
          (0x02#8, true)] ++ [.stop]) := by decide +kernel

/-- V54: a wedged data line reads as success; on the line no start or stop is visible, and there are five bytes `00/0`. -/
theorem test_rdregs_v54 : (ran (onBus idleBus .heldLow []) 0x21550702).map
    (fun t => (t.ok, t.buf, symbols (onBus idleBus .heldLow []).eng t.eng.trace)) =
    some (true, [(0, 0x00#8), (1, 0x00#8)], onWire (List.replicate 5 (0x00#8, false))) := by decide +kernel

/-- The partner of V55: the byte of count 2, the second address byte, is not acknowledged. -/
def faultDevice : Device := Device.create 0x55#7 blockRegs [2]

/-- V55: the partner sends 01 C2, and OK is 0. -/
theorem test_rdregs_v55 : (ran (onBus idleBus (.device faultDevice) []) 0x21550702).map
    (fun t => (t.ok, symbols (onBus idleBus (.device faultDevice) []).eng t.eng.trace)) =
    some (false, [.start] ++ onWire [(0xAA#8, false), (0x07#8, false)] ++ [.start] ++
      onWire [(0xAB#8, true), (0x01#8, false), (0xC2#8, true)] ++ [.stop]) := by decide +kernel

/-- V57. -/
theorem test_wrreg_v57 : (ran (onBus idleBus (refPartner zeros) [0x33#8]) 0x22558910).map
    (fun t => (t.ok, t.eng.trace.length, partnerReg t 137#8, t.buf)) =
    some (true, 91, some 0x10#8, [(0, 0x33#8)]) := by decide +kernel

/-- V58. -/
theorem test_rdreg_v58 : (ran (onBus idleBus (refPartner (zeros.set 137 0x10#8)) [0x33#8, 0x44#8]) 0x23558900).map
    (fun t => (t.ok, t.eng.trace.length, t.buf)) = some (true, 122, [(0, 0x10#8), (1, 0x44#8)]) := by decide +kernel

/-- C7, U9: a payload entry nothing has written faults. -/
theorem test_wrregs_unwritten :
    step ((onBus idleBus .absent [0x01#8]).withFetchWord 32 0x20550702) = .fault .unwrittenBuf := by rfl

/-! ### Layer 3 (the chip numbers are OPEN: only what does not depend on them) -/

/-- V68: `OSCWR` without a partner runs and reports 0. -/
theorem test_oscwr_v68 : ∃ t, step ((idleWith .absent).withFetchWord 32 0x30000000) = .next t ∧ t.ok = false := by
  have h : ((idleWith .absent).launch 0x30000000#32).payload 6 = some block := rfl
  have hs : step ((idleWith .absent).withFetchWord 32 0x30000000) =
      exec .oscwr ((idleWith .absent).launch 0x30000000#32) := rfl
  refine ⟨_, hs.trans (exec_oscwr h), ?_⟩
  rw [complete_ok, oscwr_ok, State.oscFreeze, wrreg_eq, (absent_steady.wrregs_ok _ rfl _ _ _).1]
  rfl

/-- V60 to V68: its expansion has 504 primitives. -/
theorem test_oscwr_primitives : (expansion .oscwr block).length = 504 ∧ drives (expansion .oscwr block) = 487 := by
  decide +kernel

/-- T8, V50: `OSCRD` without a partner runs and reports 0. -/
theorem test_oscrd_v50 :
    ∃ t, step ((onBus idleBus .absent []).withFetchWord 32 0x31000000) = .next t ∧ t.ok = false := by
  have hs : step ((onBus idleBus .absent []).withFetchWord 32 0x31000000) =
      exec .oscrd ((onBus idleBus .absent []).launch 0x31000000#32) := rfl
  refine ⟨_, hs, ?_⟩
  rw [complete_ok, oscrd_eq]
  exact absent_steady.rdregs_ok _ rfl _ _ _

/-- V50: its expansion has 262 primitives. -/
theorem test_oscrd_primitives : (expansion .oscrd []).length = 262 ∧ drives (expansion .oscrd []) = 211 := by
  decide +kernel

/-! ### Reset -/

/-- R35, R212: the boot read comes first, and it leaves the idle bus with BUSY = 0. -/
theorem test_boot : (match step State.reset with
    | .next t => some (t.busy, t.eng.pins)
    | .fault _ => none
    | .refused _ => none) = some (false, (true, true)) := by rfl

/-- A command of the table is the first thing that runs after reset. -/
theorem test_first_after_reset :
    step (State.reset.withFetchWord 32 0x10000000) = exec .start (State.reset.bootRead.launch 0x10000000#32) := by rfl

/-! ### Witnesses: states and operands that meet the hypotheses of the statements -/

theorem witness_EncodeOfDecodeIsTheWord : decode 0x20550706#32 = .ok (.wrregs 0x55#7 7#8 6#8) := by rfl

/-- Each clause occurs: a word of no row, a word of a row, a read of zero bytes. -/
theorem witness_IllegalWordsAreRefused_illegal : ∀ p ∈ opcodeMap, 0x06000000#32 &&& p.mask ≠ p.code := by decide
theorem witness_IllegalWordsAreRefused_legal : ∃ p ∈ opcodeMap, 0x21550700#32 &&& p.mask = p.code := by decide
theorem witness_IllegalWordsAreRefused_zero : decode 0x21550700#32 = .ok (.rdregs 0x55#7 7#8 0#8) := by rfl

/-- The lowest and the highest bit of an address, under the first clause. -/
theorem witness_AddressByteIsShiftedAddressAndDirection :
    (addrByte 0x41#7 true).getLsbD 0 = true ∧ (addrByte 0x41#7 true).getLsbD 1 = true ∧
    (addrByte 0x41#7 true).getLsbD 6 = false ∧ (addrByte 0x41#7 true).getLsbD 7 = true := by decide

theorem witness_StepRunsTheDecodedCommand :
    ((idleWith .absent).launch 0x10000000#32).busy = true ∧
    ((idleWith .absent).launch 0x10000000#32).eng.seq.phase = .running ∧
    decode ((idleWith .absent).launch 0x10000000#32).cmd = .ok .start := ⟨rfl, rfl, rfl⟩

theorem witness_PlacedWordIsRunNext : decodeTableWord 32 0x22558910 = some (.wrreg 0x55#7 137#8 0x10#8) := by rfl

/-- A controller with the host's next actions given. -/
def hostAbout (xs : List Input) : State := { idleWith .oracle with inputs := xs }

theorem witness_HostWriteToCmdLaunches :
    (hostAbout [.writeCmd 0x10000000#32, .read .ok]).busy = false ∧
    (hostAbout [.writeCmd 0x10000000#32, .read .ok]).inputs = [.writeCmd 0x10000000#32, .read .ok] ∧
    decode 0x10000000#32 = .ok .start := ⟨rfl, rfl, rfl⟩

theorem witness_HostWritesAndReadsOfResults_write :
    (hostAbout [.writeBuf 255#8 0x7E#8]).busy = false ∧
    (hostAbout [.writeBuf 255#8 0x7E#8]).inputs = [.writeBuf 255#8 0x7E#8] ∧ (6 : Nat) ≠ (255#8).toNat :=
  ⟨rfl, rfl, by decide⟩
theorem witness_HostWritesAndReadsOfResults_read :
    (hostAbout [.read .rdata]).busy = false ∧ (hostAbout [.read .rdata]).inputs = [.read .rdata] := ⟨rfl, rfl⟩
theorem witness_HostWritesAndReadsOfResults_wait :
    (hostAbout []).busy = false ∧ (hostAbout []).inputs = [] := ⟨rfl, rfl⟩

theorem witness_HostPushSendsItsBlock :
    (hostAbout (hostPush #v[0xE1#8, 2#8, 3#8, 4#8, 5#8, 6#8] ++ [.read .rdata])).busy = false ∧
    (hostAbout (hostPush #v[0xE1#8, 2#8, 3#8, 4#8, 5#8, 6#8] ++ [.read .rdata])).inputs =
      hostPush #v[0xE1#8, 2#8, 3#8, 4#8, 5#8, 6#8] ++ [.read .rdata] := ⟨rfl, rfl⟩

/-- The constraints hold at their boundary: the freeze register right after the six; and a range past register 255, which
does not wrap (log 8). -/
theorem witness_ChipNumbersMeetTheirConstraints :
    (∃ c : OscParams, c.regBase = 7#8 ∧ c.regFreeze = 13#8) ∧ ∃ c : OscParams, c.regBase = 253#8 ∧ c.regFreeze = 2#8 :=
  ⟨⟨{ regFreeze := 13#8 }, rfl, rfl⟩, ⟨{ regBase := 253#8, regFreeze := 2#8 }, rfl, rfl⟩⟩

theorem witness_HostTouchesNothingWhileBusy :
    ∃ t, State.reset.busy = true ∧ step State.reset = .next t := ⟨_, rfl, rfl⟩

theorem witness_HostReadsOnlyWhenIdle :
    State.reset.busy = true ∧ HostReg.ok ≠ HostReg.busy ∧ (idleWith .oracle).busy = false := ⟨rfl, by decide, rfl⟩

theorem witness_BootStepReadsAndTakesSnapshot : State.reset.bootPending = true := by decide

/-- A controller whose snapshot is not zero, its boot read still to come and the data line held low. -/
def staleBoot : State :=
  { State.reset with snapshot := Vector.replicate 6 0xFF#8, eng := { Engine.reset with partner := .heldLow } }

/-- Its boot read leaves zeros in the snapshot. -/
theorem stale_snapshot : staleBoot.bootRead.snapshot ≠ staleBoot.snapshot := by
  intro h
  have h0 := bootRead_snapshot staleBoot 0
  have hok : (staleBoot.rdregs Config.osc.addr Config.osc.regBase 6).ok = true :=
    heldLow_steady.rdregs_ok staleBoot rfl _ _ _
  rw [h, oscrd_eq, rdregs_read, if_pos (by decide), if_pos hok, heldLow_steady.readLevels staleBoot rfl] at h0
  exact absurd h0 (by decide)

theorem witness_SnapshotChangesOnlyAtBootOrReset_boot :
    ∃ t, step staleBoot = .next t ∧ t.snapshot ≠ staleBoot.snapshot ∧ staleBoot.bootPending = true :=
  ⟨staleBoot.bootRead, rfl, stale_snapshot, by decide⟩

/-- The same with the boot read done and the reset input next. -/
def staleReset : State := { staleBoot with busy := false, inputs := [.reset] }

theorem witness_SnapshotChangesOnlyAtBootOrReset_reset :
    ∃ t, step staleReset = .next t ∧ t.snapshot ≠ staleReset.snapshot ∧ staleReset.busy = false :=
  ⟨staleReset.hostTurn, rfl, by decide, rfl⟩

theorem witness_ResetInputKeepsThePartner :
    (hostAbout [.reset, .read .ok]).busy = false ∧ (hostAbout [.reset, .read .ok]).inputs = [.reset, .read .ok] :=
  ⟨rfl, rfl⟩

theorem witness_EveryStepKeepsInvariant : ∃ t, State.reset.Inv ∧ step State.reset = .next t :=
  ⟨_, ⟨by decide, by decide, by decide, by decide, by decide⟩, rfl⟩

/-- A command that ends in a next state, for the statements about every such command. -/
theorem witness_exec_next : ∃ t, exec (.wrregs 0x55#7 7#8 6#8) (idleWith .oracle) = .next t := ⟨_, rfl⟩

theorem witness_EveryCommandLeavesItsPins : ∃ t, exec (.rxb true) (idleWith .oracle) = .next t := ⟨_, rfl⟩

theorem witness_EveryCommandRunsItsExpansion :
    (Instr.wrregs 0x55#7 7#8 6#8).wf = true ∧ (idleWith .oracle).payload 6 = some block := ⟨rfl, rfl⟩

theorem witness_PrimitivesIgnoreThePartner : ∃ t, exec .oscrd (idleWith .oracle) = .next t := ⟨_, rfl⟩

theorem witness_CommandCountsOfTheTable :
    (idleWith .oracle).ready .oscwr = true ∧ State.reset.bootPending = true := by decide

/-- The payload of a buffer whose first `n` entries are written. -/
theorem onBus_payload (n : Nat) (v : Byte) :
    (onBus idleBus .oracle (List.replicate n v)).payload n = some (List.replicate n v) := by
  refine (Memory.slice_eq_some _ _ _ _).2 ⟨List.length_replicate, fun j hj => ?_⟩
  rw [onBus, Memory.read_fill, if_pos (by simpa using hj), Nat.zero_add, Nat.sub_zero]

/-- Payloads of no byte, of one and of 255; the shortest read. -/
theorem witness_LayerTwoCommandsTerminate :
    ((idleWith .oracle).payload (0#8).toNat).isSome ∧ ((idleWith .oracle).payload (1#8).toNat).isSome ∧
    (onBus idleBus .oracle (List.replicate 255 0x5A#8)).payload (255#8).toNat = some (List.replicate 255 0x5A#8) ∧
    (1#8) ≠ 0#8 := by
  exact ⟨by decide, by decide, onBus_payload 255 0x5A#8, by decide⟩

theorem witness_CommandFrame :
    (∃ t, exec (.rdregs 0x55#7 7#8 1#8) (idleWith .oracle) = .next t) ∧ bufWritten (.rdregs 0x55#7 7#8 1#8) ≤ 1 ∧
    writesRdata (.rdregs 0x55#7 7#8 1#8) = false ∧ writesOk (.rxb true) = false ∧
    ∀ d, (idleWith .oracle).eng.partner ≠ .device d :=
  ⟨⟨_, rfl⟩, by decide, rfl, rfl, fun _ h => nomatch h⟩

theorem witness_NoCommandReadsEarlierResults : ∃ t, exec .oscwr (idleWith .oracle) = .next t := ⟨_, rfl⟩

theorem witness_CommandsStopOnlyAsTheSpecSays :
    exec (.wrregs 0x55#7 7#8 7#8) (idleWith .oracle) = .fault .unwrittenBuf ∧
    exec (.rdregs 0x55#7 7#8 0#8) (idleWith .oracle) = .refused (.zeroCountRead (idleWith .oracle)) := ⟨rfl, rfl⟩

/-- Both sides occur: six written entries serve `n = 6` and OSCWR, and `n = 7` names one that holds no value. -/
theorem witness_UnwrittenPayloadFaults :
    (idleWith .oracle).buf.read 5 ≠ none ∧ (idleWith .oracle).buf.read 6 = none ∧
    (onBus idleBus .oracle []).buf.read 0 = none := by decide

theorem witness_CommandsActThroughTheirTrace : ∃ t, exec (.rxb false) (idleWith .absent) = .next t := ⟨_, rfl⟩

theorem witness_LineShowsTheMasterButForPulledPulses : ∃ t, exec (.txb 0xFF#8) (idleWith .heldLow) = .next t := ⟨_, rfl⟩

theorem witness_LineOfAbsentAndHeldLowPartners :
    (∃ t, exec (.txb 0xFF#8) (idleWith .heldLow) = .next t) ∧ (idleWith .heldLow).eng.partner = .heldLow ∧
    (∃ t, exec (.txb 0xFF#8) (idleWith .absent) = .next t) ∧ (idleWith .absent).eng.partner = .absent :=
  ⟨⟨_, rfl⟩, rfl, ⟨_, rfl⟩, rfl⟩

/-- The device that is addressed and one that is not; the one of V55. -/
theorem witness_DeviceLeavesTheFramesOnTheLine :
    (idleWith (.device faultDevice)).eng.pins = idleBus ∧
    (idleWith (.device faultDevice)).eng.partner = .device faultDevice ∧ faultDevice.atRest = true ∧
    (addressee (.rdregs 0x55#7 7#8 2#8)).isSome = true ∧ (addressee (.wrreg 0x2A#7 7#8 1#8)).isSome = true ∧
    (∃ t, exec (.rdregs 0x55#7 7#8 2#8) (idleWith (.device faultDevice)) = .next t) ∧
    ∃ t, exec (.wrreg 0x2A#7 7#8 1#8) (idleWith (.device faultDevice)) = .next t :=
  ⟨rfl, rfl, rfl, rfl, rfl, ⟨_, rfl⟩, _, rfl⟩

/-- Both forms, entered with the clock low and with the clock high. -/
theorem witness_TransmitByteSendsNinePulses :
    (onBus (false, false) addressed []).eng.sclOut = false ∧ (onBus (true, true) .absent []).eng.sclOut = true := ⟨rfl, rfl⟩

theorem witness_ReceiveByteReadsEightPulses :
    (onBus (true, false) (sending 0xC2#8) []).eng.sclOut = false ∧ (onBus (false, true) .oracle []).eng.sclOut = true :=
  ⟨rfl, rfl⟩

theorem witness_OracleSamplesAreDraws : State.reset.eng.partner = .oracle := rfl

/-- Payloads of six bytes and of none; the entry state that a stop condition comes from. -/
theorem witness_WriteCommandsSendTheWriteFrame :
    (idleWith .oracle).payload (6#8).toNat = some block ∧ (idleWith .oracle).payload (0#8).toNat = some [] ∧
    (onBus (false, true) .oracle block).payload (6#8).toNat = some block ∧
    (onBus (false, true) .oracle block).eng.pins = (false, true) := ⟨rfl, rfl, rfl, rfl⟩

/-- A read of 255 bytes, one that ends with OK = 1, and the entry state that a stop condition comes from. -/
theorem witness_ReadCommandsReceiveTheReadFrame :
    (255#8) ≠ 0#8 ∧ (ran (idleWith .heldLow) 0x21550701).map (fun t => t.ok) = some true ∧
    (onBus (false, true) .oracle block).eng.pins = (false, true) :=
  ⟨by decide, by decide +kernel, rfl⟩

theorem witness_FailedReadLeavesFreeBytes :
    bufWritten (.rdreg 0x55#7 7#8) ≠ 0 ∧
    ∃ t, exec (.rdreg 0x55#7 7#8) (idleWith .absent) = .next t ∧ t.ok = false :=
  ⟨by decide, ((idleWith .absent).rdregs 0x55#7 7#8 1).complete, rfl, by decide +kernel⟩

theorem witness_WrregIsWrregsOfOneByte : (idleWith .oracle).buf.read 0 = some 0x01#8 := by decide

theorem witness_OscwrIsItsFourCommands : ((idleWith .oracle).payload 6).isSome := by decide

theorem witness_OscillatorCommandsSendTheirFrames :
    (idleWith .heldLow).payload 6 = some block ∧ ∃ t, exec .oscrd (idleWith .heldLow) = .next t ∧ t.ok = true :=
  ⟨rfl, (idleWith .heldLow).oscrd.complete, rfl, by
    rw [complete_ok, oscrd_eq]
    exact heldLow_steady.rdregs_ok _ rfl _ _ _⟩

theorem witness_AbsentPartnerNacksEverything :
    (idleWith .absent).eng.partner = .absent ∧ writesOk .oscwr = true ∧
    ∃ t, exec .oscwr (idleWith .absent) = .next t := ⟨rfl, rfl, _, rfl⟩

theorem witness_HeldLowLineReadsAsSuccess :
    (idleWith .heldLow).eng.partner = .heldLow ∧ writesOk .oscrd = true ∧ 5 < bufWritten .oscrd ∧
    writesRdata .sdard = true ∧ ∃ t, exec .oscrd (idleWith .heldLow) = .next t := ⟨rfl, rfl, by decide, rfl, _, rfl⟩

/-- A reference partner at rest, with no byte left without an acknowledgment. -/
def refDevice : Device := Device.create 0x55#7 blockRegs []

/-- The fault-injecting partner of P2, at whatever address the oscillator has: byte 11 is not acknowledged. -/
def oscDevice : Device := Device.create Config.osc.addr zeros [11]

/-- Both commands, and devices with and without bytes that they do not acknowledge. -/
theorem witness_ReferencePartnerStoresWhatIsWritten :
    (∀ d, (idleWith (.device d)).eng.pins = idleBus ∧ (idleWith (.device d)).eng.partner = .device d) ∧
    refDevice.atRest = true ∧ faultDevice.atRest = true ∧ (idleWith (.device refDevice)).payload (6#8).toNat = some block ∧
    ∃ x, (.wrreg faultDevice.pa 7#8 1#8 : Instr) = .wrreg faultDevice.pa 7#8 x ∧ [1#8] = [x] :=
  ⟨fun _ => ⟨rfl, rfl⟩, rfl, rfl, rfl, _, rfl, rfl⟩

/-- Both clauses: a device that acknowledges everything, and that of V55; one at the oscillator's address. -/
theorem witness_ReferencePartnerReturnsItsRegisters :
    (∀ d, (idleWith (.device d)).eng.pins = idleBus ∧ (idleWith (.device d)).eng.partner = .device d) ∧
    refDevice.atRest = true ∧ refDevice.nackAt = [] ∧ faultDevice.atRest = true ∧ faultDevice.nackAt.contains 2 = true ∧
    (255#8) ≠ 0#8 ∧ oscDevice.atRest = true ∧ oscDevice.pa = Config.osc.addr :=
  ⟨fun _ => ⟨rfl, rfl⟩, rfl, rfl, rfl, rfl, by decide, rfl, rfl⟩

/-- A device at another address than the oscillator's, whatever that is. -/
def elsewhere : Device := Device.create (Config.osc.addr + 1#7) zeros []

/-- A register command and an oscillator command. -/
theorem witness_OtherAddressLeavesTheDeviceAlone :
    (∀ d, (idleWith (.device d)).eng.pins = idleBus ∧ (idleWith (.device d)).eng.partner = .device d) ∧
    refDevice.atRest = true ∧ addressee (.wrreg 0x2A#7 7#8 1#8) = some 0x2A#7 ∧ 0x2A#7 ≠ refDevice.pa ∧
    (idleWith (.device refDevice)).ready (.wrreg 0x2A#7 7#8 1#8) = true ∧ elsewhere.atRest = true ∧
    addressee .oscwr = some Config.osc.addr ∧ Config.osc.addr ≠ elsewhere.pa ∧
    (idleWith (.device elsewhere)).ready .oscwr = true :=
  ⟨fun _ => ⟨rfl, rfl⟩, rfl, rfl, by decide, rfl, rfl, rfl, fun h => absurd (BitVec.self_eq_add_right.1 h) (by decide), rfl⟩

theorem witness_WriteThenReadReturnsTheBytes :
    (idleWith (.device refDevice)).eng.pins = idleBus ∧ (idleWith (.device refDevice)).eng.partner = .device refDevice ∧
    refDevice.atRest = true ∧ refDevice.nackAt = [] ∧ (6#8) ≠ 0#8 ∧
    (idleWith (.device refDevice)).payload (6#8).toNat = some block := ⟨rfl, rfl, rfl, rfl, by decide, rfl⟩

theorem witness_OscwrIsFailSoft :
    (idleWith (.device oscDevice)).eng.pins = idleBus ∧ (idleWith (.device oscDevice)).eng.partner = .device oscDevice ∧
    oscDevice.atRest = true ∧ oscDevice.pa = Config.osc.addr ∧
    (idleWith (.device oscDevice)).payload 6 = some block := ⟨rfl, rfl, rfl, rfl, rfl⟩

end Sys2Proof.Tests
end

/-! PROOFS. The state and the step: what every command is once it runs to its end, the invariant of the machine, the
frames of the commands, and the waveform. -/

namespace Sys2Proof.Machine

/-! ### A step, by the kind of state it starts from -/

theorem step_of_bootPending {s : State} (h : s.bootPending = true) : step s = .next s.bootRead := by
  rw [step, if_pos h]

theorem bootPending_of_running {s : State} (h : s.eng.seq.phase = .running) : s.bootPending = false := by
  simp [State.bootPending, h]

theorem bootPending_of_not_busy {s : State} (h : s.busy = false) : s.bootPending = false := by
  simp [State.bootPending, h]

theorem runCommand_of_decode {s : State} {i : Instr} (h : decode s.cmd = .ok i) : runCommand s = exec i s := by
  simp only [runCommand, State.command, h]

theorem step_of_running {s : State} {i : Instr} (hb : s.busy = true) (hr : s.eng.seq.phase = .running)
    (hd : decode s.cmd = .ok i) : step s = exec i s := by
  simp [step, bootPending_of_running hr, hb, runCommand_of_decode hd]

theorem step_of_not_busy {s : State} (h : s.busy = false) : step s = .next s.hostTurn := by
  simp [step, bootPending_of_not_busy h, h]

/-- The step after a launch runs the word that was launched (R29). -/
theorem step_launch (s : State) {w : Word} {i : Instr} (h : decode w = .ok i) :
    step (s.launch w) = exec i (s.launch w) :=
  step_of_running (launch_busy s w) rfl h

theorem decode_of_decodeTableWord {nbits w : Nat} {i : Instr} (h : decodeTableWord nbits w = some i) :
    decode (tableWord nbits w) = .ok i := by
  unfold decodeTableWord at h
  split at h
  · rename_i j hj
    rw [hj, Option.some.inj h]
  · cases h

theorem hostTurn_cons {s : State} {x : Input} {rest : List Input} (h : s.inputs = x :: rest) :
    s.hostTurn = { s with inputs := rest }.applyInput x := by
  simp only [State.hostTurn, h]

/-- Settles O7: a running sequencer is no pending boot read, so the step is the launched command. -/
theorem stepRunsTheDecodedCommand : Obligations.StepRunsTheDecodedCommand :=
  fun _ _ hb hr hd => step_of_running hb hr hd

/-- Settles O8: `withFetchWord` ends with a launch. -/
theorem placedWordIsRunNext : Obligations.PlacedWordIsRunNext :=
  fun s _ _ _ h => step_launch s.afterBoot (decode_of_decodeTableWord h)

/-- Settles O9: the host's turn is the launch, which changes only CMD, BUSY and the sequencer. -/
theorem hostWriteToCmdLaunches : Obligations.HostWriteToCmdLaunches := by
  intro s w rest hb hi
  refine ⟨{ s with inputs := rest }.launch w, ?_, rfl, rfl, rfl, rfl, rfl, rfl, rfl, rfl, rfl, rfl,
    fun i hd => step_launch _ hd⟩
  rw [step_of_not_busy hb, hostTurn_cons hi, State.applyInput]

/-! ### What the host reads -/

theorem hostRead_busy (s : State) : s.hostRead .busy = some (if s.busy then 0x01#8 else 0x00#8) := by
  cases hb : s.busy <;> simp [State.hostRead, hb]

/-- R191: while BUSY is 1 every other register answers nothing. -/
theorem hostRead_of_busy {s : State} {x : HostReg} (hb : s.busy = true) (hx : x ≠ .busy) : s.hostRead x = none := by
  cases x with
  | busy => exact absurd rfl hx
  | _ => simp [State.hostRead, hb]

theorem hostRead_ok {s : State} (hb : s.busy = false) :
    s.hostRead .ok = some (if s.ok then 0x01#8 else 0x00#8) := by
  cases ho : s.ok <;> simp [State.hostRead, hb, ho]

/-- Settles O13, by cases on BUSY. -/
theorem hostReadsOnlyWhenIdle : Obligations.HostReadsOnlyWhenIdle := by
  refine ⟨fun s x hb hx => hostRead_of_busy hb hx, fun s hb => ⟨?_, ?_, hostRead_ok hb, fun i => ?_, fun i => ?_⟩,
    fun s hb => ?_⟩
  · simp [hostRead_busy, hb]
  · simp [State.hostRead, hb]
  · simp [State.hostRead, hb]
  · simp [State.hostRead, hb]
  · simp [hostRead_busy, hb]

/-! ### Reset and the boot read -/

/-- Every entry that a read delivers holds a value, whether the read succeeded or not (R141, R146). -/
theorem rdregs_read_isSome (s : State) (a : DevAddr) (r : RegAddr) {n j : Nat} (h : j < n) :
    ((s.rdregs a r n).buf.read j).isSome = true := by
  rw [rdregs_read, if_pos h]
  split
  · simpa using h
  · rfl

/-- R212: the snapshot of the boot read is what the read left in `BUF[0..5]`. -/
theorem bootRead_read (s : State) (i : Fin 6) : s.bootRead.buf.read i.val = some s.bootRead.snapshot[i] := by
  obtain ⟨v, hv⟩ := Option.isSome_iff_exists.1 (rdregs_read_isSome s Config.osc.addr Config.osc.regBase i.isLt)
  rw [← oscrd_eq] at hv
  rw [bootRead_snapshot, bootRead_buf, hv, Option.getD_some]

theorem exec_oscrd (s : State) : exec .oscrd s = .next s.oscrd.complete := rfl

theorem reset_bootPending : State.reset.bootPending = true := rfl

@[simp] theorem complete_pins (s : State) : s.complete.eng.pins = s.eng.pins := rfl

@[simp] theorem wrregs_pins (s : State) (a : DevAddr) (r : RegAddr) (bs : List Byte) :
    (s.wrregs a r bs).eng.pins = (true, true) := rfl

@[simp] theorem rdregs_pins (s : State) (a : DevAddr) (r : RegAddr) (n : Nat) :
    (s.rdregs a r n).eng.pins = (true, true) := rfl

theorem oscwr_pins (s : State) (bs : List Byte) : (s.oscwr bs).eng.pins = (true, true) := by
  rw [oscwr_eng, State.oscCommit, wrreg_eq, wrregs_pins]

theorem bootRead_pins (s : State) : s.bootRead.eng.pins = idleBus := by
  rw [bootRead_eng, complete_pins, oscrd_eq, rdregs_pins, idleBus]

/-- Settles O14: the reset values by evaluation, the first step by the facts about the boot read. -/
theorem resetValuesAndBootRead : Obligations.ResetValuesAndBootRead := by
  obtain ⟨hsda, hscl⟩ := Prod.ext_iff.1 (bootRead_pins State.reset)
  refine ⟨rfl, rfl, rfl, rfl, rfl, rfl, rfl, State.reset.bootRead, State.reset.oscrd.complete, exec_oscrd _,
    step_of_bootPending reset_bootPending, hsda, hscl, bootRead_busy _, ?_, ?_, bootRead_read State.reset⟩
  · rw [bootRead_ok, complete_ok]
  · rw [bootRead_buf, complete_buf]

/-! ### What a command does when it runs to its end -/

/-- What a command with the payload `bs` does before its completion. -/
def State.perform (s : State) (i : Instr) (bs : List Byte) : State :=
  match i with
  | .sdahi => { s with eng := s.eng.sdahi }
  | .sdalo => { s with eng := s.eng.sdalo }
  | .sclhi => { s with eng := s.eng.sclhi }
  | .scllo => { s with eng := s.eng.scllo }
  | .sdard => { s with eng := s.eng.sdard.2, rdata := zextLevel s.eng.sdard.1 }
  | .start => { s with eng := s.eng.start }
  | .stop => { s with eng := s.eng.stop }
  | .txb b => { s with eng := (s.eng.txb b).2 }.setOk (s.eng.txb b).1
  | .rxb k => { s with eng := (s.eng.rxb k).2, rdata := (s.eng.rxb k).1 }
  | .wrregs a r _ => s.wrregs a r bs
  | .rdregs a r n => s.rdregs a r n.toNat
  | .wrreg a r d => s.wrreg a r d
  | .rdreg a r => s.rdregs a r 1
  | .oscwr => s.oscwr bs
  | .oscrd => s.oscrd

/-- A well-formed command whose payload holds values runs to its end (R89, R140, R160). -/
theorem exec_of_payload {i : Instr} {s : State} {bs : List Byte} (hw : i.wf = true)
    (hp : s.payload (payloadLen i) = some bs) : exec i s = .next (s.perform i bs).complete := by
  cases i with
  | wrregs a r n => exact exec_wrregs a r hp
  | rdregs a r n => exact exec_rdregs s a r (by simpa [Instr.wf] using hw)
  | oscwr => exact exec_oscwr hp
  | _ => rfl

/-- Only a well-formed command whose payload holds values runs to its end. -/
theorem exec_next {i : Instr} {s t : State} (h : exec i s = .next t) :
    i.wf = true ∧ ∃ bs, s.payload (payloadLen i) = some bs ∧ t = (s.perform i bs).complete := by
  cases i with
  | wrregs a r n => exact ⟨rfl, execWrregs_next h⟩
  | rdregs a r n =>
    obtain ⟨hn, ht⟩ := execRdregs_next h
    exact ⟨by simpa [Instr.wf] using hn, [], rfl, ht⟩
  | oscwr => exact ⟨rfl, execOscwr_next h⟩
  | _ => exact ⟨rfl, [], rfl, (Host.Outcome.next.inj h).symm⟩

section Perform

variable (s : State) (i : Instr) (bs : List Byte)

@[simp] theorem perform_snapshot : (s.perform i bs).snapshot = s.snapshot := by cases i <;> rfl
@[simp] theorem perform_cmd : (s.perform i bs).cmd = s.cmd := by cases i <;> rfl
@[simp] theorem perform_inputs : (s.perform i bs).inputs = s.inputs := by cases i <;> rfl

theorem perform_ok_of_not_writesOk (h : writesOk i = false) : (s.perform i bs).ok = s.ok := by
  cases i with
  | txb b => cases h
  | wrregs a r n => cases h
  | rdregs a r n => cases h
  | wrreg a r d => cases h
  | rdreg a r => cases h
  | oscwr => cases h
  | oscrd => cases h
  | _ => rfl

theorem perform_rdata_of_not_writesRdata (h : writesRdata i = false) : (s.perform i bs).rdata = s.rdata := by
  cases i with
  | sdard => cases h
  | rxb k => cases h
  | _ => rfl

/-- A command writes `BUF` from entry 0 up, as many entries as `bufWritten` says (R27). -/
theorem perform_buf : ∃ vs, vs.length = bufWritten i ∧ (s.perform i bs).buf = s.buf.fill 0 vs := by
  cases i with
  | rdregs a r n => exact ⟨_, by simp [bufWritten], rdregs_buf s a r n.toNat⟩
  | rdreg a r => exact ⟨_, by simp [bufWritten], rdregs_buf s a r 1⟩
  | oscrd => exact ⟨_, by simp [bufWritten], rdregs_buf s Config.osc.addr Config.osc.regBase 6⟩
  | _ => exact ⟨[], rfl, rfl⟩

theorem perform_pins : (s.perform i bs).eng.pins = pinsLeft i s.eng.pins := by
  cases i with
  | txb b => exact txb_pins s.eng b
  | rxb k => exact rxb_pins s.eng k
  | wrregs a r n => exact wrregs_pins s a r bs
  | rdregs a r n => exact rdregs_pins s a r n.toNat
  | wrreg a r d => exact wrregs_pins s a r [d]
  | rdreg a r => exact rdregs_pins s a r 1
  | oscwr => exact oscwr_pins s bs
  | oscrd => exact rdregs_pins s Config.osc.addr Config.osc.regBase 6
  | _ => rfl

end Perform

/-- What a command writes of BUF lies below index 256. -/
theorem bufWritten_le (i : Instr) : bufWritten i ≤ 256 := by
  cases i with
  | rdregs a r n => exact n.isLt.le
  | _ => simp [bufWritten]

/-- The events of a read of one byte or more are those of its expansion (R141). -/
theorem rdregs_expansion (s : State) (a : DevAddr) (r : RegAddr) {n : Nat} (hn : n < 256) (h0 : n ≠ 0) :
    ∃ tr, (s.rdregs a r n).eng.trace = s.eng.trace ++ tr ∧ tr.map Event.prim = primsRead a r n := by
  refine ⟨_, (rdregs_ran s a r n hn).trace, ?_⟩
  rw [prims_readTrace a r _ _ (readLevels_eight s a r n) (readLevels_ne_nil s a r h0), readLevels_length]

/-- What a well-formed command records is its fixed expansion, whatever it samples (R145). -/
theorem perform_expansion (s : State) {i : Instr} (bs : List Byte) (hw : i.wf = true) :
    ∃ tr, (s.perform i bs).eng.trace = s.eng.trace ++ tr ∧ tr.map Event.prim = expansion i bs := by
  cases i with
  | txb b => exact ⟨_, (txb_ran s.eng b).trace, prims_txTrace b _⟩
  | rxb k => exact ⟨_, (rxb_ran s.eng k).trace, prims_rxTrace _ k (dataLevels_length _)⟩
  | wrregs a r n => exact ⟨_, (wrregs_ran s a r bs).trace, prims_writeTrace a r bs _ (writeAcks_length _ a r bs)⟩
  | rdregs a r n => exact rdregs_expansion s a r n.isLt (toNat_ne_zero (by simpa [Instr.wf] using hw))
  | wrreg a r d => exact ⟨_, (wrregs_ran s a r [d]).trace, prims_writeTrace a r [d] _ (writeAcks_length _ a r [d])⟩
  | rdreg a r => exact rdregs_expansion s a r (by decide) (by decide)
  | oscwr => exact ⟨_, (oscwr_ran s bs).trace, prims_oscTrace s bs⟩
  | oscrd => exact rdregs_expansion s _ _ (by decide) (by decide)
  | start => exact ⟨_, (start_ran s.eng).trace, prims_start⟩
  | stop => exact ⟨_, (stop_ran s.eng).trace, prims_stop⟩
  | _ => exact ⟨_, rfl, rfl⟩

/-- Settles O20, from the pins each procedure leaves. -/
theorem everyCommandLeavesItsPins : Obligations.EveryCommandLeavesItsPins := by
  intro i s t h
  obtain ⟨-, bs, -, rfl⟩ := exec_next h
  exact perform_pins s i bs

/-- Settles O22: the payload is in BUF, so the same expansion runs with every partner. -/
theorem primitivesIgnoreThePartner : Obligations.PrimitivesIgnoreThePartner := by
  intro i s t p n h
  obtain ⟨hw, bs, hp, rfl⟩ := exec_next h
  obtain ⟨tr, htr, hprims⟩ := perform_expansion s bs hw
  obtain ⟨tr', htr', hprims'⟩ := perform_expansion { s with eng := { s.eng with partner := p, draws := n } } bs hw
  exact ⟨_, tr, tr', exec_of_payload hw hp, htr, htr', hprims.trans hprims'.symm⟩

/-- What the events of a command did to the pins and the partner of the state. -/
theorem exec_state_ran {i : Instr} {s t : State} (h : exec i s = .next t) : ∃ tr, s.Ran t tr := by
  obtain ⟨e, tr, hr, ht⟩ := exec_ran h
  exact ⟨tr, by rw [ht]; exact hr.trace, by rw [ht]; exact hr.pins, by rw [ht]; exact hr.partner,
    by rw [ht]; exact hr.bitInRange⟩

/-- Settles O26: each field by the frame of `State.perform`, the partner by the events. -/
theorem commandFrame : Obligations.CommandFrame := by
  intro i s t h
  obtain ⟨tr, hran⟩ := exec_state_ran h
  obtain ⟨-, bs, -, rfl⟩ := exec_next h
  refine ⟨perform_ok_of_not_writesOk s i bs, perform_rdata_of_not_writesRdata s i bs, fun j hj => ?_,
    perform_snapshot s i bs, perform_cmd s i bs, perform_inputs s i bs, hran.partner⟩
  obtain ⟨vs, hlen, hbuf⟩ := perform_buf s i bs
  rw [complete_buf, hbuf, Memory.read_fill, if_neg (by omega)]

/-- Settles O34: the engine after a command is its trace carried out again, but for the sequencer and the draws. -/
theorem commandsActThroughTheirTrace : Obligations.CommandsActThroughTheirTrace := by
  intro i s t h
  obtain ⟨e, tr, hr, ht⟩ := exec_ran h
  have hreplay := hr.replays
  refine ⟨tr, by rw [ht]; exact hr.trace, hr.heard, ?_, ?_⟩
  · rw [ht, hreplay]
    rfl
  · rw [ht, hreplay]

/-! ### No command looks at an earlier result -/

/-- A procedure of the engine that does not look at the sequencer keeps engines alike. -/
theorem State.Alike.procedure {s s' : State} (h : s.Alike s') {f : Engine → Engine}
    (hf : ∀ e q, f { e with seq := q } = { f e with seq := (f { e with seq := q }).seq }) :
    f s'.eng = { f s.eng with seq := (f s'.eng).seq } := by
  rw [h.eng]
  exact hf _ _

theorem State.Alike.payload {s s' : State} (h : s.Alike s') (n : Nat) : s'.payload n = s.payload n := by
  rw [State.payload, State.payload, h.buf]

/-- OSCWR gives alike states the same flag (R160). -/
theorem State.Alike.oscwr {s s' : State} (h : s.Alike s') (bs : List Byte) :
    (s.oscwr bs).Alike (s'.oscwr bs) ∧ (s'.oscwr bs).ok = (s.oscwr bs).ok := by
  obtain ⟨h1, k1⟩ := h.wrregs Config.osc.addr Config.osc.regFreeze [Config.osc.freezeWord]
  obtain ⟨h2, k2⟩ := h1.wrregs Config.osc.addr Config.osc.regBase bs
  obtain ⟨h3, k3⟩ := h2.wrregs Config.osc.addr Config.osc.regFreeze [unfreezeWord]
  obtain ⟨h4, k4⟩ := h3.wrregs Config.osc.addr Config.osc.regCtrl [Config.osc.newFreqWord]
  refine ⟨⟨by rw [oscwr_eng, oscwr_eng]; exact h4.eng, h.buf, h.inputs⟩, ?_⟩
  simp only [oscwr_ok, State.oscFreeze, State.oscBulk, State.oscUnfreeze, State.oscCommit, wrreg_eq, k1, k2, k3, k4]

/-- R25, R30: a command keeps states alike, and writes the same OK and the same RDATA to both, where it writes them. -/
theorem State.Alike.perform {s s' : State} (h : s.Alike s') (i : Instr) (bs : List Byte) :
    (s.perform i bs).Alike (s'.perform i bs) ∧
    (s'.perform i bs).ok = (if writesOk i then (s.perform i bs).ok else s'.ok) ∧
    (s'.perform i bs).rdata = (if writesRdata i then (s.perform i bs).rdata else s'.rdata) := by
  cases i with
  | sdahi => exact ⟨⟨h.procedure (f := Engine.sdahi) fun _ _ => rfl, h.buf, h.inputs⟩, rfl, rfl⟩
  | sdalo => exact ⟨⟨h.procedure (f := Engine.sdalo) fun _ _ => rfl, h.buf, h.inputs⟩, rfl, rfl⟩
  | sclhi => exact ⟨⟨h.procedure (f := Engine.sclhi) fun _ _ => rfl, h.buf, h.inputs⟩, rfl, rfl⟩
  | scllo => exact ⟨⟨h.procedure (f := Engine.scllo) fun _ _ => rfl, h.buf, h.inputs⟩, rfl, rfl⟩
  | start => exact ⟨⟨h.procedure (f := Engine.start) fun _ _ => rfl, h.buf, h.inputs⟩, rfl, rfl⟩
  | stop => exact ⟨⟨h.procedure (f := Engine.stop) fun _ _ => rfl, h.buf, h.inputs⟩, rfl, rfl⟩
  | sdard =>
    exact ⟨⟨h.procedure (f := fun e => e.sdard.2) fun _ _ => rfl, h.buf, h.inputs⟩, rfl,
      congrArg zextLevel (by rw [h.eng]; rfl)⟩
  | txb b =>
    have ht := txb_seq s.eng s'.eng.seq b
    rw [← h.eng] at ht
    exact ⟨⟨ht.2, h.buf, h.inputs⟩, ht.1, rfl⟩
  | rxb k =>
    have ht := rxb_seq s.eng s'.eng.seq k
    rw [← h.eng] at ht
    exact ⟨⟨ht.2, h.buf, h.inputs⟩, rfl, ht.1⟩
  | wrregs a r n => exact ⟨(h.wrregs a r bs).1, (h.wrregs a r bs).2, rfl⟩
  | rdregs a r n => exact ⟨(h.rdregs a r _).1, (h.rdregs a r _).2, rfl⟩
  | wrreg a r d => exact ⟨(h.wrregs a r [d]).1, (h.wrregs a r [d]).2, rfl⟩
  | rdreg a r => exact ⟨(h.rdregs a r 1).1, (h.rdregs a r 1).2, rfl⟩
  | oscwr => exact ⟨(h.oscwr bs).1, (h.oscwr bs).2, rfl⟩
  | oscrd => exact ⟨(h.rdregs _ _ _).1, (h.rdregs _ _ _).2, rfl⟩

/-- Settles O27: alike states stay alike, and complete to states that differ in nothing but unwritten results. -/
theorem noCommandReadsEarlierResults : Obligations.NoCommandReadsEarlierResults := by
  intro i s t ok rdata snap cmd q h
  obtain ⟨hw, bs, hp, rfl⟩ := exec_next h
  have hs : s.Alike { s with ok := ok, rdata := rdata, snapshot := snap, cmd := cmd, eng := { s.eng with seq := q } } :=
    ⟨rfl, rfl, rfl⟩
  obtain ⟨halike, hok, hrdata⟩ := hs.perform i bs
  rw [exec_of_payload hw ((hs.payload _).trans hp), halike.complete, hok, hrdata, perform_snapshot, perform_cmd]
  rfl

/-! ### The invariant -/

/-- Settles O18: every clause by evaluation. -/
theorem resetStateMeetsInvariant : Obligations.ResetStateMeetsInvariant :=
  ⟨rfl, fun _ => rfl, fun _ => rfl, rfl, rfl⟩

/-- What runs by its events to an idle sequencer, with BUF canonical, keeps the invariant. -/
theorem State.Inv.of_ran {s t : State} {tr : List Event} (hs : s.Inv) (hr : s.Ran t tr)
    (hidle : t.eng.seq = Sequencer.idle) (hbuf : t.buf.wf = true) : t.Inv where
  buf_wf := hbuf
  idle_of_not_busy _ := hidle
  idle_of_phase _ := hidle
  pins_trace := by rw [hr.pins, hs.pins_trace, hr.trace, pinsAfter_append]
  device_bit := hr.bitInRange hs.device_bit

/-- A command keeps BUF canonical (R27). -/
theorem perform_buf_wf (s : State) (i : Instr) (bs : List Byte) (h : s.buf.wf = true) :
    (s.perform i bs).buf.wf = true := by
  obtain ⟨vs, hlen, hbuf⟩ := perform_buf s i bs
  have hle := bufWritten_le i
  rw [hbuf]
  exact s.buf.wf_fill 0 vs (by omega) h

theorem State.Inv.exec {i : Instr} {s t : State} (hs : s.Inv) (h : exec i s = .next t) : t.Inv := by
  obtain ⟨tr, hran⟩ := exec_state_ran h
  obtain ⟨-, bs, -, rfl⟩ := exec_next h
  exact hs.of_ran hran rfl (perform_buf_wf s i bs hs.buf_wf)

/-- The boot read is OSCRD but for SNAPSHOT, of which the invariant says nothing. -/
theorem State.Inv.bootRead {s : State} (hs : s.Inv) : s.bootRead.Inv := by
  obtain ⟨h1, h2, h3, h4, h5⟩ := hs.exec (exec_oscrd s)
  rw [bootRead_eq]
  exact ⟨h1, h2, h3, h4, h5⟩

/-- An action of the outside world on an idle controller keeps the invariant (R190, R210). -/
theorem State.Inv.applyInput {s : State} (hs : s.Inv) (x : Input) : (s.applyInput x).Inv := by
  obtain ⟨hbuf, hidle, hphase, hpins, hbit⟩ := hs
  cases x with
  | writeBuf i v => exact ⟨s.buf.wf_write i.toNat v i.isLt hbuf, hidle, hphase, hpins, hbit⟩
  | writeCmd w => exact ⟨hbuf, nofun, nofun, hpins, hbit⟩
  | read r => exact ⟨hbuf, hidle, hphase, hpins, hbit⟩
  | reset => exact ⟨rfl, fun _ => rfl, fun _ => rfl, rfl, hbit⟩

theorem State.Inv.hostTurn {s : State} (hs : s.Inv) : s.hostTurn.Inv := by
  cases hi : s.inputs with
  | nil => simpa only [State.hostTurn, hi] using hs
  | cons x rest =>
    obtain ⟨hbuf, hidle, hphase, hpins, hbit⟩ := hs
    have hrest : ({ s with inputs := rest } : State).Inv := ⟨hbuf, hidle, hphase, hpins, hbit⟩
    rw [hostTurn_cons hi]
    exact hrest.applyInput x

/-- Settles O19, by the three kinds of step. -/
theorem everyStepKeepsInvariant : Obligations.EveryStepKeepsInvariant := by
  intro s t hs h
  obtain ⟨-, rfl⟩ | ⟨-, -, i, -, hexec⟩ | ⟨-, rfl⟩ := step_cases h
  · exact hs.bootRead
  · exact hs.exec hexec
  · exact hs.hostTurn

/-! ### The waveform (R33) -/

theorem pinsAfter_cons (p : Pins) (x : Event) (tr : List Event) :
    pinsAfter p (x :: tr) = pinsAfter (pinsAfter p [x]) tr :=
  pinsAfter_append p [x] tr

/-- R33 for one event, said through the pins: it is kept iff it changes a level. -/
theorem wave_cons (p : Pins) (x : Event) (tr : List Event) :
    wave p (x :: tr) = if pinsAfter p [x] = p then wave p tr else x :: wave (pinsAfter p [x]) tr := by
  obtain ⟨a, c⟩ := p
  cases x <;> simp [wave, pinsAfter]

theorem wave_singleton (p : Pins) (x : Event) : wave p [x] = if pinsAfter p [x] = p then [] else [x] :=
  wave_cons p x []

theorem wave_append (p : Pins) (t1 t2 : List Event) :
    wave p (t1 ++ t2) = wave p t1 ++ wave (pinsAfter p t1) t2 := by
  induction t1 generalizing p with
  | nil => rfl
  | cons x rest ih =>
    rw [List.cons_append, wave_cons, wave_cons, pinsAfter_cons p x rest]
    split
    · rename_i hx
      rw [ih, hx]
    · rw [ih, List.cons_append]

theorem wave_sublist (p : Pins) (tr : List Event) : (wave p tr).Sublist tr := by
  induction tr generalizing p with
  | nil => exact List.Sublist.refl []
  | cons x rest ih =>
    rw [wave_cons]
    split
    · exact (ih p).cons x
    · exact (ih _).cons_cons x

theorem pinsAfter_wave (p : Pins) (tr : List Event) : pinsAfter p (wave p tr) = pinsAfter p tr := by
  induction tr generalizing p with
  | nil => rfl
  | cons x rest ih =>
    rw [wave_cons, pinsAfter_cons p x rest]
    split
    · rename_i hx
      rw [ih, hx]
    · rw [pinsAfter_cons, ih]

/-- Every event of a waveform changes the level of its pin. -/
theorem wave_changes (p : Pins) (tr pre post : List Event) (x : Event) (h : wave p tr = pre ++ x :: post) :
    pinsAfter p (pre ++ [x]) ≠ pinsAfter p pre := by
  induction tr generalizing p pre with
  | nil => simp [wave] at h
  | cons y rest ih =>
    rw [wave_cons] at h
    split at h
    · exact ih p pre h
    · rename_i hy
      cases pre with
      | nil =>
        obtain ⟨rfl, -⟩ := List.cons.inj h
        exact hy
      | cons z more =>
        obtain ⟨rfl, hmore⟩ := List.cons.inj h
        rw [List.cons_append, pinsAfter_cons, pinsAfter_cons p y more]
        exact ih _ more hmore

/-- Settles O33, by induction on the trace. -/
theorem waveformKeepsTheLevels : Obligations.WaveformKeepsTheLevels := by
  intro p tr
  refine ⟨rfl, fun x => ?_, wave_sublist p tr, fun pre x post => wave_changes p tr pre post x, pinsAfter_wave p tr⟩
  rw [wave_append, wave_singleton, pinsAfter_append]

end Sys2Proof.Machine

/-! PROOFS. Samples against the partners: the draws of the oracle, the absent partner, and a device at rest that is
addressed or not. -/

namespace Sys2Proof.Machine

/-! ### The oracle partner (R52) -/

theorem Partner.not_device_of_eq_oracle {p : Partner} (h : p = .oracle) : ∀ d, p ≠ .device d := by
  rintro d rfl
  cases h

/-- R52: the acknowledgment of TXB is the next draw. -/
theorem ackLevel_oracle (e : Engine) (b : Byte) (h : e.partner = .oracle) :
    e.ackLevel b = Config.partnerLevel e.draws := by
  rw [ackLevel_of_not_device e b (Partner.not_device_of_eq_oracle h), h, Partner.level]

/-- R52: bit `7 - j` of the byte RXB returns is draw number `j` from the next one on. -/
theorem rxb_bit_oracle (e : Engine) (k : Bool) (h : e.partner = .oracle) {j : Nat} (hj : j < 8) :
    (e.rxb k).1.getLsbD (7 - j) = Config.partnerLevel (e.draws + j) := by
  rw [rxb_byte, getLsbD_byteOf _ (dataLevels_length e) j hj,
    dataLevels_of_not_device e (Partner.not_device_of_eq_oracle h), h]
  simp [hj, Partner.level]

/-- Settles O42: the samples of both commands are the oracle's levels at their draws. -/
theorem oracleSamplesAreDraws : Obligations.OracleSamplesAreDraws := by
  intro s b k h
  refine ⟨⟨_, rfl, ?_⟩, _, rfl, fun j hj => rxb_bit_oracle s.eng k h hj⟩
  rw [complete_ok, setOk_ok, txb_ack, ackLevel_oracle s.eng b h]

/-! ### A partner whose level is always the same (R71, R216) -/

theorem Partner.Steady.oscwr_ok {p : Partner} {c : Bool} (h : p.Steady c) (s : State) (he : s.eng.partner = p)
    (bs : List Byte) : (s.oscwr bs).ok = !c := by
  obtain ⟨k1, h1⟩ := h.wrregs_ok s he Config.osc.addr Config.osc.regFreeze [Config.osc.freezeWord]
  obtain ⟨k2, h2⟩ := h.wrregs_ok _ h1 Config.osc.addr Config.osc.regBase bs
  obtain ⟨k3, h3⟩ := h.wrregs_ok _ h2 Config.osc.addr Config.osc.regFreeze [unfreezeWord]
  obtain ⟨k4, -⟩ := h.wrregs_ok _ h3 Config.osc.addr Config.osc.regCtrl [Config.osc.newFreqWord]
  simp only [Machine.oscwr_ok, State.oscFreeze, State.oscBulk, State.oscUnfreeze, State.oscCommit, wrreg_eq, k1, k2, k3,
    k4, Bool.and_self]

/-- Every command that writes OK writes the complement of the level (R25, R144). -/
theorem Partner.Steady.perform_ok {p : Partner} {c : Bool} (h : p.Steady c) (s : State) (he : s.eng.partner = p)
    {i : Instr} (bs : List Byte) (hi : writesOk i = true) : (s.perform i bs).ok = !c := by
  cases i with
  | txb b => exact (txb_ack s.eng b).trans (congrArg _ (h.ackLevel s.eng he b))
  | wrregs a r n => exact (h.wrregs_ok s he a r bs).1
  | rdregs a r n => exact h.rdregs_ok s he a r n.toNat
  | wrreg a r d => exact (h.wrregs_ok s he a r [d]).1
  | rdreg a r => exact h.rdregs_ok s he a r 1
  | oscwr => exact h.oscwr_ok s he bs
  | oscrd =>
    rw [State.perform, oscrd_eq]
    exact h.rdregs_ok s he _ _ 6
  | _ => cases hi

/-- RXB returns the byte of eight equal samples. -/
theorem Partner.Steady.rxb_byte {p : Partner} {c : Bool} (h : p.Steady c) (e : Engine) (he : e.partner = p) (k : Bool) :
    (e.rxb k).1 = byteOf (List.replicate 8 c) := by
  rw [Machine.rxb_byte, h.dataLevels e he]

/-- Settles O51: the absent partner's level is 1 at every sample. -/
theorem absentPartnerNacksEverything : Obligations.AbsentPartnerNacksEverything := by
  intro s he
  refine ⟨fun b => ⟨_, rfl, absent_steady.perform_ok s he (i := .txb b) [] rfl⟩,
    fun k => ⟨_, rfl, absent_steady.rxb_byte s.eng he k⟩, fun i t hi h => ?_⟩
  obtain ⟨-, bs, -, rfl⟩ := exec_next h
  exact absent_steady.perform_ok s he bs hi

/-! ### A device's registers -/

theorem Device.reg_setReg (d : Device) (i j v : Byte) : (d.setReg i v).reg j = if j = i then v else d.reg j := by
  simp only [Device.reg, Device.setReg, Vector.getElem_set, ← BitVec.toNat_inj, eq_comm]

/-- A register is read from `regs` alone. -/
theorem Device.reg_congr {d d' : Device} (h : d'.regs = d.regs) (i : Byte) : d'.reg i = d.reg i := by
  simp only [Device.reg, h]

/-- The addresses of successive registers (R67: the pointer wraps at 256). -/
theorem regAddr_succ (r : RegAddr) (j : Nat) : r + 1#8 + BitVec.ofNat 8 j = r + BitVec.ofNat 8 (j + 1) := by
  rw [BitVec.add_assoc, BitVec.ofNat_add, BitVec.add_comm (BitVec.ofNat 8 j)]

/-- No register among 256 in a row comes twice. -/
theorem regAddr_succ_ne (r : RegAddr) {j : Nat} (h : j + 1 < 256) : r ≠ r + BitVec.ofNat 8 (j + 1) := by
  intro he
  have h0 := congrArg BitVec.toNat (BitVec.self_eq_add_right.1 he)
  rw [BitVec.toNat_ofNat, Nat.mod_eq_of_lt h] at h0
  simp at h0

/-- A register that none of the bytes goes to is as it was. -/
theorem withBytes_reg_of_not_mem (d : Device) (r x : RegAddr) (bs : List Byte)
    (h : ∀ j, j < bs.length → x ≠ r + BitVec.ofNat 8 j) : (d.withBytes r bs).reg x = d.reg x := by
  induction bs generalizing d r with
  | nil => rfl
  | cons b rest ih =>
    have hr : x ≠ r := by simpa using h 0 (Nat.zero_lt_succ _)
    rw [Device.withBytes, ih, Device.reg_setReg, if_neg hr]
    intro j hj
    rw [regAddr_succ]
    exact h (j + 1) (Nat.succ_lt_succ hj)

/-- Byte `j` of at most 256 goes to register `r + j`, wrapping at 256 (R67, R68). -/
theorem withBytes_reg (d : Device) (r : RegAddr) (bs : List Byte) (hl : bs.length ≤ 256) {j : Nat}
    (hj : j < bs.length) : (d.withBytes r bs).reg (r + BitVec.ofNat 8 j) = bs[j] := by
  induction bs generalizing d r j with
  | nil => cases hj
  | cons b rest ih =>
    rw [List.length_cons] at hl
    cases j with
    | zero =>
      rw [Device.withBytes, BitVec.add_zero, withBytes_reg_of_not_mem, Device.reg_setReg, if_pos rfl,
        List.getElem_cons_zero]
      intro j hj
      rw [regAddr_succ]
      exact regAddr_succ_ne r (by omega)
    | succ j =>
      rw [← regAddr_succ, List.getElem_cons_succ]
      exact ih (d.setReg r b) (r + 1#8) (by omega) (Nat.lt_of_succ_lt_succ hj)

/-! ### The device that is addressed (R68, R72) -/

/-- WRREGS and WRREG as procedures, with the device they address: OK is 1 iff no count of theirs is in the set of R72. -/
theorem wrregs_device (s : State) (d : Device) (r : RegAddr) (bs : List Byte) (hb : s.eng.pins = idleBus)
    (hp : s.eng.partner = .device d) (hd : d.atRest = true) :
    (s.wrregs d.pa r bs).ok = ((List.range (bs.length + 2)).all fun j => !d.nackAt.contains (d.count + j)) ∧
    ∃ d', (s.wrregs d.pa r bs).eng.partner = .device d' ∧ d'.regs = (d.withBytes r bs).regs ∧
      d'.ptr = r + BitVec.ofNat 8 bs.length ∧ d'.atRest = true ∧ d'.pa = d.pa ∧ d'.nackAt = d.nackAt ∧
      d'.count = d.count + bs.length + 2 := by
  obtain ⟨hacks, d', hp', hregs, hptr, hrest, hpa, hnack, hcount⟩ := writeTransaction_device s.eng d d.pa r bs hp hb hd rfl
  refine ⟨?_, d', hp', hregs, hptr, hrest, hpa, hnack, by rw [hcount, Nat.add_assoc]⟩
  rw [wrregs_flag, hacks, List.all_map]
  rfl

/-- The count of a command is the length of its payload (R61, R140). -/
theorem payload_length {s : State} {n : Nat} {bs : List Byte} (h : s.payload n = some bs) : bs.length = n :=
  ((Memory.slice_eq_some s.buf 0 n bs).1 h).1

/-- A device with the registers that a write of at most 256 bytes leaves (R67, R68). -/
theorem Device.reg_of_regs_withBytes {d d' : Device} {r : RegAddr} {bs : List Byte}
    (h : d'.regs = (d.withBytes r bs).regs) (hl : bs.length ≤ 256) :
    (∀ j, j < bs.length → some (d'.reg (r + BitVec.ofNat 8 j)) = bs[j]?) ∧
    ∀ x, (∀ j, j < bs.length → x ≠ r + BitVec.ofNat 8 j) → d'.reg x = d.reg x := by
  refine ⟨fun j hj => ?_, fun x hx => ?_⟩
  · rw [Device.reg_congr h, withBytes_reg d r bs hl hj, List.getElem?_eq_getElem hj]
  · rw [Device.reg_congr h, withBytes_reg_of_not_mem d r x bs hx]

/-- Settles O53: both commands are the write transaction, of at most 255 bytes. -/
theorem referencePartnerStoresWhatIsWritten : Obligations.ReferencePartnerStoresWhatIsWritten := by
  intro s d r bs i hb hp hd hi
  obtain ⟨hexec, hl⟩ : exec i s = .next (s.wrregs d.pa r bs).complete ∧ bs.length ≤ 256 := by
    obtain ⟨n, rfl, hn⟩ | ⟨x, rfl, rfl⟩ := hi
    · exact ⟨exec_wrregs d.pa r hn, payload_length hn ▸ n.isLt.le⟩
    · exact ⟨rfl, by simp⟩
  obtain ⟨hok, d', hp', hregs, hptr, hrest, hpa, hnack, hcount⟩ := wrregs_device s d r bs hb hp hd
  obtain ⟨hin, hout⟩ := Device.reg_of_regs_withBytes hregs hl
  exact ⟨_, d', hexec, hp', hok, hin, hout, hptr, hrest, hpa, hnack, hcount⟩

/-- The data levels of a read spell the bytes it receives. -/
theorem readLevels_eq_bitsOf (s : State) (a : DevAddr) (r : RegAddr) (n : Nat) :
    s.readLevels a r n = (s.eng.readTransaction a r n).1.map bitsOf := by
  have h : ∀ vs ∈ s.readLevels a r n, (bitsOf ∘ byteOf) vs = vs := fun vs hvs =>
    bitsOf_byteOf vs (readLevels_eight s a r n vs hvs)
  rw [readTransaction_bytes, List.map_map, List.map_congr_left h, List.map_id']

/-- RDREGS as a procedure, with the device it addresses: it samples the three acknowledgments of R72 and then the
registers. -/
theorem rdregs_device (s : State) (d : Device) (r : RegAddr) {n : Nat} (hn : n < 256) (h0 : n ≠ 0)
    (hb : s.eng.pins = idleBus) (hp : s.eng.partner = .device d) (hd : d.atRest = true) :
    ∃ d' tr, (s.rdregs d.pa r n).eng.partner = .device d' ∧ (s.rdregs d.pa r n).eng.trace = s.eng.trace ++ tr ∧
      samples tr = ((List.range 3).map fun j => d.nackAt.contains (d.count + j)) ++
        (List.range n).flatMap (fun j => bitsOf (d.reg (r + BitVec.ofNat 8 j))) ∧
      (s.rdregs d.pa r n).ok = ((List.range 3).all fun j => !d.nackAt.contains (d.count + j)) ∧
      ((s.rdregs d.pa r n).ok = true →
        ∀ j, j < n → (s.rdregs d.pa r n).buf.read j = some (d.reg (r + BitVec.ofNat 8 j))) ∧
      d'.regs = d.regs ∧ d'.ptr = r + BitVec.ofNat 8 n ∧ d'.atRest = true ∧ d'.pa = d.pa ∧ d'.nackAt = d.nackAt ∧
      d'.count = d.count + 3 := by
  obtain ⟨hacks, hbytes, d', hp', hrest, hregs, hptr, hpa, hnack, hcount⟩ :=
    readTransaction_device s.eng d r n hn h0 hp hb hd
  refine ⟨d', _, hp', (rdregs_ran s d.pa r n hn).trace, ?_, ?_, fun hok j hj => ?_, hregs, hptr, hrest, hpa, hnack, hcount⟩
  · rw [samples_readTrace, hacks, readLevels_eq_bitsOf, hbytes, List.map_map]
    rfl
  · rw [rdregs_flag, hacks]
    simp [List.range_succ, Bool.and_assoc]
  · rw [rdregs_read, if_pos hj, if_pos hok, ← readTransaction_bytes, hbytes]
    simp [hj]

/-- Settles O54: the three commands are the read transaction of 1 to 255 bytes. -/
theorem referencePartnerReturnsItsRegisters : Obligations.ReferencePartnerReturnsItsRegisters := by
  intro s d r n i hb hp hd hi
  obtain ⟨hexec, hn, h0⟩ : exec i s = .next (s.rdregs d.pa r n).complete ∧ n < 256 ∧ n ≠ 0 := by
    obtain ⟨k, hk, rfl, rfl⟩ | ⟨rfl, rfl⟩ | ⟨rfl, ha, rfl, rfl⟩ := hi
    · exact ⟨exec_rdregs s d.pa r hk, k.isLt, toNat_ne_zero hk⟩
    · exact ⟨rfl, by decide, by decide⟩
    · exact ⟨by rw [exec_oscrd, oscrd_eq, ha], by decide, by decide⟩
  obtain ⟨d', tr, h⟩ := rdregs_device s d r hn h0 hb hp hd
  exact ⟨_, d', tr, hexec, h⟩

/-- Settles O56: the read returns the registers that the write left in the device. -/
theorem writeThenReadReturnsTheBytes : Obligations.WriteThenReadReturnsTheBytes := by
  intro s d r n bs m hb hp hd hnack hn hbs
  have hlen := payload_length hbs
  obtain ⟨-, d', hp', hregs, -, hrest, hpa, hnack', -⟩ := wrregs_device s d r bs hb hp hd
  obtain ⟨hin, -⟩ := Device.reg_of_regs_withBytes hregs (hlen ▸ n.isLt.le)
  obtain ⟨-, -, -, -, -, hok, hread, -⟩ := rdregs_device { (s.wrregs d.pa r bs).complete with buf := m } d' r n.isLt
    (toNat_ne_zero hn) rfl hp' hrest
  rw [hpa] at hok hread
  rw [hnack', hnack] at hok
  refine ⟨_, _, exec_wrregs d.pa r hbs, exec_rdregs _ d.pa r hn, hok, ?_⟩
  refine (Memory.slice_eq_some _ 0 n.toNat bs).2 ⟨hlen, fun j hj => ?_⟩
  rw [Nat.zero_add, complete_buf, hread hok j hj]
  exact hin j (hlen ▸ hj)

/-! ### A device at another address (R68) -/

/-- From `s`, with the device `d`, to `t` with nobody answering: OK is 0, every sample read 1, and the device is left as it
was, at rest on the idle bus. -/
structure State.Unanswered (s t : State) (d : Device) : Prop where
  trace : ∃ tr, t.eng.trace = s.eng.trace ++ tr ∧ ∀ v ∈ samples tr, v = true
  ok : t.ok = false
  pins : t.eng.pins = idleBus
  partner : ∃ d', t.eng.partner = .device d' ∧ d.Untouched d'

/-- A device at rest on the idle bus at another address than `a`, as every command to `a` finds and leaves it. -/
structure State.Elsewhere (s : State) (d : Device) (a : DevAddr) : Prop where
  pins : s.eng.pins = idleBus
  partner : s.eng.partner = .device d
  atRest : d.atRest = true
  address : a ≠ d.pa

theorem State.Elsewhere.wrregs {s : State} {d : Device} {a : DevAddr} (h : s.Elsewhere d a) (r : RegAddr)
    (bs : List Byte) : s.Unanswered (s.wrregs a r bs) d := by
  obtain ⟨hacks, d', hp', hd'⟩ := writeTransaction_other s.eng d a r bs h.partner h.pins h.atRest h.address
  refine ⟨⟨_, (wrregs_ran s a r bs).trace, ?_⟩, ?_, rfl, d', hp', hd'⟩
  · rw [samples_writeTrace a r bs _ (writeAcks_length s.eng a r bs)]
    exact hacks
  · have hfirst := hacks _ (List.mem_cons_self ..)
    rw [wrregs_flag, Engine.writeAcks, List.all_cons, hfirst]
    rfl

theorem State.Elsewhere.rdregs {s : State} {d : Device} {a : DevAddr} (h : s.Elsewhere d a) (r : RegAddr) {n : Nat}
    (hn : n < 256) : s.Unanswered (s.rdregs a r n) d := by
  obtain ⟨hacks, hdata, d', hp', hd'⟩ := readTransaction_other s.eng d a r n h.partner h.pins h.atRest h.address
  refine ⟨⟨_, (rdregs_ran s a r n hn).trace, ?_⟩, ?_, rfl, d', hp', hd'⟩
  · rw [samples_readTrace, hacks]
    simpa [State.readLevels] using fun v vs hvs => hdata vs hvs v
  · rw [rdregs_flag, hacks]
    rfl

/-- Where nobody answered, the next command to the address finds the same. -/
theorem State.Unanswered.trans {s t u : State} {d : Device} {a : DevAddr} (h : s.Unanswered t d) (ha : a ≠ d.pa)
    (hu : ∀ d', t.Elsewhere d' a → t.Unanswered u d') : s.Unanswered u d := by
  obtain ⟨⟨tr, htr, hs⟩, -, hpins, d', hp, hd⟩ := h
  obtain ⟨⟨tr', htr', hs'⟩, hok, hpins', d'', hp', hd'⟩ := hu d' ⟨hpins, hp, hd.atRest, hd.pa ▸ ha⟩
  refine ⟨⟨tr ++ tr', by rw [htr', htr, List.append_assoc], fun v hv => ?_⟩, hok, hpins', d'', hp', hd.trans hd'⟩
  rw [samples_append, List.mem_append] at hv
  exact hv.elim (hs v) (hs' v)

/-- OSCWR sends its four write transactions to the one address (R160). -/
theorem State.Elsewhere.oscwr {s : State} {d : Device} (h : s.Elsewhere d Config.osc.addr) (bs : List Byte) :
    s.Unanswered (s.oscwr bs) d := by
  have h1 := h.wrregs Config.osc.regFreeze [Config.osc.freezeWord]
  have h2 := h1.trans h.address fun d' h' => h'.wrregs Config.osc.regBase bs
  have h3 := h2.trans h.address fun d' h' => h'.wrregs Config.osc.regFreeze [unfreezeWord]
  obtain ⟨htrace, -, hpins, hpartner⟩ := h3.trans h.address fun d' h' =>
    h'.wrregs Config.osc.regCtrl [Config.osc.newFreqWord]
  have hok : s.oscFreeze.ok = false := h1.ok
  refine ⟨?_, by rw [oscwr_ok, hok]; rfl, oscwr_pins s bs, ?_⟩
  · rw [oscwr_eng]
    exact htrace
  · rw [oscwr_eng]
    exact hpartner

/-- Every register command is transactions to its addressee. -/
theorem State.Elsewhere.perform {s : State} {d : Device} {a : DevAddr} (h : s.Elsewhere d a) {i : Instr}
    (hi : addressee i = some a) (bs : List Byte) : s.Unanswered (s.perform i bs) d := by
  cases i with
  | wrregs b r n => cases hi; exact h.wrregs r bs
  | rdregs b r n => cases hi; exact h.rdregs r n.isLt
  | wrreg b r x => cases hi; exact h.wrregs r [x]
  | rdreg b r => cases hi; exact h.rdregs r (by decide)
  | oscwr => cases hi; exact h.oscwr bs
  | oscrd => cases hi; exact h.rdregs Config.osc.regBase (by decide)
  | _ => cases hi

/-- Settles O55: a ready command runs to its end, and nobody answers it. -/
theorem otherAddressLeavesTheDeviceAlone : Obligations.OtherAddressLeavesTheDeviceAlone := by
  intro s d i a hb hp hd hi ha hready
  obtain ⟨hw, hpay⟩ := (Bool.and_eq_true _ _).mp hready
  obtain ⟨bs, hbs⟩ := Option.isSome_iff_exists.1 hpay
  have he : s.Elsewhere d a := ⟨hb, hp, hd, ha⟩
  obtain ⟨⟨tr, htr, hs⟩, hok, -, d', hp', hd'⟩ := he.perform hi bs
  exact ⟨_, d', tr, exec_of_payload hw hbs, htr, hp', hok, hs, hd'.regs, hd'.ptr, hd'.atRest, hd'.pa, hd'.nackAt,
    hd'.count⟩

end Sys2Proof.Machine

/-! PROOFS. The encoding: decoding and encoding undo each other, the rows of the opcode map, the words of no row, and
the address byte. -/

namespace Sys2Proof

/-! ### The formats of R81: a word that a format accepts is its op and its operands, packed -/

section Formats

variable {w : Word} {j : Instr}

theorem eq_packWord_iff {op : Byte} {k : Bool} {a : DevAddr} {r : RegAddr} {n : Byte} :
    w = packWord op k a r n ↔ fieldOp w = op ∧ fieldK w = k ∧ fieldA w = a ∧ fieldR w = r ∧ fieldN w = n := by
  rw [← packWord_eq_packWord, packWord_fields]

theorem formatZ_eq_ok {i : Instr} : formatZ w i = .ok j ↔ w = packWord (fieldOp w) false 0#7 0#8 0#8 ∧ i = j := by
  simp [formatZ, ifZero_eq_ok, eq_packWord_iff, and_assoc]

theorem formatX_eq_ok {mk : Byte → Instr} :
    formatX w mk = .ok j ↔ w = packWord (fieldOp w) false 0#7 (fieldR w) 0#8 ∧ mk (fieldR w) = j := by
  simp [formatX, ifZero_eq_ok, eq_packWord_iff, and_assoc]

theorem formatK_eq_ok {mk : Bool → Instr} :
    formatK w mk = .ok j ↔ w = packWord (fieldOp w) (fieldK w) 0#7 0#8 0#8 ∧ mk (fieldK w) = j := by
  simp [formatK, ifZero_eq_ok, eq_packWord_iff, and_assoc]

theorem formatT_eq_ok {mk : DevAddr → RegAddr → Byte → Instr} :
    formatT w mk = .ok j ↔
      w = packWord (fieldOp w) false (fieldA w) (fieldR w) (fieldN w) ∧ mk (fieldA w) (fieldR w) (fieldN w) = j := by
  simp [formatT, ifZero_eq_ok, eq_packWord_iff]

theorem formatS_eq_ok {mk : DevAddr → RegAddr → Instr} :
    formatS w mk = .ok j ↔ w = packWord (fieldOp w) false (fieldA w) (fieldR w) 0#8 ∧ mk (fieldA w) (fieldR w) = j := by
  simp [formatS, ifZero_eq_ok, eq_packWord_iff]

end Formats

/-- Settles O1: the op of the encoded command selects its format, which reads the packed operands back. -/
theorem decodeOfEncodeIsTheCommand : Obligations.DecodeOfEncodeIsTheCommand := by
  intro i
  cases i with
  | txb b => simp [encode, decode, formatX_eq_ok]
  | rxb k => simp [encode, decode, formatK_eq_ok]
  | wrregs a r n => simp [encode, decode, formatT_eq_ok]
  | rdregs a r n => simp [encode, decode, formatT_eq_ok]
  | wrreg a r d => simp [encode, decode, formatT_eq_ok]
  | rdreg a r => simp [encode, decode, formatS_eq_ok]
  | _ => simp [encode, decode, formatZ_eq_ok]

/-- Settles O2: in each row of the map, by its format, the accepted word is the row's op and the operands, packed. -/
theorem encodeOfDecodeIsTheWord : Obligations.EncodeOfDecodeIsTheWord := by
  intro w i h
  unfold decode at h
  split at h <;> rename_i hop
  case h_8 => -- TXB
    obtain ⟨hw, rfl⟩ := formatX_eq_ok.1 h
    exact (hop ▸ hw).symm
  case h_9 => -- RXB
    obtain ⟨hw, rfl⟩ := formatK_eq_ok.1 h
    exact (hop ▸ hw).symm
  case h_10 | h_11 | h_12 => -- WRREGS, RDREGS, WRREG
    obtain ⟨hw, rfl⟩ := formatT_eq_ok.1 h
    exact (hop ▸ hw).symm
  case h_13 => -- RDREG
    obtain ⟨hw, rfl⟩ := formatS_eq_ok.1 h
    exact (hop ▸ hw).symm
  case h_16 => cases h -- no row
  all_goals -- the rows without operands
    obtain ⟨hw, rfl⟩ := formatZ_eq_ok.1 h
    exact (hop ▸ hw).symm

theorem decode_of_encode_eq {w : Word} {i : Instr} (h : encode i = w) : decode w = .ok i :=
  h ▸ decodeOfEncodeIsTheCommand i

/-- Settles O5: each word is the encoding of the command it stands for. -/
theorem wordsOfTheSpecDecode : Obligations.WordsOfTheSpecDecode := by
  refine ⟨?_, ?_, ?_, ?_, ?_, ?_, ?_, ?_, ?_, ?_, ?_, ?_, ?_, ?_, ?_⟩ <;> exact decode_of_encode_eq (by decide)

/-! ### The rows of the opcode map (R82) -/

/-- A mask of the op and of the fields named `true`. -/
def fieldMask (k a r n : Bool) : Word :=
  packWord 0xFF#8 k (if a then BitVec.allOnes 7 else 0#7) (if r then BitVec.allOnes 8 else 0#8)
    (if n then BitVec.allOnes 8 else 0#8)

theorem and_ite_allOnes_eq_zero {m : Nat} (x : BitVec m) (b : Bool) :
    x &&& (if b then BitVec.allOnes m else 0#m) = 0#m ↔ (b = true → x = 0#m) := by
  cases b <;> simp

/-- A word matches a row iff it has the row's op and its must-be-zero fields are zero. -/
theorem and_fieldMask_eq_iff (w : Word) (op : Byte) (k a r n : Bool) :
    w &&& fieldMask k a r n = packWord op false 0#7 0#8 0#8 ↔
      fieldOp w = op ∧ (k = true → fieldK w = false) ∧ (a = true → fieldA w = 0#7) ∧ (r = true → fieldR w = 0#8) ∧
      (n = true → fieldN w = 0#8) := by
  have hop : fieldOp w &&& 0xFF#8 = fieldOp w := BitVec.and_allOnes
  have hk : (fieldK w && k) = false ↔ (k = true → fieldK w = false) := by cases k <;> simp
  conv_lhs => rw [← packWord_fields w, fieldMask, packWord_and, packWord_eq_packWord]
  rw [hop, hk, and_ite_allOnes_eq_zero, and_ite_allOnes_eq_zero, and_ite_allOnes_eq_zero]

/-- The command of the same row with the operands of the word. -/
def Instr.withOperandsOf (i : Instr) (w : Word) : Instr :=
  match i with
  | .txb _ => .txb (fieldR w)
  | .rxb _ => .rxb (fieldK w)
  | .wrregs _ _ _ => .wrregs (fieldA w) (fieldR w) (fieldN w)
  | .rdregs _ _ _ => .rdregs (fieldA w) (fieldR w) (fieldN w)
  | .wrreg _ _ _ => .wrreg (fieldA w) (fieldR w) (fieldN w)
  | .rdreg _ _ => .rdreg (fieldA w) (fieldR w)
  | _ => i

theorem eq_ite_of_imp {α : Type} {b : Bool} {x z : α} (h : b = true → x = z) : x = if b then z else x := by
  cases b with
  | false => rfl
  | true => exact h rfl

/-- A word that matches a row is the row's op, zero in the must-be-zero fields, and the word's own other fields. -/
theorem eq_packWord_of_matches {w code mask : Word} (op : Byte) (k a r n : Bool)
    (hcode : code = packWord op false 0#7 0#8 0#8) (hmask : mask = fieldMask k a r n) (h : w &&& mask = code) :
    w = packWord op (if k then false else fieldK w) (if a then 0#7 else fieldA w) (if r then 0#8 else fieldR w)
      (if n then 0#8 else fieldN w) := by
  rw [hcode, hmask, and_fieldMask_eq_iff] at h
  obtain ⟨hop, hk, ha, hr, hn⟩ := h
  exact eq_packWord_iff.2 ⟨hop, eq_ite_of_imp hk, eq_ite_of_imp ha, eq_ite_of_imp hr, eq_ite_of_imp hn⟩

@[simp] theorem withOperandsOf_row (i : Instr) (w : Word) : (i.withOperandsOf w).row = i.row := by
  cases i <;> rfl

theorem encode_withOperandsOf {i : Instr} {w : Word} (h : w &&& i.row.mask = i.row.code) :
    encode (i.withOperandsOf w) = w := by
  cases i with
  | txb b => exact (eq_packWord_of_matches 0x12#8 true true false true rfl rfl h).symm
  | rxb k => exact (eq_packWord_of_matches 0x13#8 false true true true rfl rfl h).symm
  | wrregs a r n => exact (eq_packWord_of_matches 0x20#8 true false false false rfl rfl h).symm
  | rdregs a r n => exact (eq_packWord_of_matches 0x21#8 true false false false rfl rfl h).symm
  | wrreg a r d => exact (eq_packWord_of_matches 0x22#8 true false false false rfl rfl h).symm
  | rdreg a r => exact (eq_packWord_of_matches 0x23#8 true false false true rfl rfl h).symm
  | _ => exact h.symm.trans BitVec.and_allOnes

theorem encode_matches_row (i : Instr) : encode i &&& i.row.mask = i.row.code := by
  cases i with
  | sdahi => exact Laws.EncodingRow.sdahi
  | sdalo => exact Laws.EncodingRow.sdalo
  | sclhi => exact Laws.EncodingRow.sclhi
  | scllo => exact Laws.EncodingRow.scllo
  | sdard => exact Laws.EncodingRow.sdard
  | start => exact Laws.EncodingRow.start
  | stop => exact Laws.EncodingRow.stop
  | txb b => exact Laws.EncodingRow.txb b
  | rxb k => exact Laws.EncodingRow.rxb k
  | wrregs a r n => exact Laws.EncodingRow.wrregs a r n
  | rdregs a r n => exact Laws.EncodingRow.rdregs a r n
  | wrreg a r d => exact Laws.EncodingRow.wrreg a r d
  | rdreg a r => exact Laws.EncodingRow.rdreg a r
  | oscwr => exact Laws.EncodingRow.oscwr
  | oscrd => exact Laws.EncodingRow.oscrd

/-- R82: a word is a row's command iff `(w & mask) = match`. -/
theorem matches_row_iff (w : Word) (i : Instr) :
    w &&& i.row.mask = i.row.code ↔ ∃ j : Instr, decode w = .ok j ∧ j.row = i.row := by
  constructor
  · intro h
    exact ⟨_, decode_of_encode_eq (encode_withOperandsOf h), withOperandsOf_row i w⟩
  · rintro ⟨j, hj, hrow⟩
    rw [← hrow, ← encodeOfDecodeIsTheWord w j hj]
    exact encode_matches_row j

/-- Every row's mask holds the whole op, so a word that matches the row has the row's op. -/
theorem fieldOp_of_matches {p : TableRow} (hp : p ∈ opcodeMap) {w : Word} (h : w &&& p.mask = p.code) :
    fieldOp w = fieldOp p.code := by
  have hmask : ∀ p ∈ opcodeMap, fieldOp p.mask = BitVec.allOnes 8 := by decide
  have hp' : p.mask.extractLsb' 24 8 = BitVec.allOnes 8 := hmask p hp
  rw [← h, fieldOp, fieldOp, BitVec.extractLsb'_and, hp', BitVec.and_allOnes]

/-- Settles O3: a match is a command of the row, and the ops of the rows differ. -/
theorem wordIsCommandIffMaskMatches : Obligations.WordIsCommandIffMaskMatches := by
  refine ⟨matches_row_iff, ?_⟩
  have hops : opcodeMap.Pairwise fun p q => fieldOp p.code ≠ fieldOp q.code := by decide
  refine hops.imp_of_mem fun hp hq hne w hw => hne ?_
  rw [← fieldOp_of_matches hp hw.1, fieldOp_of_matches hq hw.2]

/-- One command of each row, in the map's order. -/
def commandOfEachRow : List Instr :=
  [.sdahi, .sdalo, .sclhi, .scllo, .sdard, .start, .stop, .txb 0#8, .rxb false, .wrregs 0#7 0#8 0#8,
    .rdregs 0#7 0#8 0#8, .wrreg 0#7 0#8 0#8, .rdreg 0#7 0#8, .oscwr, .oscrd]

theorem opcodeMap_eq_map_row : opcodeMap = commandOfEachRow.map Instr.row := rfl

theorem row_mem_opcodeMap (i : Instr) : i.row ∈ opcodeMap := by
  cases i <;> simp [opcodeMap, Instr.row]

theorem exists_row_of_mem_opcodeMap {p : TableRow} (hp : p ∈ opcodeMap) : ∃ i : Instr, i.row = p := by
  rw [opcodeMap_eq_map_row] at hp
  obtain ⟨i, -, hi⟩ := List.mem_map.1 hp
  exact ⟨i, hi⟩

namespace Machine

theorem step_launch_of_error (s : State) {w : Word} {why : DecodeReject} (h : decode w = .error why) :
    step (s.launch w) = .refused (.illegalCommand why (s.launch w).complete) := by
  have hb : (s.launch w).bootPending = false := bootPending_of_running rfl
  simp [step, hb, runCommand, State.command, h]

/-- R89: no command is refused as illegal. -/
theorem exec_ne_illegalCommand (i : Instr) (s : State) (why : DecodeReject) (left : State) :
    exec i s ≠ .refused (.illegalCommand why left) := by
  intro h
  cases i with
  | wrregs a r n =>
    simp only [exec, execWrregs] at h
    split at h <;> cases h
  | rdregs a r n =>
    simp only [exec, execRdregs] at h
    split at h <;> cases h
  | oscwr =>
    simp only [exec, execOscwr] at h
    split at h <;> cases h
  | _ => cases h

/-- Settles O4: a word of no row does not decode, and no command that a word decodes to is refused as illegal. -/
theorem illegalWordsAreRefused : Obligations.IllegalWordsAreRefused := by
  intro s w
  refine ⟨fun h => ?_, fun p hp h why left => ?_, fun a r h => ?_⟩
  · cases hd : decode w with
    | ok i => exact absurd ((matches_row_iff w i).2 ⟨i, hd, rfl⟩) (h _ (row_mem_opcodeMap i))
    | error why => exact ⟨why, rfl, step_launch_of_error s hd⟩
  · obtain ⟨i, rfl⟩ := exists_row_of_mem_opcodeMap hp
    obtain ⟨j, hj, -⟩ := (matches_row_iff w i).1 h
    rw [step_launch s hj]
    exact exec_ne_illegalCommand j _ why left
  · rw [step_launch s h]
    rfl

end Machine

/-! ### The address byte (R83) -/

/-- Settles O6, bit by bit. -/
theorem addressByteIsShiftedAddressAndDirection : Obligations.AddressByteIsShiftedAddressAndDirection := by
  refine ⟨fun a dir => ⟨?_, fun j _ => ?_⟩, by decide, by decide⟩
  · rw [Machine.getLsbD_addrByte, if_pos rfl]
  · rw [Machine.getLsbD_addrByte, if_neg (Nat.succ_ne_zero j), Nat.add_sub_cancel]

end Sys2Proof

/-! PROOFS. The host's push of a block (R94, R165): runs of several steps, and what the host's writes leave in `BUF`. -/

namespace Sys2Proof.Machine

/-- `k` steps of the machine lead from `s` to `t`. -/
def State.RunsTo (s : State) (k : Nat) (t : State) : Prop := core.run k s = .next t

theorem run_cons {M : Host.Core} {s t : M.State} (k : Nat) (h : M.step s = .next t) : M.run (k + 1) s = M.run k t := by
  simp only [Host.Core.run, h]

theorem run_add {M : Host.Core} {m : Nat} {s t : M.State} (n : Nat) (h : M.run m s = .next t) :
    M.run (m + n) s = M.run n t := by
  induction m generalizing s with
  | zero => rw [Nat.zero_add, Host.Outcome.next.inj h]
  | succ m ih =>
    unfold Host.Core.run at h
    split at h
    · rename_i u hu
      rw [Nat.succ_add, run_cons _ hu]
      exact ih h
    · cases h
    · cases h

theorem State.RunsTo.one {s t : State} (h : step s = .next t) : s.RunsTo 1 t :=
  run_cons 0 h

theorem State.RunsTo.trans {s t u : State} {m n : Nat} (h : s.RunsTo m t) (h' : t.RunsTo n u) : s.RunsTo (m + n) u :=
  (run_add n h).trans h'

/-- R190: the host's turn is its next action. -/
theorem step_input {s : State} {x : Input} {rest : List Input} (hb : s.busy = false) (hi : s.inputs = x :: rest) :
    step s = .next ({ s with inputs := rest }.applyInput x) := by
  rw [step_of_not_busy hb, hostTurn_cons hi]

/-- The host's writes of the bytes `bs` to the entries of `BUF` from `i` up. -/
def writesFrom (i : Nat) (bs : List Byte) : List Input := bs.mapIdx fun j b => .writeBuf (BitVec.ofNat 8 (i + j)) b

theorem writesFrom_cons (i : Nat) (b : Byte) (bs : List Byte) :
    writesFrom i (b :: bs) = .writeBuf (BitVec.ofNat 8 i) b :: writesFrom (i + 1) bs := by
  simp [writesFrom, List.mapIdx_cons, Nat.add_assoc, Nat.add_comm 1]

theorem writeBlock_eq_writesFrom (block : Vector Byte 6) : writeBlock block = writesFrom 0 block.toList := by
  simp [writeBlock, writesFrom]

/-- While BUSY is 0 the host's writes fill `BUF`, one a step. -/
theorem runsTo_writesFrom (bs : List Byte) (i : Nat) (s : State) (rest : List Input) (hb : s.busy = false)
    (hi : i + bs.length ≤ 256) (hs : s.inputs = writesFrom i bs ++ rest) :
    s.RunsTo bs.length { s with inputs := rest, buf := s.buf.fill i bs } := by
  induction bs generalizing i s with
  | nil =>
    subst hs
    rfl
  | cons b bs ih =>
    rw [writesFrom_cons, List.cons_append] at hs
    rw [List.length_cons] at hi ⊢
    have hstep := step_input hb hs
    have hidx : (BitVec.ofNat 8 i).toNat = i := by rw [BitVec.toNat_ofNat, Nat.mod_eq_of_lt (by omega)]
    rw [State.applyInput, hidx] at hstep
    rw [Nat.add_comm]
    exact (State.RunsTo.one hstep).trans (ih (i + 1) _ hb (by omega) rfl)

/-- What has been written to `BUF` from entry 0 up is the payload. -/
theorem payload_of_buf_fill {s : State} {m : Memory} {bs : List Byte} (h : s.buf = m.fill 0 bs) :
    s.payload bs.length = some bs := by
  rw [State.payload, h, Memory.slice_eq_some]
  refine ⟨rfl, fun j hj => ?_⟩
  rw [Memory.read_fill, if_pos (by omega), Nat.zero_add, Nat.sub_zero]

/-- The launched OSCWR of a push of `block`, with the host's actions `rest` still to come. -/
def State.pushed (s : State) (block : Vector Byte 6) (rest : List Input) : State :=
  { s with inputs := rest, buf := s.buf.fill 0 block.toList }.launch (encode .oscwr)

theorem runsTo_pushed {s : State} {block : Vector Byte 6} {rest : List Input} (hb : s.busy = false)
    (hi : s.inputs = writeBlock block ++ .writeCmd (encode .oscwr) :: rest) : s.RunsTo 7 (s.pushed block rest) := by
  rw [writeBlock_eq_writesFrom] at hi
  have hlen : block.toList.length = 6 := block.length_toList
  have hwrites := runsTo_writesFrom block.toList 0 s _ hb (by omega) hi
  rw [hlen] at hwrites
  exact hwrites.trans (.one (step_input hb rfl))

theorem pushed_payload (s : State) (block : Vector Byte 6) (rest : List Input) :
    (s.pushed block rest).payload 6 = some block.toList := by
  have h : (s.pushed block rest).payload block.toList.length = some block.toList := payload_of_buf_fill rfl
  rwa [Vector.length_toList] at h

/-- Settles O11: seven steps to the launch, one for OSCWR, which has its payload, and one for the read of the flag. -/
theorem hostPushSendsItsBlock : Obligations.HostPushSendsItsBlock := by
  intro s block rest hb hi
  have hrun : s.RunsTo 7 (s.pushed block (.read .ok :: rest)) := runsTo_pushed hb (by simpa [hostPush] using hi)
  have hpay := pushed_payload s block (.read .ok :: rest)
  have hexec := exec_oscwr hpay
  have hstep := (step_launch _ (decodeOfEncodeIsTheCommand .oscwr)).trans hexec
  exact ⟨_, _, hrun, rfl, rfl, hpay, rfl, rfl, rfl, hexec,
    (hrun.trans (.one hstep)).trans (.one (step_input (complete_busy _) rfl))⟩

end Sys2Proof.Machine

/-! PROOFS. The line (R88) beside what the master makes and hears: every partner, the partners that never move, and a
device at rest. -/

namespace Sys2Proof.Machine

/-- Settles O35: every recorded sample is the line's level, so the two readings of the trace agree. -/
theorem lineShowsTheMasterButForPulledPulses : Obligations.LineShowsTheMasterButForPulledPulses := by
  intro i s t h
  obtain ⟨tr, htr, hheard, -, -⟩ := commandsActThroughTheirTrace i s t h
  exact ⟨tr, htr, line_agrees tr s.eng none none trivial hheard⟩

theorem not_mem_heldLowSymbols {x : Symbol} (hx : x ≠ .bit false) (ms : List Symbol) : x ∉ heldLowSymbols ms := by
  intro h
  obtain ⟨m, -, hm⟩ := List.mem_filterMap.1 h
  cases m with
  | bit b => exact hx (Option.some.inj hm).symm
  | start => cases hm
  | stop => cases hm

/-- With the data line held low the line shows the master's pulses as zeros (R216). -/
theorem symbols_of_heldLow {e : Engine} (tr : List Event) (h : e.partner = .heldLow) :
    symbols e tr = heldLowSymbols (masterSymbols e.pins tr) :=
  line_heldLow tr e none none h (Or.inl ⟨rfl, rfl⟩)

/-- Settles O36: the absent partner leaves every trace quiet, and a line held low has only pulses with the bit 0. -/
theorem lineOfAbsentAndHeldLowPartners : Obligations.LineOfAbsentAndHeldLowPartners := by
  intro i s t h
  obtain ⟨tr, htr, hheard, -, -⟩ := commandsActThroughTheirTrace i s t h
  refine ⟨tr, htr, fun hp => symbols_of_quiet hheard (quiet_absent tr s.eng hp), fun hp => ?_⟩
  rw [symbols_of_heldLow tr hp]
  exact ⟨rfl, not_mem_heldLowSymbols (by decide) _, not_mem_heldLowSymbols (by decide) _,
    not_mem_heldLowSymbols (by decide) _⟩

/-! ### A device at rest -/

section DeviceAtRest

variable {s : State} {d : Device} (hb : s.eng.pins = idleBus) (hp : s.eng.partner = .device d) (hd : d.atRest = true)

include hb hp hd

/-- OSCWR is quiet: each of its four transactions leaves the device at rest on the idle bus for the next (R91, R160). -/
theorem quiet_oscTrace (bs : List Byte) : s.eng.Quiet (s.oscTrace bs) := by
  obtain ⟨q1, d1, p1, r1⟩ := quiet_writeTransaction s.eng Config.osc.addr Config.osc.regFreeze [Config.osc.freezeWord]
    d hp hb hd
  obtain ⟨q2, d2, p2, r2⟩ := quiet_writeTransaction s.oscFreeze.eng Config.osc.addr Config.osc.regBase bs d1 p1 rfl r1
  obtain ⟨q3, d3, p3, r3⟩ := quiet_writeTransaction (s.oscFreeze.oscBulk bs).eng Config.osc.addr Config.osc.regFreeze
    [unfreezeWord] d2 p2 rfl r2
  obtain ⟨q4, -⟩ := quiet_writeTransaction (s.oscFreeze.oscBulk bs).oscUnfreeze.eng Config.osc.addr Config.osc.regCtrl
    [Config.osc.newFreqWord] d3 p3 rfl r3
  have w1 := writeTransaction_ran s.eng Config.osc.addr Config.osc.regFreeze [Config.osc.freezeWord]
  have w2 := w1.trans (writeTransaction_ran s.oscFreeze.eng Config.osc.addr Config.osc.regBase bs)
  have w3 := w2.trans (writeTransaction_ran (s.oscFreeze.oscBulk bs).eng Config.osc.addr Config.osc.regFreeze
    [unfreezeWord])
  exact w3.quiet (w2.quiet (w1.quiet q1 q2) q3) q4

theorem wrregs_quiet (a : DevAddr) (r : RegAddr) (bs : List Byte) :
    ∃ tr, (s.wrregs a r bs).eng.trace = s.eng.trace ++ tr ∧ s.eng.Quiet tr :=
  ⟨_, (wrregs_ran s a r bs).trace, (quiet_writeTransaction s.eng a r bs d hp hb hd).1⟩

theorem rdregs_quiet (a : DevAddr) (r : RegAddr) {n : Nat} (hn : n < 256) (h0 : n ≠ 0) :
    ∃ tr, (s.rdregs a r n).eng.trace = s.eng.trace ++ tr ∧ s.eng.Quiet tr := by
  refine ⟨_, (rdregs_ran s a r n hn).trace, ?_⟩
  rw [readTrace, readLevels_length]
  exact quiet_readTransaction s.eng a r n hn h0 d hp hb hd

/-- Every register command records a quiet trace. -/
theorem perform_quiet {i : Instr} (hi : (addressee i).isSome = true) (hw : i.wf = true) (bs : List Byte) :
    ∃ tr, (s.perform i bs).eng.trace = s.eng.trace ++ tr ∧ s.eng.Quiet tr := by
  cases i with
  | wrregs a r n => exact wrregs_quiet hb hp hd a r bs
  | rdregs a r n => exact rdregs_quiet hb hp hd a r n.isLt (toNat_ne_zero (by simpa [Instr.wf] using hw))
  | wrreg a r x => exact wrregs_quiet hb hp hd a r [x]
  | rdreg a r => exact rdregs_quiet hb hp hd a r (by decide) (by decide)
  | oscwr => exact ⟨_, (oscwr_ran s bs).trace, quiet_oscTrace hb hp hd bs⟩
  | oscrd => exact rdregs_quiet hb hp hd Config.osc.addr Config.osc.regBase (by decide) (by decide)
  | _ => cases hi

end DeviceAtRest

/-- Settles O37: the one trace of the command is quiet, and every sample in it is the line's level. -/
theorem deviceLeavesTheFramesOnTheLine : Obligations.DeviceLeavesTheFramesOnTheLine := by
  intro i s t d hb hp hd hi h
  obtain ⟨tr, htr, hheard, -, -⟩ := commandsActThroughTheirTrace i s t h
  obtain ⟨hw, bs, -, rfl⟩ := exec_next h
  obtain ⟨tr', htr', hquiet⟩ := perform_quiet hb hp hd hi hw bs
  obtain rfl : tr' = tr := List.append_cancel_left (htr'.symm.trans htr)
  exact ⟨tr', htr, hb ▸ symbols_of_quiet hheard hquiet⟩

end Sys2Proof.Machine

/-! PROOFS. The frames of the register commands (R86, R87, R91), as the master makes and hears them, from every entry
state (R220). -/

namespace Sys2Proof.Machine

/-- R220: what begins with `START` shows from any pins as from the idle bus, after a stop condition where it is entered
with data low and the clock high. -/
theorem Shows.masterSymbols_start {rest : List Event} {ss : List Symbol} (h : Shows idleBus (startTrace ++ rest) ss)
    (p : Pins) : masterSymbols p (startTrace ++ rest) = (if p = (false, true) then [.stop] else []) ++ ss := by
  rw [Machine.masterSymbols_start p rest, masterSymbols, h.symbols]

theorem shows_writeTrace (a : DevAddr) (r : RegAddr) (bs : List Byte) (as : List Bool) :
    Shows idleBus (writeTrace a r bs as) (writeFrame a r bs as) :=
  shows_writeTransaction a r bs as

/-- A write transaction leaves the idle bus, on which what follows shows. -/
theorem Shows.writeTrace_append {rest : List Event} {ss : List Symbol} (h : Shows idleBus rest ss) (a : DevAddr)
    (r : RegAddr) (bs : List Byte) (as : List Bool) :
    Shows idleBus (writeTrace a r bs as ++ rest) (writeFrame a r bs as ++ ss) :=
  (shows_writeTrace a r bs as).append (by rw [pinsAfter_writeTrace]; exact h)

theorem masterSymbols_writeTrace_append {rest : List Event} {ss : List Symbol} (h : Shows idleBus rest ss) (p : Pins)
    (a : DevAddr) (r : RegAddr) (bs : List Byte) (as : List Bool) :
    masterSymbols p (writeTrace a r bs as ++ rest) =
      (if p = (false, true) then [.stop] else []) ++ (writeFrame a r bs as ++ ss) := by
  have hw := h.writeTrace_append a r bs as
  rw [writeTrace, List.append_assoc, List.append_assoc] at hw ⊢
  exact hw.masterSymbols_start p

theorem masterSymbols_writeTrace (p : Pins) (a : DevAddr) (r : RegAddr) (bs : List Byte) (as : List Bool) :
    masterSymbols p (writeTrace a r bs as) =
      (if p = (false, true) then [.stop] else []) ++ writeFrame a r bs as := by
  simpa using masterSymbols_writeTrace_append (Shows.nil idleBus) p a r bs as

theorem masterSymbols_readTrace (p : Pins) (a : DevAddr) (r : RegAddr) (as : Bool × Bool × Bool)
    (vss : List (List Bool)) (hv : ∀ vs ∈ vss, vs.length = 8) (hne : vss ≠ []) :
    masterSymbols p (readTrace a r as vss) =
      (if p = (false, true) then [.stop] else []) ++ readFrame a r as.1 as.2.1 as.2.2 (vss.map byteOf) := by
  have h := shows_readTransaction a r as vss hv hne
  simp only [readTrace, readHeaderTrace, List.append_assoc] at h ⊢
  exact h.masterSymbols_start p

/-! ### WRREGS, WRREG, RDREGS, RDREG -/

/-- Settles O43: both commands are the write transaction. -/
theorem writeCommandsSendTheWriteFrame : Obligations.WriteCommandsSendTheWriteFrame := by
  intro s a r bs i hi
  have hexec : exec i s = .next (s.wrregs a r bs).complete := by
    obtain ⟨n, rfl, hn⟩ | ⟨d, rfl, rfl⟩ := hi
    · exact exec_wrregs a r hn
    · rfl
  have hlen := writeAcks_length s.eng a r bs
  exact ⟨_, _, _, hexec, (wrregs_ran s a r bs).trace, by rw [hlen, Nat.add_comm], samples_writeTrace a r bs _ hlen,
    wrregs_flag s a r bs, rfl, rfl, masterSymbols_writeTrace _ a r bs _⟩

/-- A command that is a read transaction of one byte or more: its frame and samples, its flag, and what it leaves. -/
theorem exec_readFrame {s : State} {i : Instr} {a : DevAddr} {r : RegAddr} {n : Nat}
    (hexec : exec i s = .next (s.rdregs a r n).complete) (hn : n < 256) (h0 : n ≠ 0) :
    ∃ t tr a1 a2 a3 ds, exec i s = .next t ∧ t.eng.trace = s.eng.trace ++ tr ∧ ds.length = n ∧
      samples tr = [a1, a2, a3] ++ ds.flatMap bitsOf ∧ t.ok = (!a1 && !a2 && !a3) ∧
      (t.ok = true → ∀ j, j < n → t.buf.read j = ds[j]?) ∧ t.snapshot = s.snapshot ∧ t.rdata = s.rdata ∧
      masterSymbols s.eng.pins tr =
        (if s.eng.pins = (false, true) then [.stop] else []) ++ readFrame a r a1 a2 a3 ds := by
  refine ⟨_, _, _, _, _, (s.eng.readTransaction a r n).1, hexec, (rdregs_ran s a r n hn).trace,
    readTransaction_length s.eng a r n, ?_, rdregs_flag s a r n, fun hok j hj => ?_, rfl, rfl, ?_⟩
  · rw [samples_readTrace, readLevels_eq_bitsOf, List.flatMap_def]
  · rw [complete_ok] at hok
    rw [complete_buf, rdregs_read, if_pos hj, if_pos hok, readTransaction_bytes]
  · rw [masterSymbols_readTrace _ a r _ _ (readLevels_eight s a r n) (readLevels_ne_nil s a r h0),
      readTransaction_bytes]

/-- Settles O44: both commands are the read transaction of 1 to 255 bytes. -/
theorem readCommandsReceiveTheReadFrame : Obligations.ReadCommandsReceiveTheReadFrame := by
  intro s a r n i hi
  obtain ⟨hexec, hn, h0⟩ : exec i s = .next (s.rdregs a r n).complete ∧ n < 256 ∧ n ≠ 0 := by
    obtain ⟨k, hk, rfl, rfl⟩ | ⟨rfl, rfl⟩ := hi
    · exact ⟨exec_rdregs s a r hk, k.isLt, toNat_ne_zero hk⟩
    · exact ⟨rfl, by decide, by decide⟩
  obtain ⟨t, tr, a1, a2, a3, ds, ht, htr, hlen, hsamples, hok, hbuf, -, hrdata, hframe⟩ := exec_readFrame hexec hn h0
  exact ⟨t, tr, a1, a2, a3, ds, ht, htr, hlen, hsamples, hok, hbuf, hrdata, hframe⟩

/-! ### OSCWR and OSCRD -/

section Oscwr

variable (s : State) (bs : List Byte)

/-- The sampled acknowledgments of OSCWR's first step, the freeze (R160). -/
def State.freezeAcks : List Bool := s.eng.writeAcks Config.osc.addr Config.osc.regFreeze [Config.osc.freezeWord]

/-- The sampled acknowledgments of OSCWR's second step, the block. -/
def State.bulkAcks : List Bool := s.oscFreeze.eng.writeAcks Config.osc.addr Config.osc.regBase bs

/-- The sampled acknowledgments of OSCWR's third step, the unfreeze. -/
def State.unfreezeAcks : List Bool :=
  (s.oscFreeze.oscBulk bs).eng.writeAcks Config.osc.addr Config.osc.regFreeze [unfreezeWord]

/-- The sampled acknowledgments of OSCWR's last step, the commit. -/
def State.commitAcks : List Bool :=
  (s.oscFreeze.oscBulk bs).oscUnfreeze.eng.writeAcks Config.osc.addr Config.osc.regCtrl [Config.osc.newFreqWord]

theorem oscTrace_eq : s.oscTrace bs =
    writeTrace Config.osc.addr Config.osc.regFreeze [Config.osc.freezeWord] s.freezeAcks ++
    writeTrace Config.osc.addr Config.osc.regBase bs (s.bulkAcks bs) ++
    writeTrace Config.osc.addr Config.osc.regFreeze [unfreezeWord] (s.unfreezeAcks bs) ++
    writeTrace Config.osc.addr Config.osc.regCtrl [Config.osc.newFreqWord] (s.commitAcks bs) := rfl

theorem samples_oscTrace :
    samples (s.oscTrace bs) = s.freezeAcks ++ s.bulkAcks bs ++ s.unfreezeAcks bs ++ s.commitAcks bs := by
  simp [oscTrace_eq, samples_writeTrace, State.freezeAcks, State.bulkAcks, State.unfreezeAcks, State.commitAcks]

/-- The flag is over the acknowledgments of all four steps (R160, R162). -/
theorem oscwr_flag :
    (s.oscwr bs).ok = (s.freezeAcks ++ s.bulkAcks bs ++ s.unfreezeAcks bs ++ s.commitAcks bs).all (!·) := by
  have h1 : s.oscFreeze.ok = s.freezeAcks.all (!·) := wrregs_flag ..
  have h2 : (s.oscFreeze.oscBulk bs).ok = (s.bulkAcks bs).all (!·) := wrregs_flag ..
  have h3 : (s.oscFreeze.oscBulk bs).oscUnfreeze.ok = (s.unfreezeAcks bs).all (!·) := wrregs_flag ..
  have h4 : (s.oscFreeze.oscBulk bs).oscUnfreeze.oscCommit.ok = (s.commitAcks bs).all (!·) := wrregs_flag ..
  rw [oscwr_ok, h1, h2, h3, h4, List.all_append, List.all_append, List.all_append]

theorem masterSymbols_oscTrace (p : Pins) :
    masterSymbols p (s.oscTrace bs) = (if p = (false, true) then [.stop] else []) ++
      writeFrame Config.osc.addr Config.osc.regFreeze [Config.osc.freezeWord] s.freezeAcks ++
      writeFrame Config.osc.addr Config.osc.regBase bs (s.bulkAcks bs) ++
      writeFrame Config.osc.addr Config.osc.regFreeze [unfreezeWord] (s.unfreezeAcks bs) ++
      writeFrame Config.osc.addr Config.osc.regCtrl [Config.osc.newFreqWord] (s.commitAcks bs) := by
  have h4 := shows_writeTrace Config.osc.addr Config.osc.regCtrl [Config.osc.newFreqWord] (s.commitAcks bs)
  have h3 := h4.writeTrace_append Config.osc.addr Config.osc.regFreeze [unfreezeWord] (s.unfreezeAcks bs)
  have h2 := h3.writeTrace_append Config.osc.addr Config.osc.regBase bs (s.bulkAcks bs)
  have h1 := masterSymbols_writeTrace_append h2 p Config.osc.addr Config.osc.regFreeze [Config.osc.freezeWord]
    s.freezeAcks
  simpa only [oscTrace_eq, List.append_assoc] using h1

end Oscwr

/-- Settles O49: OSCWR is four write transactions, OSCRD one read transaction of six bytes. -/
theorem oscillatorCommandsSendTheirFrames : Obligations.OscillatorCommandsSendTheirFrames := by
  intro s
  refine ⟨fun bs hbs => ?_, ?_⟩
  · have hlen : (s.bulkAcks bs).length = 8 := by rw [State.bulkAcks, writeAcks_length, payload_length hbs]
    exact ⟨_, _, s.freezeAcks, s.bulkAcks bs, s.unfreezeAcks bs, s.commitAcks bs, exec_oscwr hbs,
      (oscwr_ran s bs).trace, writeAcks_length .., hlen, writeAcks_length .., writeAcks_length ..,
      samples_oscTrace s bs, oscwr_flag s bs, rfl, rfl, masterSymbols_oscTrace s bs _⟩
  · exact exec_readFrame ((exec_oscrd s).trans (by rw [oscrd_eq])) (by decide) (by decide)

end Sys2Proof.Machine

/-! PROOFS. The Bus Signal Driver (R110 to R114): what each pin primitive is as a host command, and what one drive shows on
the line. -/

namespace Sys2Proof.Machine

/-- A data drive alone shows the condition it makes, where it changes the output with the clock high (R88). -/
theorem symbols_sda (e : Engine) (v : Bool) :
    symbols e [.sda v] = if v ≠ e.sdaOut ∧ e.sclOut = true then e.condition v else [] := by
  unfold symbols symbolsFrom
  by_cases hv : v = e.sdaOut
  · simp [hv, symbolsFrom]
  · cases hc : e.sclOut <;> simp [hv, symbolsFrom]

/-- A clock drive alone is no symbol: the pulse it may open is not over, and none was open that it could close (R88). -/
theorem symbols_scl (e : Engine) (v : Bool) : symbols e [.scl v] = [] := by
  unfold symbols symbolsFrom
  by_cases hv : v = e.sclOut
  · simp [hv, symbolsFrom]
  · cases v <;> simp [hv, symbolsFrom]

/-- R110, R88: a release of the data line is a stop condition where the output rises and the line rises with it. -/
theorem symbols_sdahi (e : Engine) :
    symbols e [.sda true] = if !e.sdaOut && e.sclOut && (e.driveSda true).lineLevel then [.stop] else [] := by
  rw [symbols_sda, Engine.condition, if_pos rfl]
  cases e.sdaOut <;> cases e.sclOut <;> simp

/-- R111, R88: a data drive low is a start condition where the line was high; a high line is one the master releases. -/
theorem symbols_sdalo (e : Engine) :
    symbols e [.sda false] = if e.sclOut && e.lineLevel then [.start] else [] := by
  rw [symbols_sda, Engine.condition, if_neg Bool.false_ne_true, Engine.lineLevel, wiredAnd]
  cases e.sdaOut <;> cases e.sclOut <;> simp

/-- Settles O31: the next states by evaluation, the symbols by the drive that the trace holds. -/
theorem drivePrimitivesSetTheirPin : Obligations.DrivePrimitivesSetTheirPin := fun s =>
  ⟨rfl, rfl, rfl, rfl, symbols_sdahi s.eng, symbols_sdalo s.eng, symbols_scl s.eng true, symbols_scl s.eng false⟩

theorem exec_sdard (s : State) :
    exec .sdard s = .next { s with eng := s.eng.sdard.2, rdata := zextLevel s.eng.sdard.1 }.complete := rfl

/-- Settles O32: the sample is the level of the data line, and SDARD writes nothing but RDATA. -/
theorem sampleReadsTheDataLine : Obligations.SampleReadsTheDataLine := fun s =>
  ⟨_, s.eng.sdaLine, exec_sdard s, sdard_trace s.eng, rfl, rfl, rfl, sdard_partner s.eng, rfl, rfl⟩

end Sys2Proof.Machine

/-! PROOFS. Layer 1 (R120 to R125): what START, STOP, TXB and RXB record, and what their traces are as the master makes and
hears them and as the line shows them, from every entry state. -/

namespace Sys2Proof.Machine

/-! ### START and STOP -/

/-- With no pulse open, a data drive shows what it shows alone, and opens none. -/
theorem line_sda (e : Engine) (v : Bool) (rest : List Event) :
    symbolsFrom e none (.sda v :: rest) = symbols e [.sda v] ++ symbolsFrom (e.driveSda v) none rest := by
  rw [symbols_sda, symbolsFrom]
  by_cases hv : v = e.sdaOut
  · simp [hv]
  · cases hc : e.sclOut <;> simp [hv]

/-- R88: a data change with the clock raised before it is the condition where the line moves; the pulse it falls in is no
bit. -/
theorem line_riseThenChange (e : Engine) {v : Bool} (hv : v ≠ e.sdaOut) (rest : List Event) :
    symbolsFrom e none (.scl true :: .sda v :: rest) =
      (e.driveScl true).condition v ++ symbolsFrom ((e.driveScl true).driveSda v) none rest := by
  cases hc : e.sclOut <;> simp [symbolsFrom, hc, hv]

/-- R120, R216: on the line START is a stop condition and a start condition, each where the line moves. -/
theorem symbols_startTrace (e : Engine) :
    symbols e startTrace =
      (if !e.sdaOut && e.sclOut && (e.driveSda true).lineLevel then [.stop] else []) ++
        if ((e.driveSda true).driveScl true).lineLevel then [.start] else [] := by
  have hfall := symbols_scl (((e.driveSda true).driveScl true).driveSda false) false
  rw [symbols] at hfall
  rw [symbols, startTrace, line_sda, symbols_sdahi, line_riseThenChange _ (by simp), hfall, List.append_nil]
  rfl

/-- R121, R216: on the line STOP is a start condition and a stop condition, each where the line moves. -/
theorem symbols_stopTrace (e : Engine) :
    symbols e stopTrace =
      (if e.sclOut && e.lineLevel then [.start] else []) ++
        if (((e.driveSda false).driveScl true).driveSda true).lineLevel then [.stop] else [] := by
  rw [symbols, stopTrace, line_sda, symbols_sdalo, line_riseThenChange _ (by simp), symbolsFrom, List.append_nil]
  rfl

/-- R121, R220: STOP entered on the idle bus makes a start condition first. -/
theorem masterSymbols_stop (p : Pins) :
    masterSymbols p stopTrace = if p = idleBus then [.start, .stop] else [.stop] := by
  obtain ⟨a, c⟩ := p
  cases a <;> cases c <;> rfl

/-- A high line is one the master has released. -/
theorem sdaOut_of_lineLevel {e : Engine} (h : e.lineLevel = true) : e.sdaOut = true := by
  rw [Engine.lineLevel, wiredAnd, Bool.and_eq_true] at h
  exact h.1

/-- Settles O38: the recorded primitives are fixed, and each data change in them makes its condition. -/
theorem startMakesAStartCondition : Obligations.StartMakesAStartCondition := by
  intro s
  refine ⟨_, startTrace, rfl, rfl, (start_ran s.eng).trace, rfl, rfl, rfl, ?_, ?_⟩
  · have h := masterSymbols_start s.eng.pins []
    rw [List.append_nil] at h
    rw [h]
    split <;> rfl
  · rw [symbols_startTrace]
    simp [Engine.pins]

/-- Settles O39: the recorded primitives are fixed, and each data change in them makes its condition. -/
theorem stopMakesAStopCondition : Obligations.StopMakesAStopCondition := by
  intro s
  refine ⟨_, stopTrace, rfl, rfl, (stop_ran s.eng).trace, rfl, rfl, rfl, masterSymbols_stop _, ?_⟩
  have hidle : (s.eng.sclOut && s.eng.lineLevel) = true ↔ s.eng.pins = idleBus ∧ s.eng.lineLevel = true := by
    simp only [Engine.pins, idleBus, Prod.mk.injEq, Bool.and_eq_true]
    exact ⟨fun ⟨hc, hl⟩ => ⟨⟨sdaOut_of_lineLevel hl, hc⟩, hl⟩, fun ⟨⟨_, hc⟩, hl⟩ => ⟨hc, hl⟩⟩
  rw [symbols_stopTrace]
  simp only [hidle]

/-! ### TXB -/

/-- The events of the bits `vs` in one clock pulse each, then of the acknowledgment pulse whose sample returned `v`
(R122). -/
def txPulses (vs : List Bool) (v : Bool) : List Event :=
  (vs.flatMap fun x => [.sda x, .scl true, .scl false]) ++ [.sda true, .scl true, .rd v, .scl false]

theorem txTrace_eq (b : Byte) (v : Bool) : txTrace b v = txPulses (bitsOf b) v := rfl

theorem txPulses_cons (x : Bool) (vs : List Bool) (v : Bool) :
    txPulses (x :: vs) v = .sda x :: .scl true :: .scl false :: txPulses vs v := rfl

theorem bitsOf_cons (b : Byte) : bitsOf b = b.getLsbD 7 :: (bitsOf b).tail := rfl

/-- Entered with the clock low, `txPulses` is to the master the bits and then the sampled level. -/
theorem shows_txPulses (a : Bool) (vs : List Bool) (v : Bool) :
    Shows (a, false) (txPulses vs v) (vs.map Symbol.bit ++ [.bit v]) := by
  induction vs generalizing a with
  | nil => exact shows_ack a v
  | cons x rest ih => exact (shows_bit a x).append (ih x)

/-- Entered with the clock low, `txPulses` is on the line each bit as far as the partner lets it through, and then the
sampled level. -/
theorem line_txPulses (vs : List Bool) {v : Bool} {e : Engine} (hc : e.sclOut = false)
    (hh : e.hears (txPulses vs v) = true) :
    symbolsFrom e none (txPulses vs v) =
      List.zipWith (fun x p => Symbol.bit (x && p)) vs (e.outputsAtRises vs) ++ [.bit v] := by
  rw [txPulses, hears_append, Bool.and_eq_true] at hh
  have hlow := replay_bits_sclOut vs e hc
  rw [txPulses, line_bits vs e hc]
  generalize e.replay (vs.flatMap fun x => [.sda x, .scl true, .scl false]) = e' at hh hlow
  have hv : v = ((e'.driveSda true).driveScl true).sdaLine := by
    simpa [Engine.hears] using hh.2
  rw [line_dataLow e' hlow, line_sampledPulse (e'.driveSda true) hlow v [] hv, symbolsFrom]

/-- The partner's outputs at the rises of the clock are found by carrying the trace out again up to each rise. -/
theorem outputsAtRises_eq_replay (e : Engine) (b : Byte) (v : Bool) :
    e.outputsAtRises (bitsOf b) =
      (List.range 8).map fun j => (e.replay ((txTrace b v).take (3 * j + 2))).partnerOutput := rfl

/-- Entered with the clock high, the first data change of TXB is a condition and the first pulse is lost (R122, V38). -/
theorem masterSymbols_txTrace_high (a : Bool) (b : Byte) (v : Bool) :
    masterSymbols (a, true) (txTrace b v) = dataChange (b.getLsbD 7) a ++ (frameByte b v).drop 1 := by
  rw [txTrace_eq, bitsOf_cons, txPulses_cons, masterSymbols, master_dataHigh, (shows_txPulses _ _ v).symbols]
  rfl

theorem symbols_txTrace_low {e : Engine} {b : Byte} {v : Bool} (hc : e.sclOut = false)
    (hh : e.hears (txTrace b v) = true) :
    symbols e (txTrace b v) = lineByte b (e.outputsAtRises (bitsOf b)) v :=
  line_txPulses (bitsOf b) hc hh

theorem symbols_txTrace_high {e : Engine} {b : Byte} {v : Bool} (hc : e.sclOut = true)
    (hh : e.hears (txTrace b v) = true) :
    symbols e (txTrace b v) =
      (if b.getLsbD 7 = e.sdaOut then [] else e.condition (b.getLsbD 7)) ++
        (lineByte b (e.outputsAtRises (bitsOf b)) v).drop 1 := by
  rw [txTrace_eq, bitsOf_cons, txPulses_cons] at hh ⊢
  rw [symbols, line_dataHigh e hc, line_txPulses _ rfl hh]
  rfl

/-- Settles O40: the one trace of TXB, read from either level of the clock. -/
theorem transmitByteSendsNinePulses : Obligations.TransmitByteSendsNinePulses := by
  intro s b
  have hran := txb_ran s.eng b
  refine ⟨_, txTrace b (s.eng.ackLevel b), s.eng.ackLevel b, s.eng.outputsAtRises (bitsOf b), rfl, hran.trace,
    samples_txTrace b _, prims_txTrace b _, txb_ack s.eng b, rfl, rfl, outputsAtRises_eq_replay s.eng b _,
    fun hc => ⟨?_, symbols_txTrace_low hc hran.heard⟩, fun hc => ⟨?_, symbols_txTrace_high hc hran.heard⟩⟩
  · rw [Engine.pins, hc]
    exact (shows_txTrace _ b _).symbols
  · rw [Engine.pins, hc]
    exact masterSymbols_txTrace_high _ b _

/-! ### RXB -/

/-- The events of one sampled clock pulse for each level of `vs`, then of the acknowledgment `k` (R123). -/
def rxPulses (vs : List Bool) (k : Bool) : List Event :=
  (vs.flatMap fun v => [.scl true, .rd v, .scl false]) ++ ((if k then [.sda false] else []) ++ [.scl true, .scl false])

theorem rxTrace_eq (vs : List Bool) (k : Bool) : rxTrace vs k = .sda true :: rxPulses vs k := by
  simp [rxTrace, rxPulses]

theorem rxPulses_cons (v : Bool) (vs : List Bool) (k : Bool) :
    rxPulses (v :: vs) k = .scl true :: .rd v :: .scl false :: rxPulses vs k := rfl

theorem rxPulses_ne_nil (vs : List Bool) (k : Bool) : rxPulses vs k ≠ [] := by simp [rxPulses]

/-- With the data line released and the clock low, `rxPulses` is to the master the sampled levels and its acknowledgment. -/
theorem shows_rxPulses (vs : List Bool) (k : Bool) :
    Shows (true, false) (rxPulses vs k) (vs.map Symbol.bit ++ [.bit (!k)]) := by
  induction vs with
  | nil => cases k <;> exact ⟨rfl, rfl⟩
  | cons v rest ih => exact (shows_sample v).append ih

/-- The acknowledgment pulse on the line: the AND of the master's level and the partner's at the rise. -/
theorem line_rxAck {e : Engine} (hs : e.sdaOut = true) (hc : e.sclOut = false) (k : Bool) :
    symbolsFrom e none (rxPulses [] k) = [.bit (!k && (e.replay (rxPulses [] k).dropLast).partnerOutput)] := by
  cases k with
  | false =>
    show symbolsFrom e none [.scl true, .scl false] = _
    rw [line_barePulse e hc, Engine.lineLevel, driveScl_sdaOut, hs]
    rfl
  | true =>
    show symbolsFrom e none [.sda false, .scl true, .scl false] = _
    rw [line_dataLow e hc, line_barePulse (e.driveSda false) hc]
    rfl

/-- With the data line released and the clock low, `rxPulses` is on the line the sampled levels, and the master's
acknowledgment as far as the partner lets it through. -/
theorem line_rxPulses (vs : List Bool) {e : Engine} {k : Bool} (hs : e.sdaOut = true) (hc : e.sclOut = false)
    (hh : e.hears (rxPulses vs k) = true) :
    symbolsFrom e none (rxPulses vs k) =
      vs.map Symbol.bit ++ [.bit (!k && (e.replay (rxPulses vs k).dropLast).partnerOutput)] := by
  induction vs generalizing e with
  | nil => exact line_rxAck hs hc k
  | cons v rest ih =>
    simp only [rxPulses_cons, Engine.hears, Bool.and_eq_true, beq_iff_eq] at hh
    obtain ⟨hv, hrest⟩ := hh
    rw [rxPulses_cons, line_sampledPulse e hc v _ hv,
      ih (e := (e.driveScl true).sdard.2.driveScl false) hs rfl hrest]
    simp only [List.dropLast_cons_of_ne_nil, rxPulses_ne_nil, ne_eq, reduceCtorEq, not_false_eq_true]
    rfl

/-- A pulse of a clock that is already high is lost: what the master samples in it is no bit (R123). -/
theorem line_lostPulse {e : Engine} (hc : e.sclOut = true) (v : Bool) (rest : List Event) :
    symbolsFrom e none (.scl true :: .rd v :: .scl false :: rest) =
      symbolsFrom ((e.driveScl true).sdard.2.driveScl false) none rest := by
  simp [symbolsFrom, hc]

/-- Entered with the clock high, the release of the data line by RXB may be a stop condition, and the first pulse is
lost (R123). -/
theorem masterSymbols_rxTrace_high (a : Bool) {vs : List Bool} (k : Bool) (h : vs.length = 8) :
    masterSymbols (a, true) (rxTrace vs k) =
      (if a then [] else [.stop]) ++ (frameByte (byteOf vs) (!k)).drop 1 := by
  rw [frameByte, bitsOf_byteOf vs h, rxTrace_eq]
  obtain ⟨v, rest, rfl⟩ := List.exists_cons_of_length_eq_add_one h
  have hrest := (shows_rxPulses rest k).symbols
  cases a <;> simp [masterSymbols, masterSymbolsFrom, rxPulses_cons, hrest]

theorem symbols_rxTrace_low {e : Engine} {vs : List Bool} {k : Bool} (h : vs.length = 8) (hc : e.sclOut = false)
    (hh : e.hears (rxTrace vs k) = true) :
    symbols e (rxTrace vs k) =
      frameByte (byteOf vs) (!k && (e.replay (rxTrace vs k).dropLast).partnerOutput) := by
  rw [rxTrace_eq] at hh ⊢
  rw [symbols, line_dataLow e hc, line_rxPulses vs (e := e.driveSda true) rfl hc hh, frameByte, bitsOf_byteOf vs h,
    List.dropLast_cons_of_ne_nil (rxPulses_ne_nil vs k)]
  rfl

theorem symbols_rxTrace_high {e : Engine} {vs : List Bool} {k : Bool} (h : vs.length = 8) (hc : e.sclOut = true)
    (hh : e.hears (rxTrace vs k) = true) :
    symbols e (rxTrace vs k) =
      (if e.sdaOut then [] else e.condition true) ++
        (frameByte (byteOf vs) (!k && (e.replay (rxTrace vs k).dropLast).partnerOutput)).drop 1 := by
  rw [frameByte, bitsOf_byteOf vs h]
  obtain ⟨v, rest, rfl⟩ := List.exists_cons_of_length_eq_add_one h
  rw [rxTrace_eq, rxPulses_cons] at hh ⊢
  simp only [Engine.hears, Bool.and_eq_true] at hh
  have hrelease : symbols e [.sda true] = if e.sdaOut then [] else e.condition true := by
    rw [symbols_sda, hc]
    cases e.sdaOut <;> rfl
  rw [symbols, line_sda, hrelease, line_lostPulse (e := e.driveSda true) hc,
    line_rxPulses rest (e := ((e.driveSda true).driveScl true).sdard.2.driveScl false) rfl rfl hh.2]
  simp only [List.dropLast_cons_of_ne_nil, rxPulses_ne_nil, ne_eq, reduceCtorEq, not_false_eq_true]
  rfl

/-- Settles O41: the one trace of RXB, read from either level of the clock. -/
theorem receiveByteReadsEightPulses : Obligations.ReceiveByteReadsEightPulses := by
  intro s k
  have hran := rxb_ran s.eng k
  have hlen := dataLevels_length s.eng
  have hbyte := rxb_byte s.eng k
  refine ⟨_, rxTrace s.eng.dataLevels k, s.eng.dataLevels, _, rfl, hran.trace, samples_rxTrace _ k, hlen,
    prims_rxTrace _ k hlen, hbyte, fun j hj => ?_, rfl, rfl, rfl,
    fun hc => ⟨?_, symbols_rxTrace_low hlen hc hran.heard⟩, fun hc => ⟨?_, symbols_rxTrace_high hlen hc hran.heard⟩⟩
  · exact (congrArg (·.getLsbD (7 - j)) hbyte).trans (getLsbD_byteOf _ hlen j hj)
  · rw [Engine.pins, hc]
    exact (shows_rxTrace _ _ k hlen).symbols
  · rw [Engine.pins, hc]
    exact masterSymbols_rxTrace_high _ k hlen

/-! ### The number of primitives (R125) -/

/-- A command that runs to its end records as many events as its expansion has primitives (R145). -/
theorem exec_length_of_expansion {i : Instr} {s : State} {bs : List Byte} (hw : i.wf = true)
    (hp : s.payload (payloadLen i) = some bs) :
    ∃ t, exec i s = .next t ∧ t.eng.trace.length = s.eng.trace.length + (expansion i bs).length := by
  obtain ⟨tr, htr, hprims⟩ := perform_expansion s bs hw
  refine ⟨_, exec_of_payload hw hp, ?_⟩
  rw [complete_eng, htr, List.length_append, ← hprims, List.length_map]

/-- Settles O24: the lengths of the four fixed expansions. -/
theorem layerOneCommandsTerminate : Obligations.LayerOneCommandsTerminate := fun _ _ =>
  ⟨exec_length_of_expansion (i := .start) rfl rfl, exec_length_of_expansion (i := .stop) rfl rfl,
    exec_length_of_expansion (i := .txb _) rfl rfl, exec_length_of_expansion (i := .rxb true) rfl rfl,
    exec_length_of_expansion (i := .rxb false) rfl rfl⟩

end Sys2Proof.Machine

/-! PROOFS. The register transactions (R140 to R147): what a command answers in every case, its stops, the length of its
expansion, and the commands that are another one with fixed operands. -/

namespace Sys2Proof.Machine

/-- Settles O21: the command is performed and completed, and its events are its expansion. -/
theorem everyCommandRunsItsExpansion : Obligations.EveryCommandRunsItsExpansion := by
  intro i s bs hw hp
  obtain ⟨tr, htr, hprims⟩ := perform_expansion s bs hw
  exact ⟨_, tr, exec_of_payload hw hp, htr, hprims, rfl, rfl⟩

/-! ### When a command stops (R89, R140, R141, R160) -/

theorem exec_rdregs_zero (s : State) (a : DevAddr) (r : RegAddr) :
    exec (.rdregs a r 0#8) s = .refused (.zeroCountRead s.complete) := rfl

/-- What a command answers: it completes with its payload, faults without one, or is the refused read of zero bytes. -/
theorem exec_cases (i : Instr) (s : State) :
    (∃ bs, s.payload (payloadLen i) = some bs ∧ exec i s = .next (s.perform i bs).complete) ∨
    (s.payload (payloadLen i) = none ∧ (i = .oscwr ∨ ∃ a r n, i = .wrregs a r n) ∧ exec i s = .fault .unwrittenBuf) ∨
    ∃ a r, i = .rdregs a r 0#8 ∧ exec i s = .refused (.zeroCountRead s.complete) := by
  cases i with
  | wrregs a r n =>
    cases hp : s.payload n.toNat with
    | some bs => exact .inl ⟨bs, hp, exec_wrregs a r hp⟩
    | none => exact .inr (.inl ⟨hp, .inr ⟨a, r, n, rfl⟩, by simp only [exec, execWrregs, hp]⟩)
  | rdregs a r n =>
    by_cases hn : n = 0#8
    · subst hn
      exact .inr (.inr ⟨a, r, rfl, exec_rdregs_zero s a r⟩)
    · exact .inl ⟨[], rfl, exec_rdregs s a r hn⟩
  | oscwr =>
    cases hp : s.payload blockLen with
    | some bs => exact .inl ⟨bs, hp, exec_oscwr hp⟩
    | none => exact .inr (.inl ⟨hp, .inl rfl, by simp only [exec, execOscwr, hp]⟩)
  | _ => exact .inl ⟨[], rfl, rfl⟩

theorem payload_eq_none_iff (s : State) (n : Nat) : s.payload n = none ↔ ∃ j, j < n ∧ s.buf.read j = none := by
  simpa only [State.payload, Nat.zero_add] using Memory.slice_eq_none s.buf 0 n

/-- A command faults exactly when its payload names an entry of BUF without a value (R27, log 1). -/
theorem exec_eq_fault_iff (i : Instr) (s : State) :
    exec i s = .fault .unwrittenBuf ↔ ∃ j, j < payloadLen i ∧ s.buf.read j = none := by
  rw [← payload_eq_none_iff]
  obtain ⟨bs, hp, he⟩ | ⟨hp, -, he⟩ | ⟨a, r, rfl, he⟩ := exec_cases i s
  · simp [he, hp]
  · simp [he, hp]
  · have hp : s.payload (payloadLen (.rdregs a r 0#8)) = some [] := rfl
    simp [he, hp]

/-- Settles O28, by what a command answers. -/
theorem commandsStopOnlyAsTheSpecSays : Obligations.CommandsStopOnlyAsTheSpecSays := by
  refine ⟨fun i s f h => ?_, fun i s x h => ?_⟩
  · obtain ⟨bs, -, he⟩ | ⟨hp, hi, he⟩ | ⟨a, r, -, he⟩ := exec_cases i s <;> rw [he] at h
    · cases h
    · exact ⟨(Host.Outcome.fault.inj h).symm, hi, hp⟩
    · cases h
  · obtain ⟨bs, -, he⟩ | ⟨-, -, he⟩ | ⟨a, r, hi, he⟩ := exec_cases i s <;> rw [he] at h
    · cases h
    · cases h
    · exact ⟨(Host.Outcome.refused.inj h).symm, a, r, hi⟩

/-- Settles O29: both commands fault as their payload says. -/
theorem unwrittenPayloadFaults : Obligations.UnwrittenPayloadFaults :=
  fun s a r n => ⟨exec_eq_fault_iff (.wrregs a r n) s, exec_eq_fault_iff .oscwr s⟩

/-- Settles O30: the refusal carries the completed state. -/
theorem readOfZeroBytesIsRefused : Obligations.ReadOfZeroBytesIsRefused :=
  exec_rdregs_zero

/-! ### The number of primitives (R147) -/

theorem primsTxb_length (b : Byte) : (primsTxb b).length = 28 := rfl

theorem primsRxb_length (k : Bool) : (primsRxb k).length = if k then 28 else 27 := by
  cases k <;> rfl

/-- The address byte, the register address and each payload byte take one TXB, between START and STOP (R140). -/
theorem primsWrite_length (a : DevAddr) (r : RegAddr) (bs : List Byte) :
    (primsWrite a r bs).length = 63 + 28 * bs.length := by
  simp only [primsWrite, primsStart, primsStop, List.length_append, List.length_flatMap, primsTxb_length,
    List.map_const', List.sum_replicate, List.length_cons, List.length_nil, smul_eq_mul]
  omega

/-- Two STARTs, three TXBs, one RXB for each byte and STOP; the last RXB has no drive for the acknowledgment (R141). -/
theorem primsRead_length (a : DevAddr) (r : RegAddr) {n : Nat} (h : n ≠ 0) :
    (primsRead a r n).length = 94 + 28 * n := by
  simp only [primsRead, primsStart, primsStop, List.length_append, List.length_flatten, List.map_replicate,
    List.sum_replicate, primsTxb_length, primsRxb_length, List.length_cons, List.length_nil, smul_eq_mul, if_true,
    Bool.false_eq_true, if_false]
  omega

theorem exec_rdregs_length (s : State) (a : DevAddr) (r : RegAddr) {n : Byte} (h : n ≠ 0#8) :
    ∃ t, exec (.rdregs a r n) s = .next t ∧ t.eng.trace.length = s.eng.trace.length + (94 + 28 * n.toNat) := by
  rw [← primsRead_length a r (toNat_ne_zero h)]
  exact exec_length_of_expansion (i := .rdregs a r n) (bs := []) (by simpa [Instr.wf] using h) rfl

/-- Settles O25: the lengths of the two transactions, a count being at most 255. -/
theorem layerTwoCommandsTerminate : Obligations.LayerTwoCommandsTerminate := by
  intro s a r n d
  refine ⟨fun hn => ?_, exec_rdregs_length s a r, exec_length_of_expansion (i := .wrreg a r d) rfl rfl,
    exec_length_of_expansion (i := .rdreg a r) rfl rfl, exec_rdregs_length s a r (by decide), by omega, by omega⟩
  obtain ⟨bs, hbs⟩ := Option.isSome_iff_exists.1 hn
  rw [← payload_length hbs, ← primsWrite_length a r bs]
  exact exec_length_of_expansion (i := .wrregs a r n) rfl hbs

/-! ### Commands that are another one with fixed operands (R142, R143, R161) -/

theorem payload_one {s : State} {d : Byte} (h : s.buf.read 0 = some d) : s.payload 1 = some [d] := by
  simp [State.payload, Memory.slice, h]

/-- Settles O46: the payload of one byte is `BUF[0]`. -/
theorem wrregIsWrregsOfOneByte : Obligations.WrregIsWrregsOfOneByte :=
  fun _ a r _ h => (exec_wrregs a r (n := 1#8) (payload_one h)).symm

/-- Settles O47: neither count is zero. -/
theorem singleReadsAreRdregs : Obligations.SingleReadsAreRdregs :=
  fun s => ⟨fun a r => (exec_rdregs s a r (n := 1#8) (by decide)).symm,
    (exec_rdregs s Config.osc.addr Config.osc.regBase (n := 6#8) (by decide)).symm⟩

/-! ### A read that fails (R146) -/

/-- A command that writes BUF is a read of as many bytes (R27). -/
theorem exec_of_bufWritten {i : Instr} {s t : State} (hi : bufWritten i ≠ 0) (h : exec i s = .next t) :
    ∃ a r, t = (s.rdregs a r (bufWritten i)).complete := by
  obtain ⟨-, bs, -, rfl⟩ := exec_next h
  cases i with
  | rdregs a r n => exact ⟨a, r, rfl⟩
  | rdreg a r => exact ⟨a, r, rfl⟩
  | oscrd => exact ⟨Config.osc.addr, Config.osc.regBase, rfl⟩
  | _ => exact absurd rfl hi

/-- Settles O45: the free bytes are numbered from the draws after the samples of the read. -/
theorem failedReadLeavesFreeBytes : Obligations.FailedReadLeavesFreeBytes := by
  intro i s t hi h hok
  obtain ⟨a, r, rfl⟩ := exec_of_bufWritten hi h
  rw [complete_ok] at hok
  refine ⟨(s.eng.readTransaction a r (bufWritten i)).2.draws, fun j hj => ?_, fun j hj => ?_⟩
  · rw [complete_buf, rdregs_read, if_pos hj, hok, if_neg Bool.false_ne_true]
  · rw [complete_buf, rdregs_read, if_neg (by omega)]

end Sys2Proof.Machine

/-! PROOFS. The Oscillator Register Protocol (R160 to R164): OSCWR is its four commands one after another, it performs
them all whatever a device does not acknowledge, and the chip numbers meet the document's constraints. -/

namespace Sys2Proof.Machine

/-! ### OSCWR and its four commands (R160, R162) -/

/-- Alike states with the same results and CMD complete to the same state. -/
theorem State.Alike.complete_eq {s s' : State} (h : s.Alike s') (hok : s'.ok = s.ok) (hrdata : s'.rdata = s.rdata)
    (hsnapshot : s'.snapshot = s.snapshot) (hcmd : s'.cmd = s.cmd) : s'.complete = s.complete := by
  rw [h.complete, hok, hrdata, hsnapshot, hcmd]
  rfl

/-- The end of the command before it, which makes the sequencer idle, is nothing to a write command. -/
theorem complete_wrregs_complete (s : State) (a : DevAddr) (r : RegAddr) (bs : List Byte) :
    (s.complete.wrregs a r bs).complete = (s.wrregs a r bs).complete := by
  have hs : s.Alike s.complete := ⟨rfl, rfl, rfl⟩
  obtain ⟨halike, hok⟩ := hs.wrregs a r bs
  exact halike.complete_eq hok (by rw [wrregs_rdata, complete_rdata, wrregs_rdata])
    (by rw [wrregs_snapshot, complete_snapshot, wrregs_snapshot]) (by rw [wrregs_cmd, complete_cmd, wrregs_cmd])

/-- WRREG after another command. -/
theorem exec_wrreg_complete (s : State) (a : DevAddr) (r : RegAddr) (d : Byte) :
    exec (.wrreg a r d) s.complete = .next (s.wrreg a r d).complete :=
  congrArg Host.Outcome.next (complete_wrregs_complete s a r [d])

/-- WRREGS after another command. -/
theorem exec_wrregs_complete {s : State} {n : Byte} {bs : List Byte} (a : DevAddr) (r : RegAddr)
    (h : s.payload n.toNat = some bs) : exec (.wrregs a r n) s.complete = .next (s.wrregs a r bs).complete := by
  rw [exec_wrregs (s := s.complete) a r h, complete_wrregs_complete]

/-- OSCWR ends as its last step does, but for the flag. -/
theorem oscwr_complete (s : State) (bs : List Byte) :
    (s.oscwr bs).complete =
      { (s.oscFreeze.oscBulk bs).oscUnfreeze.oscCommit.complete with
        ok := s.oscFreeze.ok && (s.oscFreeze.oscBulk bs).ok && (s.oscFreeze.oscBulk bs).oscUnfreeze.ok &&
          (s.oscFreeze.oscBulk bs).oscUnfreeze.oscCommit.ok } := by
  simp only [State.oscwr, State.setOk, State.complete]

/-- Settles O48: each command runs from the end of the one before it as the step of OSCWR does. -/
theorem oscwrIsItsFourCommands : Obligations.OscwrIsItsFourCommands := by
  intro s h
  obtain ⟨bs, hbs⟩ := Option.isSome_iff_exists.1 h
  exact ⟨s.oscFreeze.complete, (s.oscFreeze.oscBulk bs).complete, (s.oscFreeze.oscBulk bs).oscUnfreeze.complete,
    (s.oscFreeze.oscBulk bs).oscUnfreeze.oscCommit.complete, rfl,
    exec_wrregs_complete (s := s.oscFreeze) (n := 6#8) _ _ hbs, exec_wrreg_complete .., exec_wrreg_complete ..,
    (exec_oscwr hbs).trans (congrArg _ (oscwr_complete s bs))⟩

/-! ### OSCWR with a device that does not acknowledge every byte (R72, R162) -/

/-- Of the bytes still to come, the device acknowledges the first `m` after the next `n` (R72). -/
def Device.acknowledgesAfter (d : Device) (n m : Nat) : Bool :=
  (List.range m).all fun j => !d.nackAt.contains (d.count + n + j)

theorem acknowledgesAfter_zero_add (d : Device) (n m : Nat) :
    d.acknowledgesAfter 0 (n + m) = (d.acknowledgesAfter 0 n && d.acknowledgesAfter n m) := by
  simp [Device.acknowledgesAfter, List.range_add, Function.comp_def, Nat.add_assoc]

/-- The idle bus once `n` bytes have gone to the device `d`: it is at rest at its address, with the registers of `w`. -/
structure State.Wrote (s : State) (d : Device) (n : Nat) (w : Device) : Prop where
  pins : s.eng.pins = idleBus
  partner : ∃ d', s.eng.partner = .device d' ∧ d'.regs = w.regs ∧ d'.atRest = true ∧ d'.pa = d.pa ∧
    d'.nackAt = d.nackAt ∧ d'.count = d.count + n

/-- Another write to the device stores its bytes, acknowledged or not (R68, R72). -/
theorem State.Wrote.wrregs {s : State} {d w : Device} {n : Nat} (h : s.Wrote d n w) {a : DevAddr} (ha : d.pa = a)
    (r : RegAddr) (bs : List Byte) :
    (s.wrregs a r bs).ok = d.acknowledgesAfter n (bs.length + 2) ∧
    (s.wrregs a r bs).Wrote d (n + (bs.length + 2)) (w.withBytes r bs) := by
  obtain ⟨hpins, d', hp, hregs, hrest, hpa, hnack, hcount⟩ := h
  obtain ⟨hok, d'', hp', hregs', -, hrest', hpa', hnack', hcount'⟩ := wrregs_device s d' r bs hpins hp hrest
  rw [hpa.trans ha] at hok hp' hpa'
  rw [hnack, hcount] at hok
  refine ⟨hok, rfl, d'', hp', hregs'.trans (withBytes_regs d' w r bs hregs), hrest', hpa'.trans ha.symm,
    hnack'.trans hnack, ?_⟩
  rw [hcount', hcount]
  simp only [Nat.add_assoc]

/-- Settles O57: the four writes of 3, 8, 3 and 3 bytes follow one another. -/
theorem oscwrIsFailSoft : Obligations.OscwrIsFailSoft := by
  intro s d bs hb hp hd ha hbs
  have h0 : s.Wrote d 0 d := ⟨hb, d, hp, rfl, hd, rfl, rfl, rfl⟩
  obtain ⟨k1 : s.oscFreeze.ok = _, h1⟩ := h0.wrregs ha Config.osc.regFreeze [Config.osc.freezeWord]
  obtain ⟨k2 : (s.oscFreeze.oscBulk bs).ok = _, h2⟩ := h1.wrregs ha Config.osc.regBase bs
  obtain ⟨k3 : (s.oscFreeze.oscBulk bs).oscUnfreeze.ok = _, h3⟩ := h2.wrregs ha Config.osc.regFreeze [unfreezeWord]
  obtain ⟨k4 : (s.oscFreeze.oscBulk bs).oscUnfreeze.oscCommit.ok = _, -, d', hp', hregs, hrest, -⟩ :=
    h3.wrregs ha Config.osc.regCtrl [Config.osc.newFreqWord]
  have hok : (s.oscwr bs).ok = d.acknowledgesAfter 0 17 := by
    rw [oscwr_ok, k1, k2, k3, k4, Nat.zero_add, ← acknowledgesAfter_zero_add, ← acknowledgesAfter_zero_add,
      ← acknowledgesAfter_zero_add, payload_length hbs]
    rfl
  exact ⟨_, d', exec_oscwr hbs, hp', hok, hregs, hrest⟩

end Sys2Proof.Machine

namespace Sys2Proof

/-! ### The chip numbers (R164) -/

theorem inBlock_of_toNat_eq_add {base r : RegAddr} {j : Nat} (hj : j < 6) (h : r.toNat = base.toNat + j) :
    inBlock base r = true := by
  simp only [inBlock, h, Bool.and_eq_true, decide_eq_true_eq]
  omega

/-- The one index left by the filter is the place of the bit. -/
theorem exists_eq_shiftLeft_of_oneBitSet {w : Byte} (h : oneBitSet w = true) : ∃ j : Nat, j < 8 ∧ w = 1#8 <<< j := by
  obtain ⟨j, hj⟩ := List.length_eq_one_iff.1 (beq_iff_eq.1 h)
  have hbit : ∀ i, (i < 8 ∧ w.getLsbD i = true) ↔ i = j := fun i => by
    rw [← List.mem_singleton (b := j), ← hj, List.mem_filter, List.mem_range]
  have hj8 : j < 8 := ((hbit j).2 rfl).1
  refine ⟨j, hj8, BitVec.eq_of_getLsbD_eq fun i hi => ?_⟩
  rw [← BitVec.twoPow_eq, BitVec.getLsbD_twoPow, Bool.eq_iff_iff, Bool.and_eq_true, decide_eq_true_iff,
    decide_eq_true_iff, eq_comm (a := j), ← hbit i, and_iff_right hj8, and_iff_right hi]

/-- Settles O50: the constraints are fields of the type, and its default fields make a value. -/
theorem chipNumbersMeetTheirConstraints : Obligations.ChipNumbersMeetTheirConstraints := by
  refine ⟨fun c => ⟨fun j hj hfreeze => ?_, c.ctrl_separate, exists_eq_shiftLeft_of_oneBitSet c.newFreq_oneBit⟩,
    ⟨{}, rfl, rfl, rfl, rfl, rfl, rfl, rfl⟩, rfl⟩
  exact Bool.false_ne_true (c.freeze_outside.symm.trans (inBlock_of_toNat_eq_add hj hfreeze))

end Sys2Proof

/-! PROOFS. The host's turn (R190) and its absence while BUSY is 1 (R191). -/

namespace Sys2Proof.Machine

theorem hostTurn_nil {s : State} (h : s.inputs = []) : s.hostTurn = s := by
  simp only [State.hostTurn, h]

/-- Settles O10: the step is the host's turn, its write of an entry is the memory's, and its read changes nothing. -/
theorem hostWritesAndReadsOfResults : Obligations.HostWritesAndReadsOfResults := by
  intro s rest hb
  refine ⟨fun i v hi => ?write, fun x hi => ?read, fun hi => ?wait⟩
  case write =>
    exact ⟨_, step_input hb hi, Memory.read_write_same s.buf i.toNat v,
      fun _ hj => Memory.read_write_other s.buf v hj, rfl⟩
  case read => exact step_input hb hi
  case wait => rw [step_of_not_busy hb, hostTurn_nil hi]

theorem exec_inputs {i : Instr} {s t : State} (h : exec i s = .next t) : t.inputs = s.inputs := by
  obtain ⟨-, bs, -, rfl⟩ := exec_next h
  rw [complete_inputs, perform_inputs]

/-- Settles O12: a step with BUSY = 1 is the boot read or a command, and neither touches the host's actions. -/
theorem hostTouchesNothingWhileBusy : Obligations.HostTouchesNothingWhileBusy := by
  intro s t hb h
  obtain ⟨-, rfl⟩ | ⟨-, -, i, -, hexec⟩ | ⟨hidle, -⟩ := step_cases h
  · exact bootRead_inputs s
  · exact exec_inputs hexec
  · exact absurd (hidle.symm.trans hb) Bool.false_ne_true

end Sys2Proof.Machine

/-! PROOFS. The boot read, SNAPSHOT and the reset input (R210 to R213). -/

namespace Sys2Proof.Machine

/-- Settles O15: the boot read is OSCRD but for SNAPSHOT, and that read has written the six entries it copies. -/
theorem bootStepReadsAndTakesSnapshot : Obligations.BootStepReadsAndTakesSnapshot := fun s h =>
  ⟨s.bootRead, s.oscrd.complete, step_of_bootPending h, exec_oscrd s, bootRead_eq s, bootRead_busy s,
    by rw [bootRead_eng, complete_eng], bootRead_read s⟩

theorem exec_snapshot {i : Instr} {s t : State} (h : exec i s = .next t) : t.snapshot = s.snapshot := by
  obtain ⟨-, bs, -, rfl⟩ := exec_next h
  rw [complete_snapshot, perform_snapshot]

theorem applyInput_snapshot (s : State) {x : Input} (h : x ≠ .reset) : (s.applyInput x).snapshot = s.snapshot := by
  cases x with
  | reset => exact absurd rfl h
  | _ => rfl

/-- R213: the host's turn keeps SNAPSHOT unless the reset input is next. -/
theorem hostTurn_snapshot {s : State} (h : s.inputs.head? ≠ some .reset) : s.hostTurn.snapshot = s.snapshot := by
  cases hi : s.inputs with
  | nil => rw [hostTurn_nil hi]
  | cons x rest =>
    rw [hostTurn_cons hi]
    refine applyInput_snapshot _ fun hx => h ?_
    rw [hi, hx, List.head?_cons]

/-- Settles O16: of the three kinds of step, a command keeps SNAPSHOT, and so does every host action but the reset. -/
theorem snapshotChangesOnlyAtBootOrReset : Obligations.SnapshotChangesOnlyAtBootOrReset := by
  intro s t h hne
  obtain ⟨hboot, -⟩ | ⟨-, -, i, -, hexec⟩ | ⟨hidle, rfl⟩ := step_cases h
  · exact .inl hboot
  · exact absurd (exec_snapshot hexec) hne
  · exact .inr ⟨hidle, by_contra fun hreset => hne (hostTurn_snapshot hreset)⟩

/-- Settles O17: the step is the reset input, whose fields are the reset values but for the partner and the actions. -/
theorem resetInputKeepsThePartner : Obligations.ResetInputKeepsThePartner := fun s rest hb hi =>
  ⟨({ s with inputs := rest } : State).resetInput, step_input hb hi, rfl, rfl, rfl, rfl, rfl, rfl, rfl, rfl, rfl⟩

end Sys2Proof.Machine

/-! PROOFS. The drives, samples and primitives of every command (R223), counted on its fixed expansion (R145). -/

namespace Sys2Proof.Machine

/-- Drives, samples and primitives of an expansion. -/
def primCounts (ps : List Prim) : Nat × Nat × Nat := (drives ps, sampleCount ps, ps.length)

theorem traceCounts_eq_primCounts (tr : List Event) : traceCounts tr = primCounts (tr.map Event.prim) := by
  rw [primCounts, List.length_map, traceCounts]

theorem primCounts_append (ps qs : List Prim) : primCounts (ps ++ qs) = primCounts ps + primCounts qs := by
  simp only [primCounts, drives, sampleCount, List.countP_append, List.length_append, Prod.mk_add_mk]

/-- What is repeated is counted as often. -/
theorem primCounts_replicate (n : Nat) (ps : List Prim) :
    primCounts (List.replicate n ps).flatten = n • primCounts ps := by
  induction n with
  | zero => rw [zero_nsmul]; rfl
  | succ k ih => rw [List.replicate_succ, List.flatten_cons, primCounts_append, ih, succ_nsmul']

theorem primCounts_start : primCounts primsStart = (4, 0, 4) := rfl

theorem primCounts_stop : primCounts primsStop = (3, 0, 3) := rfl

theorem primCounts_txb (b : Byte) : primCounts (primsTxb b) = (27, 1, 28) := rfl

theorem primCounts_rxb (k : Bool) : primCounts (primsRxb k) = if k then (20, 8, 28) else (19, 8, 27) := by
  cases k <;> rfl

theorem primCounts_txbs (bs : List Byte) : primCounts (bs.flatMap primsTxb) = bs.length • (27, 1, 28) := by
  induction bs with
  | nil => rfl
  | cons b rest ih => rw [List.flatMap_cons, primCounts_append, primCounts_txb, ih, List.length_cons, succ_nsmul']

/-- R140, R223: START, one TXB for each of the `n + 2` transmitted bytes, STOP. -/
theorem primCounts_write (a : DevAddr) (r : RegAddr) (bs : List Byte) :
    primCounts (primsWrite a r bs) = (61 + 27 * bs.length, 2 + bs.length, 63 + 28 * bs.length) := by
  rw [primsWrite, primCounts_append, primCounts_append, primCounts_start, primCounts_stop, primCounts_txbs]
  simp only [List.length_cons, Prod.smul_mk, Prod.mk_add_mk, Prod.mk.injEq, smul_eq_mul]
  omega

/-- R141, R223: two STARTs, three TXBs, one RXB for each byte, STOP; the last RXB does not acknowledge. -/
theorem primCounts_read (a : DevAddr) (r : RegAddr) {n : Nat} (h : n ≠ 0) :
    primCounts (primsRead a r n) = (91 + 20 * n, 3 + 8 * n, 94 + 28 * n) := by
  simp only [primsRead, primCounts_append, primCounts_replicate, primCounts_start, primCounts_stop, primCounts_txb,
    primCounts_rxb, if_true, Bool.false_eq_true, if_false, Prod.smul_mk, Prod.mk_add_mk, Prod.mk.injEq, smul_eq_mul]
  omega

/-- R160, R223: four writes, of which only the second has the block as its payload. -/
theorem primCounts_oscwr {bs : List Byte} (h : bs.length = 6) : primCounts (primsOscwr bs) = (487, 17, 504) := by
  rw [primsOscwr, primCounts_append, primCounts_append, primCounts_append, primCounts_write, primCounts_write,
    primCounts_write, primCounts_write, h]
  rfl

/-- The fixed expansion of a command has the counts of the table (R223). -/
theorem primCounts_expansion {i : Instr} {bs : List Byte} (hw : i.wf = true) (hl : bs.length = payloadLen i) :
    primCounts (expansion i bs) = commandCounts i := by
  cases i with
  | txb b => exact primCounts_txb b
  | rxb k => exact primCounts_rxb k
  | wrregs a r n => rw [expansion, primCounts_write, hl]; rfl
  | rdregs a r n => exact primCounts_read a r (toNat_ne_zero (by simpa [Instr.wf] using hw))
  | wrreg a r d => exact primCounts_write a r [d]
  | rdreg a r => exact primCounts_read a r (by decide)
  | oscwr => exact primCounts_oscwr hl
  | oscrd => exact primCounts_read Config.osc.addr Config.osc.regBase (by decide)
  | _ => rfl

/-- What a well-formed command records has the counts of the table, whatever it samples (R145, R223). -/
theorem perform_counts (s : State) {i : Instr} {bs : List Byte} (hw : i.wf = true) (hl : bs.length = payloadLen i) :
    ∃ tr, (s.perform i bs).eng.trace = s.eng.trace ++ tr ∧ traceCounts tr = commandCounts i := by
  obtain ⟨tr, htr, hprims⟩ := perform_expansion s bs hw
  exact ⟨tr, htr, by rw [traceCounts_eq_primCounts, hprims, primCounts_expansion hw hl]⟩

/-- Settles O23: a ready command runs its expansion, and the boot read that of OSCRD. -/
theorem commandCountsOfTheTable : Obligations.CommandCountsOfTheTable := by
  refine ⟨fun i s hready => ?_, fun s hboot => ?_⟩
  · obtain ⟨hw, hpay⟩ := (Bool.and_eq_true _ _).mp hready
    obtain ⟨bs, hbs⟩ := Option.isSome_iff_exists.1 hpay
    obtain ⟨tr, htr, hcounts⟩ := perform_counts s hw (payload_length hbs)
    exact ⟨_, tr, exec_of_payload hw hbs, htr, hcounts⟩
  · obtain ⟨tr, htr, hcounts⟩ := perform_counts s (i := .oscrd) (bs := []) rfl rfl
    refine ⟨s.bootRead, tr, step_of_bootPending hboot, ?_, hcounts⟩
    rw [bootRead_eng]
    exact htr

end Sys2Proof.Machine

/-! PROOFS. A data line that is held low (R216): every sample is 0. -/

namespace Sys2Proof.Machine

/-- Held low, the data line is low whatever the master puts on it (R51, R216). -/
theorem sdaLine_of_heldLow {e : Engine} (h : e.partner = .heldLow) : e.sdaLine = false := by
  rw [Engine.sdaLine, h, Partner.level, wiredAnd, Bool.and_false]

/-- A steady partner gives every byte of a successful read the same eight samples (R141). -/
theorem Partner.Steady.rdregs_read {p : Partner} {c : Bool} (h : p.Steady c) (s : State) (he : s.eng.partner = p)
    (a : DevAddr) (r : RegAddr) {n j : Nat} (hj : j < n) (hok : (s.rdregs a r n).ok = true) :
    (s.rdregs a r n).buf.read j = some (byteOf (List.replicate 8 c)) := by
  rw [Machine.rdregs_read, if_pos hj, if_pos hok, h.readLevels s he, List.map_replicate, List.getElem?_replicate,
    if_pos hj]

/-- Held low, SDARD and RXB read zeros (R26, R216). -/
theorem perform_rdata_of_heldLow {s : State} (he : s.eng.partner = .heldLow) {i : Instr} (bs : List Byte)
    (hi : writesRdata i = true) : (s.perform i bs).rdata = 0x00#8 := by
  cases i with
  | sdard => exact congrArg zextLevel (sdaLine_of_heldLow he)
  | rxb k => exact (heldLow_steady.rxb_byte s.eng he k).trans (by decide)
  | _ => cases hi

/-- Settles O52: the held-low line is a steady partner of level 0, and a command that writes BUF is a read. -/
theorem heldLowLineReadsAsSuccess : Obligations.HeldLowLineReadsAsSuccess := by
  intro i s t he h
  obtain ⟨-, bs, -, ht⟩ := exec_next h
  refine ⟨fun hi => ?ok, fun j hj => ?buf, fun hi => ?rdata⟩
  case ok =>
    rw [ht, complete_ok]
    exact heldLow_steady.perform_ok s he bs hi
  case buf =>
    obtain ⟨a, r, rfl⟩ := exec_of_bufWritten (Nat.ne_zero_of_lt hj) h
    rw [complete_buf, heldLow_steady.rdregs_read s he a r hj (heldLow_steady.rdregs_ok s he a r _)]
    decide
  case rdata =>
    rw [ht, complete_rdata]
    exact perform_rdata_of_heldLow he bs hi

end Sys2Proof.Machine
